-- ==== Sys2Proof/Word.lean ====
section
/-! DEFINITION. The fixed widths of the machine (00_scope.md R9, R10, R12). -/

namespace Sys2Proof

/-- The unit of addressing (20_memory.md R51). -/
abbrev Byte := BitVec 8

/-- A dword, and a register of `Mode32` (10_state.md R22). -/
abbrev Word32 := BitVec 32

/-- A qword, a register and an address of `Mode64` (10_state.md R22, 20_memory.md R50). -/
abbrev Word64 := BitVec 64

/-- The value of an XMM register (10_state.md R30). -/
abbrev Xmm := BitVec 128

end Sys2Proof
end

