-- ==== Sys2Proof/Config.lean ====
section
/-! DEFINITION. What is fixed for the machine, and its one family of free values. -/

namespace Sys2Proof

/-- The longest instruction, in bytes (00_scope.md R9 `MAXLEN`, 30_encoding.md R114). -/
def Config.maxLen : Nat := 15

/-- FREE VALUE. Bits 63:32 of a general register's cell after the n-th write of that file in a mode whose
registers are 32 bits wide. 10_state.md R23: "A model that stores 64-bit cells for both modes must treat bits
63:32 after any `Mode32` write as any value." (log 7). -/
opaque Config.gprUpper : Nat → Word32

end Sys2Proof
end

