-- ==== Sys2Proof/Syntax.lean ====
section
/-! DEFINITION. The abstract syntax: the nine instruction forms of 00_scope.md R4 with the operands of
30_encoding.md R107 to R113. One constructor of `Instr` per row of spec/opcode_table.json. -/

namespace Sys2Proof

/-- Operating mode (10_state.md R21). The first two are admitted; in the other three every step is refused
with `badMode` (30_encoding.md R118). -/
inductive Mode where
  | mode64
  | mode32
  | realAddress
  | virtual8086
  | code16
  deriving DecidableEq, Repr

/-- The modes in which the nine forms have a meaning (00_scope.md R9). -/
def Mode.admitted : Mode → Bool
  | .mode64 => true
  | .mode32 => true
  | .realAddress => false
  | .virtual8086 => false
  | .code16 => false

/-- The six segments (10_state.md R32). -/
inductive Seg where
  | es | cs | ss | ds | fs | gs
  deriving DecidableEq, Repr

/-- The number of a general register, as `B ++ rm`, `B ++ base` or `X ++ index` gives it (30_encoding.md R107, R109). -/
abbrev GprNum := BitVec 4

/-- The number of an XMM register, `R' ++ R ++ reg` (30_encoding.md R107). -/
abbrev XmmNum := BitVec 5

/-- The names of 10_state.md R22, in number order. -/
def GprNum.rax : GprNum := 0
def GprNum.rcx : GprNum := 1
def GprNum.rdx : GprNum := 2
def GprNum.rbx : GprNum := 3
def GprNum.rsp : GprNum := 4
def GprNum.rbp : GprNum := 5
def GprNum.rsi : GprNum := 6
def GprNum.rdi : GprNum := 7

/-- The displacement as it stands in the byte stream: absent, one byte or four bytes (30_encoding.md R110).
A one-byte displacement is kept unscaled. -/
inductive Disp where
  | none
  | d8  (d : Byte)
  | d32 (d : Word32)
  deriving DecidableEq, Repr

/-- The addressing form of a memory destination (30_encoding.md R108, R109). -/
inductive Addr where
  /-- `[base + disp]`, no SIB byte. -/
  | base (b : GprNum) (d : Disp)
  /-- SIB byte with a base register; `index = none` is the code 0100b of R109. -/
  | sib (b : GprNum) (index : Option GprNum) (scale : BitVec 2) (d : Disp)
  /-- SIB byte with `base = 101b` and `mod = 00b`: no base register, disp32. -/
  | sibNoBase (index : Option GprNum) (scale : BitVec 2) (d : Word32)
  /-- `mod = 00b`, `rm = 101b`: disp32 in `Mode32`, RIP-relative in `Mode64` (R108, R111). -/
  | disp32 (d : Word32)
  deriving DecidableEq, Repr

/-- Operand 1 (30_encoding.md R107): a general register when `mod = 11b`, memory otherwise. -/
inductive Dest where
  | reg (r : GprNum)
  | mem (a : Addr)
  deriving DecidableEq, Repr

/-- What every form carries: the prefixes that act on the operand (30_encoding.md R87, R88), operands 1 to 3 (R107). -/
structure Form where
  /-- the segment-override byte present, if any -/
  seg  : Option Seg
  /-- the address-size byte 67H is present -/
  a67  : Bool
  src  : XmmNum
  dest : Dest
  imm8 : Byte
  deriving DecidableEq, Repr

/-- The nine forms. `rex` of a legacy form says that a REX byte stands before the opcode (30_encoding.md R92);
its bits follow from the operands. The bits R117 ignores are no part of the syntax (log 20). -/
inductive Instr where
  /-- `66 0F 3A 14 /r ib` (41_pextr_legacy.md R150). -/
  | pextrb (rex : Bool) (f : Form)
  /-- `66 0F 3A 16 /r ib` (R151). -/
  | pextrd (rex : Bool) (f : Form)
  /-- `66 REX.W 0F 3A 16 /r ib` (R152). -/
  | pextrq (rex : Bool) (f : Form)
  /-- `VEX.128.66.0F3A.W0 14 /r ib` (42_vpextr_vex.md R160). -/
  | vpextrbVex (f : Form)
  /-- `VEX.128.66.0F3A.W0 16 /r ib` (R161). -/
  | vpextrdVex (f : Form)
  /-- `VEX.128.66.0F3A.W1 16 /r ib` (R162). -/
  | vpextrqVex (f : Form)
  /-- `EVEX.128.66.0F3A.WIG 14 /r ib` (43_vpextr_evex.md R170). -/
  | vpextrbEvex (f : Form)
  /-- `EVEX.128.66.0F3A.W0 16 /r ib` (R171). -/
  | vpextrdEvex (f : Form)
  /-- `EVEX.128.66.0F3A.W1 16 /r ib` (R172). -/
  | vpextrqEvex (f : Form)
  deriving DecidableEq, Repr

/-- The operands of an instruction. -/
def Instr.form : Instr → Form
  | .pextrb _ f => f
  | .pextrd _ f => f
  | .pextrq _ f => f
  | .vpextrbVex f => f
  | .vpextrdVex f => f
  | .vpextrqVex f => f
  | .vpextrbEvex f => f
  | .vpextrdEvex f => f
  | .vpextrqEvex f => f

/-- The same instruction with its operands changed. -/
def Instr.mapForm (g : Form → Form) : Instr → Instr
  | .pextrb rex f => .pextrb rex (g f)
  | .pextrd rex f => .pextrd rex (g f)
  | .pextrq rex f => .pextrq rex (g f)
  | .vpextrbVex f => .vpextrbVex (g f)
  | .vpextrdVex f => .vpextrdVex (g f)
  | .vpextrqVex f => .vpextrqVex (g f)
  | .vpextrbEvex f => .vpextrbEvex (g f)
  | .vpextrdEvex f => .vpextrdEvex (g f)
  | .vpextrqEvex f => .vpextrqEvex (g f)

end Sys2Proof
end

