-- ==== Sys2Proof/WellFormed.lean ====
section
/-! DEFINITION. Which terms of the syntax an encoding of the given mode can name. -/

namespace Sys2Proof

/-- In `Mode32` only registers 0 to 7 exist (10_state.md R22, R30). -/
def Mode.allowsGpr (m : Mode) (r : GprNum) : Bool := m == .mode64 || r.toNat < 8

/-- An index register: number 4 is the code for "no index" (30_encoding.md R109). -/
def Mode.allowsIndex (m : Mode) : Option GprNum → Bool
  | none => true
  | some r => r != 4 && m.allowsGpr r

/-- A form without displacement cannot have a base register whose low three bits are 101b (30_encoding.md R108, R109). -/
def Disp.fitsBase (b : GprNum) : Disp → Bool
  | .none => b.setWidth 3 != 5
  | .d8 _ => true
  | .d32 _ => true

/-- The addressing forms an encoding can name (30_encoding.md R108, R109). -/
def Addr.wf (m : Mode) : Addr → Bool
  | .base b d => m.allowsGpr b && b.setWidth 3 != 4 && d.fitsBase b
  | .sib b ix _ d => m.allowsGpr b && m.allowsIndex ix && d.fitsBase b
  | .sibNoBase ix _ _ => m.allowsIndex ix
  | .disp32 _ => true

/-- A memory destination with prefix 67H is refused in `Mode32` (30_encoding.md R88, reason `addr16`). -/
def Dest.wf (m : Mode) (a67 : Bool) : Dest → Bool
  | .reg r => m.allowsGpr r
  | .mem a => a.wf m && (m == .mode64 || !a67)

/-- Operands an instruction of a class can name; `nXmm` is how many XMM registers the class reaches in `Mode64`
(10_state.md R30). -/
def Form.wf (m : Mode) (nXmm : Nat) (f : Form) : Bool :=
  m.admitted && f.src.toNat < (if m = .mode64 then nXmm else 8) && f.dest.wf m f.a67

/-- No register of the form needs an extension bit, so it can be encoded without a REX byte (30_encoding.md R92). -/
def Form.needsNoRex (f : Form) : Bool := f.src.toNat < 8 && f.dest.wf .mode32 false

/-- A REX byte exists in `Mode64` only (30_encoding.md R90) and is there when a register number needs it. -/
def Form.rexWf (m : Mode) (rex : Bool) (f : Form) : Bool :=
  if rex then m == .mode64 else f.needsNoRex

/-- The instructions that some byte sequence of the mode stands for (00_scope.md R4, 30_encoding.md R115).
The qword forms exist in `Mode64` only. -/
def Instr.wf (m : Mode) : Instr → Bool
  | .pextrb rex f => f.wf m 16 && f.rexWf m rex
  | .pextrd rex f => f.wf m 16 && f.rexWf m rex
  | .pextrq rex f => f.wf m 16 && f.rexWf m rex && rex && m == .mode64
  | .vpextrbVex f => f.wf m 16
  | .vpextrdVex f => f.wf m 16
  | .vpextrqVex f => f.wf m 16 && m == .mode64
  | .vpextrbEvex f => f.wf m 32
  | .vpextrdEvex f => f.wf m 32
  | .vpextrqEvex f => f.wf m 32 && m == .mode64

end Sys2Proof
end

