-- ==== Sys2Proof/Decode.lean ====
section
/-! DEFINITION. From bytes to an instruction and back: the decoder of 30_encoding.md R121, the encoder, the
length of R114, and the reading of an opcode-table word (R120). -/

namespace Sys2Proof

/-- The closed list of refusal reasons of 30_encoding.md R118. Every one is SAFE: the model stops where the spec
says that no source settles what happens. -/
inductive RefusalReason where
  /-- the bytes are not one of the nine forms (R82, R84, R94, R98, R106); raised by the decoder -/
  | notInScope
  /-- real-address mode, virtual-8086 mode or a 16-bit code segment; raised before the fetch -/
  | badMode
  /-- F2H or F3H before a legacy form (R86); raised by the decoder -/
  | repPrefix
  /-- a repeated prefix, or two segment overrides (R89); raised by the decoder -/
  | dupPrefix
  /-- a REX byte not immediately before 0FH (R91); raised by the decoder -/
  | rexNotLast
  /-- `Mode32`, 67H and a memory destination (R88); raised by the decoder -/
  | addr16
  /-- `Mode32` with VEX.B̄ = 0, EVEX.B̄ = 0 or EVEX.R̄' = 0 (R99, R105); raised by the decoder -/
  | mode32ExtBit
  /-- P0[3:2] or P1[2] wrong (R104); raised by the decoder -/
  | evexReserved
  /-- aaa, z, b or V̄' used (R104); raised by the decoder -/
  | evexUnusedField
  /-- `Mode64`, EVEX, mod = 11b, X̄ = 0 (R105); raised by the decoder -/
  | evexXReg
  /-- a store into the code region (20_memory.md R68); raised by the store -/
  | smc
  deriving DecidableEq, Repr

/-- Why the decoder stops without an instruction. -/
inductive Stop where
  /-- it needs a byte beyond those it was given -/
  | more
  /-- #UD from the encoding (30_encoding.md R116) -/
  | ud
  /-- a refusal of R118 -/
  | refuse (r : RefusalReason)
  deriving DecidableEq, Repr

/-- A parse of the byte stream. -/
abbrev Scan := Except Stop

/-- The next byte of the stream (20_memory.md R70: ascending order, as many as the decoder needs). -/
def nextByte : List Byte → Scan (Byte × List Byte)
  | [] => .error .more
  | b :: bs => .ok (b, bs)

/-- Four bytes, little-endian (30_encoding.md R110). -/
def nextDword : List Byte → Scan (Word32 × List Byte)
  | b0 :: b1 :: b2 :: b3 :: bs => .ok (b3 ++ b2 ++ b1 ++ b0, bs)
  | _ => .error .more

/-! ## Legacy prefix bytes -/

/-- The legacy prefix bytes of 30_encoding.md R83, by what they are. -/
inductive PfxByte where
  | segment (s : Seg)
  | opSize
  | addrSize
  | lock
  | rep
  deriving DecidableEq, Repr

/-- 30_encoding.md R83. -/
def pfxByte? (b : Byte) : Option PfxByte :=
  if b = 0x26 then some (.segment .es)
  else if b = 0x2E then some (.segment .cs)
  else if b = 0x36 then some (.segment .ss)
  else if b = 0x3E then some (.segment .ds)
  else if b = 0x64 then some (.segment .fs)
  else if b = 0x65 then some (.segment .gs)
  else if b = 0x66 then some .opSize
  else if b = 0x67 then some .addrSize
  else if b = 0xF0 then some .lock
  else if b = 0xF2 then some .rep
  else if b = 0xF3 then some .rep
  else none

/-- The byte of a segment override (30_encoding.md R83). -/
def segByte : Seg → Byte
  | .es => 0x26
  | .cs => 0x2E
  | .ss => 0x36
  | .ds => 0x3E
  | .fs => 0x64
  | .gs => 0x65

/-- The prefixes read so far (the variables of R121's loop). -/
structure Pfxs where
  seg  : Option Seg := none
  o66  : Bool := false
  a67  : Bool := false
  lock : Bool := false
  rep  : Bool := false
  deriving DecidableEq, Repr

/-- One prefix byte more; `none` where R121's loop refuses with `dup_prefix` (log 13 for F2H with F3H). -/
def Pfxs.add (p : Pfxs) : PfxByte → Option Pfxs
  | .segment s => if p.seg.isSome then none else some { p with seg := some s }
  | .opSize => if p.o66 then none else some { p with o66 := true }
  | .addrSize => if p.a67 then none else some { p with a67 := true }
  | .lock => if p.lock then none else some { p with lock := true }
  | .rep => if p.rep then none else some { p with rep := true }

/-- A prefix that raises #UD before VEX and EVEX (30_encoding.md R95, R101). -/
def Pfxs.badForVex (p : Pfxs) : Bool := p.o66 || p.rep || p.lock

/-- R121's loop: reads prefix bytes, and stops in front of the first byte that is none. -/
def readPfxs (p : Pfxs) : List Byte → Scan (Pfxs × List Byte)
  | [] => .error .more
  | b :: bs =>
    match pfxByte? b with
    | none => .ok (p, b :: bs)
    | some k =>
      match p.add k with
      | none => .error (.refuse .dupPrefix)
      | some p' => readPfxs p' bs

/-- A byte of the range 40H to 4FH (30_encoding.md R90). -/
def isRex (b : Byte) : Bool := b.extractLsb' 4 4 == (4 : BitVec 4)

/-- The REX byte, if there is one (30_encoding.md R90, R91). -/
def readRex (m : Mode) : List Byte → Scan (Option Byte × List Byte)
  | [] => .error .more
  | b :: bs =>
    if m == .mode64 && isRex b then
      match bs with
      | [] => .error .more
      | c :: _ => if isRex c || (pfxByte? c).isSome then .error (.refuse .rexNotLast) else .ok (some b, bs)
    else .ok (none, b :: bs)

/-! ## ModRM, SIB, displacement, immediate -/

/-- The displacement that `mod` calls for (30_encoding.md R108). -/
def readDisp (md : BitVec 2) (bs : List Byte) : Scan (Disp × List Byte) :=
  if md = 0 then .ok (.none, bs)
  else if md = 1 then do
    let (d, bs) ← nextByte bs
    .ok (.d8 d, bs)
  else do
    let (d, bs) ← nextDword bs
    .ok (.d32 d, bs)

/-- A register number of four bits: the extension bit, then the field (30_encoding.md R107, R109). -/
def gprNum (ext : Bool) (field : BitVec 3) : GprNum := BitVec.ofBool ext ++ field

/-- The index register of a SIB byte: number 0100b means none (30_encoding.md R109). -/
def indexOf (n : GprNum) : Option GprNum := if n = 4 then none else some n

/-- The rest of a memory operand after the ModRM byte (30_encoding.md R108, R109). -/
def readAddr (x b : Bool) (md : BitVec 2) (rm : BitVec 3) (bs : List Byte) : Scan (Addr × List Byte) :=
  if rm = 4 then do
    let (sib, bs) ← nextByte bs
    let index := indexOf (gprNum x (sib.extractLsb' 3 3))
    let scale := sib.extractLsb' 6 2
    if md = 0 ∧ sib.extractLsb' 0 3 = (5 : BitVec 3) then do
      let (d, bs) ← nextDword bs
      .ok (.sibNoBase index scale d, bs)
    else do
      let (d, bs) ← readDisp md bs
      .ok (.sib (gprNum b (sib.extractLsb' 0 3)) index scale d, bs)
  else if md = 0 ∧ rm = 5 then do
    let (d, bs) ← nextDword bs
    .ok (.disp32 d, bs)
  else do
    let (d, bs) ← readDisp md bs
    .ok (.base (gprNum b rm) d, bs)

/-- Operand 1 (30_encoding.md R107), with the `addr16` test where R121 places it. -/
def readDest (m : Mode) (a67 x b : Bool) (md : BitVec 2) (rm : BitVec 3) (bs : List Byte) : Scan (Dest × List Byte) :=
  if md = 3 then .ok (.reg (gprNum b rm), bs)
  else if m == .mode32 && a67 then .error (.refuse .addr16)
  else do
    let (a, bs) ← readAddr x b md rm bs
    .ok (.mem a, bs)

/-- The tail of R121, common to the classes: ModRM, SIB, displacement and imm8. `r'`, `r`, `x`, `b` are the
extension bits, not inverted. -/
def readForm (m : Mode) (p : Pfxs) (r' r x b : Bool) (bs : List Byte) : Scan (Form × List Byte) := do
  let (modrm, bs) ← nextByte bs
  let (dest, bs) ← readDest m p.a67 x b (modrm.extractLsb' 6 2) (modrm.extractLsb' 0 3) bs
  let (imm8, bs) ← nextByte bs
  .ok ({ seg := p.seg, a67 := p.a67, src := BitVec.ofBool r' ++ BitVec.ofBool r ++ modrm.extractLsb' 3 3,
         dest := dest, imm8 := imm8 }, bs)

/-! ## The three classes -/

/-- An opcode byte of the nine forms (30_encoding.md R81). -/
def isExtractOp (op : Byte) : Bool := op == 0x14 || op == 0x16

/-- 30_encoding.md R115, legacy rows: the width and so the instruction. -/
def selectLegacy (m : Mode) (op : Byte) (w rex : Bool) (f : Form) : Instr :=
  if op = 0x14 then .pextrb rex f else if m == .mode64 && w then .pextrq rex f else .pextrd rex f

/-- 30_encoding.md R115, VEX rows. -/
def selectVex (m : Mode) (op : Byte) (w : Bool) (f : Form) : Instr :=
  if op = 0x14 then .vpextrbVex f else if m == .mode64 && w then .vpextrqVex f else .vpextrdVex f

/-- 30_encoding.md R115, EVEX rows. -/
def selectEvex (m : Mode) (op : Byte) (w : Bool) (f : Form) : Instr :=
  if op = 0x14 then .vpextrbEvex f else if m == .mode64 && w then .vpextrqEvex f else .vpextrdEvex f

/-- The legacy class after its byte 0FH (30_encoding.md R93, R121). -/
def decodeLegacy (m : Mode) (p : Pfxs) (rex : Option Byte) (bs : List Byte) : Scan (Instr × List Byte) := do
  let (esc, bs) ← nextByte bs
  if esc ≠ 0x3A then .error (.refuse .notInScope)
  else do
    let (op, bs) ← nextByte bs
    if !isExtractOp op then .error (.refuse .notInScope)
    else if !p.o66 then .error (.refuse .notInScope)
    else if p.rep then .error (.refuse .repPrefix)
    else if p.lock then .error .ud
    else do
      let bits := rex.getD 0
      let (f, bs) ← readForm m p false bits[2] bits[1] bits[0] bs
      .ok (selectLegacy m op bits[3] rex.isSome f, bs)

/-- The VEX class after its byte C4H (30_encoding.md R96 to R99, R121). -/
def decodeVex (m : Mode) (p : Pfxs) (rex : Option Byte) (bs : List Byte) : Scan (Instr × List Byte) := do
  let (v1, bs) ← nextByte bs
  let (v2, bs) ← nextByte bs
  let (op, bs) ← nextByte bs
  if v1.extractLsb' 0 5 ≠ (3 : BitVec 5) ∨ v2.extractLsb' 0 2 ≠ (1 : BitVec 2) ∨ !isExtractOp op then
    .error (.refuse .notInScope)
  else if m == .mode32 && !v1[5] then .error (.refuse .mode32ExtBit)
  else if rex.isSome || p.badForVex then .error .ud
  else if v2[2] then .error .ud
  else if v2.extractLsb' 3 4 ≠ (15 : BitVec 4) then .error .ud
  else do
    let (f, bs) ← readForm m p false (!v1[7]) (!v1[6]) (!v1[5]) bs
    .ok (selectVex m op v2[7] f, bs)

/-- The test of R121 for `evex_x_reg`; the ModRM byte is looked at in `Mode64` with X̄ = 0 only. -/
def evexXCheck (m : Mode) (p0 : Byte) (bs : List Byte) : Scan Unit :=
  if m == .mode64 && !p0[6] then do
    let (modrm, _) ← nextByte bs
    if modrm.extractLsb' 6 2 = (3 : BitVec 2) then .error (.refuse .evexXReg) else .ok ()
  else .ok ()

/-- The EVEX class after its byte 62H (30_encoding.md R102 to R106, R121). -/
def decodeEvex (m : Mode) (p : Pfxs) (rex : Option Byte) (bs : List Byte) : Scan (Instr × List Byte) := do
  let (p0, bs) ← nextByte bs
  let (p1, bs) ← nextByte bs
  let (p2, bs) ← nextByte bs
  let (op, bs) ← nextByte bs
  if p0.extractLsb' 0 2 ≠ (3 : BitVec 2) ∨ p1.extractLsb' 0 2 ≠ (1 : BitVec 2) ∨ !isExtractOp op then
    .error (.refuse .notInScope)
  else if p0.extractLsb' 2 2 ≠ (0 : BitVec 2) ∨ !p1[2] then .error (.refuse .evexReserved)
  else if p2[7] || p2[4] || !p2[3] || p2.extractLsb' 0 3 != (0 : BitVec 3) then .error (.refuse .evexUnusedField)
  else if m == .mode32 && (!p0[5] || !p0[4]) then .error (.refuse .mode32ExtBit)
  else do
    let _ ← evexXCheck m p0 bs
    if rex.isSome || p.badForVex then .error .ud
    else if p2.extractLsb' 5 2 ≠ (0 : BitVec 2) then .error .ud
    else if p1.extractLsb' 3 4 ≠ (15 : BitVec 4) then .error .ud
    else do
      let (f, bs) ← readForm m p (!p0[4]) (!p0[7]) (!p0[6]) (!p0[5]) bs
      .ok (selectEvex m op p1[7] f, bs)

/-- Class recognition of C4H and 62H (30_encoding.md R82): always in `Mode64`, by the top two bits of the next
byte in `Mode32`. -/
def vexRecognised (m : Mode) (bs : List Byte) : Scan Bool :=
  if m == .mode64 then .ok true
  else do
    let (b', _) ← nextByte bs
    .ok (b'.extractLsb' 6 2 == (3 : BitVec 2))

/-- Class recognition and the class's own decoding, after prefixes and REX (30_encoding.md R82). -/
def decodeClass (m : Mode) (p : Pfxs) (rex : Option Byte) (bs : List Byte) : Scan (Instr × List Byte) := do
  let (b, bs) ← nextByte bs
  if b = 0x0F then decodeLegacy m p rex bs
  else if b = 0xC4 then do
    let vex ← vexRecognised m bs
    if vex then decodeVex m p rex bs else .error (.refuse .notInScope)
  else if b = 0x62 then do
    let evex ← vexRecognised m bs
    if evex then decodeEvex m p rex bs else .error (.refuse .notInScope)
  else .error (.refuse .notInScope)

/-- The decoder of 30_encoding.md R121, total on any bytes: the instruction and the bytes after it, or why it
stops. -/
def decode (m : Mode) (bs : List Byte) : Scan (Instr × List Byte) :=
  if m.admitted then do
    let (p, bs) ← readPfxs {} bs
    let (rex, bs) ← readRex m bs
    decodeClass m p rex bs
  else .error (.refuse .badMode)

/-! ## The encoder -/

/-- `mod` of a displacement (30_encoding.md R108). -/
def Disp.md : Disp → BitVec 2
  | .none => 0
  | .d8 _ => 1
  | .d32 _ => 2

/-- Four bytes, lowest first (30_encoding.md R110). -/
def dwordBytes (d : Word32) : List Byte := [d.extractLsb' 0 8, d.extractLsb' 8 8, d.extractLsb' 16 8, d.extractLsb' 24 8]

/-- The displacement bytes (30_encoding.md R110). -/
def Disp.bytes : Disp → List Byte
  | .none => []
  | .d8 d => [d]
  | .d32 d => dwordBytes d

/-- A ModRM byte or a SIB byte: two bits, three bits, three bits (30_encoding.md R107, R109). -/
def byte233 (a : BitVec 2) (b c : BitVec 3) : Byte := a ++ b ++ c

/-- The low three bits of a register number: the field that names it. -/
def lowField (r : GprNum) : BitVec 3 := r.extractLsb' 0 3

/-- The index field (30_encoding.md R109): 100b when there is none. -/
def indexField : Option GprNum → BitVec 3
  | none => 4
  | some r => lowField r

/-- The extension bit X that an addressing form needs. -/
def Addr.x : Addr → Bool
  | .base _ _ => false
  | .sib _ ix _ _ => (ix.getD 0)[3]
  | .sibNoBase ix _ _ => (ix.getD 0)[3]
  | .disp32 _ => false

/-- The extension bit B that an addressing form needs. -/
def Addr.b : Addr → Bool
  | .base r _ => r[3]
  | .sib r _ _ _ => r[3]
  | .sibNoBase _ _ _ => false
  | .disp32 _ => false

/-- The extension bit X of a destination (0 where nothing uses it). -/
def Dest.x : Dest → Bool
  | .reg _ => false
  | .mem a => a.x

/-- The extension bit B of a destination (0 where nothing uses it). -/
def Dest.b : Dest → Bool
  | .reg r => r[3]
  | .mem a => a.b

/-- ModRM, SIB and displacement of an addressing form (30_encoding.md R108, R109). -/
def Addr.bytes (reg : BitVec 3) : Addr → List Byte
  | .base r d => byte233 d.md reg (lowField r) :: d.bytes
  | .sib r ix sc d => byte233 d.md reg 4 :: byte233 sc (indexField ix) (lowField r) :: d.bytes
  | .sibNoBase ix sc d => byte233 0 reg 4 :: byte233 sc (indexField ix) 5 :: dwordBytes d
  | .disp32 d => byte233 0 reg 5 :: dwordBytes d

/-- ModRM, SIB and displacement of a destination. -/
def Dest.bytes (reg : BitVec 3) : Dest → List Byte
  | .reg r => [byte233 3 reg (lowField r)]
  | .mem a => a.bytes reg

/-- Segment override and 67H, in that order. -/
def Form.pfxBytes (f : Form) : List Byte := (f.seg.map segByte).toList ++ (if f.a67 then [0x67] else [])

/-- ModRM to imm8 (30_encoding.md R80). -/
def Form.bodyBytes (f : Form) : List Byte := f.dest.bytes (f.src.extractLsb' 0 3) ++ [f.imm8]

/-- The REX byte (30_encoding.md R92). -/
def rexByte (w r x b : Bool) : Byte :=
  (4 : BitVec 4) ++ BitVec.ofBool w ++ BitVec.ofBool r ++ BitVec.ofBool x ++ BitVec.ofBool b

/-- The mandatory 66H, the REX byte if there is one, and 0FH 3AH (30_encoding.md R93). -/
def legacyBytes (w rex r x b : Bool) : List Byte :=
  0x66 :: (if rex then [rexByte w r x b, 0x0F, 0x3A] else [0x0F, 0x3A])

/-- A legacy form: `[seg] [67] 66 [REX] 0F 3A op ModRM [SIB] [disp] imm8` (30_encoding.md R93). -/
def encodeLegacy (op : Byte) (w rex : Bool) (f : Form) : List Byte :=
  f.pfxBytes ++ legacyBytes w rex f.src[3] f.dest.x f.dest.b ++ [op] ++ f.bodyBytes

/-- The VEX prefix bytes `C4 V1 V2` with map 0F3A, vvvv = 1111b, L = 0, pp = 01b (30_encoding.md R96). -/
def vexBytes (w r x b : Bool) : List Byte :=
  [0xC4, BitVec.ofBool (!r) ++ BitVec.ofBool (!x) ++ BitVec.ofBool (!b) ++ (3 : BitVec 5), BitVec.ofBool w ++ (0x79 : BitVec 7)]

/-- The EVEX prefix bytes `62 P0 P1 P2` with map 0F3A, vvvv = 1111b, pp = 01b, P2 = 08H (30_encoding.md R102,
43_vpextr_evex.md R173). -/
def evexBytes (w r' r x b : Bool) : List Byte :=
  [0x62, BitVec.ofBool (!r) ++ BitVec.ofBool (!x) ++ BitVec.ofBool (!b) ++ BitVec.ofBool (!r') ++ (3 : BitVec 4),
   BitVec.ofBool w ++ (0x7D : BitVec 7), 0x08]

/-- A VEX form: `[seg] [67] C4 V1 V2 op ModRM [SIB] [disp] imm8` (30_encoding.md R96). -/
def encodeVex (op : Byte) (w : Bool) (f : Form) : List Byte :=
  f.pfxBytes ++ vexBytes w f.src[3] f.dest.x f.dest.b ++ [op] ++ f.bodyBytes

/-- An EVEX form: `[seg] [67] 62 P0 P1 P2 op ModRM [SIB] [disp] imm8` (30_encoding.md R102). -/
def encodeEvex (op : Byte) (w : Bool) (f : Form) : List Byte :=
  f.pfxBytes ++ evexBytes w f.src[4] f.src[3] f.dest.x f.dest.b ++ [op] ++ f.bodyBytes

/-- The bytes of an instruction, every ignored bit 0 and the prefixes in one fixed order (log 20). -/
def encode : Instr → List Byte
  | .pextrb rex f => encodeLegacy 0x14 false rex f
  | .pextrd rex f => encodeLegacy 0x16 false rex f
  | .pextrq rex f => encodeLegacy 0x16 true rex f
  | .vpextrbVex f => encodeVex 0x14 false f
  | .vpextrdVex f => encodeVex 0x16 false f
  | .vpextrqVex f => encodeVex 0x16 true f
  | .vpextrbEvex f => encodeEvex 0x14 false f
  | .vpextrdEvex f => encodeEvex 0x16 false f
  | .vpextrqEvex f => encodeEvex 0x16 true f

/-! ## The length -/

/-- Displacement bytes (30_encoding.md R108). -/
def Disp.len : Disp → Nat
  | .none => 0
  | .d8 _ => 1
  | .d32 _ => 4

/-- SIB and displacement bytes (30_encoding.md R108, R109). -/
def Addr.len : Addr → Nat
  | .base _ d => d.len
  | .sib _ _ _ d => 1 + d.len
  | .sibNoBase _ _ _ => 5
  | .disp32 _ => 4

/-- SIB and displacement bytes of a destination. -/
def Dest.len : Dest → Nat
  | .reg _ => 0
  | .mem a => a.len

/-- 30_encoding.md R114 without the opcode bytes: prefixes that act on the operand, ModRM, SIB, displacement, imm8. -/
def Form.len (f : Form) : Nat := f.seg.toList.length + f.a67.toNat + 1 + f.dest.len + 1

/-- The instruction's length in bytes (30_encoding.md R114): 66H, REX and three opcode bytes for the legacy class,
four bytes for VEX, five for EVEX. -/
def Instr.len : Instr → Nat
  | .pextrb rex f => f.len + 1 + rex.toNat + 3
  | .pextrd rex f => f.len + 1 + rex.toNat + 3
  | .pextrq rex f => f.len + 1 + rex.toNat + 3
  | .vpextrbVex f => f.len + 4
  | .vpextrdVex f => f.len + 4
  | .vpextrqVex f => f.len + 4
  | .vpextrbEvex f => f.len + 5
  | .vpextrdEvex f => f.len + 5
  | .vpextrqEvex f => f.len + 5

/-! ## Words of the opcode table -/

/-- `n` bytes of `w`, most significant first (30_encoding.md R120: the window's first byte is most significant). -/
def bytesBigEndian (n w : Nat) : List Byte := (List.range n).map fun k => BitVec.ofNat 8 (w >>> (8 * (n - 1 - k)))

/-- `n` bytes of `w`, least significant first. -/
def bytesLittleEndian (n w : Nat) : List Byte := (List.range n).map fun k => BitVec.ofNat 8 (w >>> (8 * k))

/-- The bytes that a `LEGACY` window stands for (30_encoding.md R120): bit 24 is REX.W, bits 23:0 are `0F 3A op`;
66H is the row's mandatory prefix, and a REX byte is there when its W bit is 1. -/
def legacyWindowBytes (w : Nat) : List Byte :=
  [0x66] ++ (if w.testBit 24 then [0x48] else []) ++ bytesBigEndian 3 w

/-- The byte sequences a table word can stand for (log 11): R120's window of the legacy class, the same window with
the ModRM byte of the row's `encoding` string after it, the bytes with the first one most significant (R120, VEX
and EVEX), and the bytes with the first one least significant. -/
def tableLayouts (nbits w : Nat) : List (List Byte) :=
  [ if w < 2 ^ 25 then legacyWindowBytes w else [],
    if w < 2 ^ 33 then legacyWindowBytes (w >>> 8) ++ bytesBigEndian 1 w else [],
    bytesBigEndian ((nbits + 7) / 8) w,
    bytesLittleEndian ((nbits + 7) / 8) w ]

/-- The bytes followed by zeros, up to the longest instruction. -/
def padded (bs : List Byte) : List Byte := (bs ++ List.replicate Config.maxLen 0).take Config.maxLen

/-- The instruction the decoder reads from the bytes in `Mode64`, if any. -/
def decode64? (bs : List Byte) : Option Instr :=
  match decode .mode64 (padded bs) with
  | .ok (i, _) => some i
  | .error _ => none

/-- The bytes of a table word: the first layout that decodes, the window of R120 where none does. -/
def tableWordBytes (nbits w : Nat) : List Byte :=
  padded (((tableLayouts nbits w).find? fun bs => (decode64? bs).isSome).getD (bytesBigEndian ((nbits + 7) / 8) w))

/-- The instruction that the decoder reads from an opcode-table word, every bit above `nbits` zero (log 11). -/
def decodeTableWord (nbits w : Nat) : Option Instr := decode64? (tableWordBytes nbits w)

end Sys2Proof
end

