-- ==== Sys2Proof/Machine/State.lean ====
section
/-! DEFINITION. The state record of 10_state.md R20, the reasons a step can stop, and the state after reset. -/

namespace Sys2Proof.Machine

/-- The exceptions the nine forms can raise (60_exceptions.md R180, R194). Each is SAFE: the spec says the processor
raises it; it changes no state (R200) and ends the run (R13). -/
inductive Fault where
  /-- #UD invalid opcode: raised by the decoder (30_encoding.md R116) and by the feature and control-bit checks
  (60_exceptions.md R187, R188, R190) -/
  | ud
  /-- #NM device not available: raised when CR0.TS is set (60_exceptions.md R189) -/
  | nm
  /-- #SS(0): raised by `Admit` for an access through SS (60_exceptions.md R191) -/
  | ss
  /-- #GP(0): raised by `Admit` (60_exceptions.md R191, R193), and for an instruction over 15 bytes (30_encoding.md R114) -/
  | gp
  /-- #PF: raised by `Admit` (60_exceptions.md R191, R193), with its error code and the faulting linear address (R194) -/
  | pf (code : Word32) (address : Word64)
  /-- #AC(0): raised by a misaligned store with alignment checking on (60_exceptions.md R192) -/
  | ac
  deriving DecidableEq, Repr

/-- Why a step answers with no meaning. -/
inductive Refusal where
  /-- the instruction's arm of `exec` has no meaning yet; raised by `exec` only; SAFE. No arm answers so. -/
  | notModelled (mnemonic : String)
  /-- a reason of the closed list 30_encoding.md R118; raised by fetch, decoder and store; SAFE -/
  | reason (r : RefusalReason)
  /-- `exec` was given a term that no encoding of the state's mode stands for (log 17); raised by a meaning, never
  by `step`; SAFE -/
  | notEncodable
  deriving DecidableEq, Repr

/-- The CPUID feature flags of 00_scope.md R3 and R9. -/
structure Cpuid where
  sse41    : Bool
  avx      : Bool
  avx512f  : Bool
  avx512bw : Bool
  avx512dq : Bool
  deriving DecidableEq, Repr

/-- The flags at the positions of 10_state.md R36: leaf 01H ECX, and leaf 07H subleaf 0 EBX. -/
def Cpuid.ofLeaves (leaf1Ecx leaf7Ebx : Word32) : Cpuid :=
  { sse41 := leaf1Ecx[19], avx := leaf1Ecx[28], avx512f := leaf7Ebx[16], avx512bw := leaf7Ebx[30],
    avx512dq := leaf7Ebx[17] }

/-- The configuration (00_scope.md R9, 10_state.md R29). -/
structure Cfg where
  cpuid      : Cpuid
  cr0Em      : Bool
  cr0Ts      : Bool
  cr0Am      : Bool
  cr4Osfxsr  : Bool
  cr4Osxsave : Bool
  xcr0       : Word64
  deriving DecidableEq, Repr

/-- The configuration at the bit positions of 10_state.md R29. -/
def Cfg.ofRegs (cpuid : Cpuid) (cr0 cr4 : Word32) (xcr0 : Word64) : Cfg :=
  { cpuid := cpuid, cr0Em := cr0[2], cr0Ts := cr0[3], cr0Am := cr0[18], cr4Osfxsr := cr4[9], cr4Osxsave := cr4[18],
    xcr0 := xcr0 }

/-- The segment bases (10_state.md R32); in `Mode32` the low 32 bits are the base (log 8). -/
structure SegBases where
  es : Word64
  cs : Word64
  ss : Word64
  ds : Word64
  fs : Word64
  gs : Word64
  deriving DecidableEq, Repr

/-- What an access is for (20_memory.md R62). -/
inductive Access where
  | fetch
  | write
  deriving DecidableEq, Repr

/-- What `Admit` can return other than `ok` (20_memory.md R62). Of a page fault the parameter says the cause bits
that the access does not fix (60_exceptions.md R194) and how many bytes of the access lie below the faulting one. -/
inductive AdmitFault where
  | gp
  | ss
  | pf (present user reserved : Bool) (skip : Word64)
  deriving DecidableEq, Repr

/-- The arguments of `Admit` (20_memory.md R62), and the privilege level it may read (60_exceptions.md R203). -/
structure Request where
  kind : Access
  seg  : Seg
  ea   : Word64
  la   : Word64
  n    : Nat
  cpl  : BitVec 2
  deriving DecidableEq, Repr

/-- One entry of the table that holds the parameter `Admit` (log 5): a box of requests, and the answer. `none`
stands for "any" in a field of the box, and for `ok` as the answer. -/
structure AdmitEntry where
  kind   : Access
  seg    : Option Seg
  eaLo   : Word64
  eaHi   : Word64
  laLo   : Word64
  laHi   : Word64
  n      : Option Nat
  cpl    : Option (BitVec 2)
  answer : Option AdmitFault
  deriving DecidableEq, Repr

/-- The parameter `Admit` as data: the first entry whose box holds the request answers; no entry means `ok`. -/
abbrev AdmitTable := List AdmitEntry

/-- A general register in two halves: the 32-bit register of `Mode32` is `low`, the 64-bit register of `Mode64` is
`high ++ low` (10_state.md R22, R23). -/
structure Gpr where
  low  : Word32
  high : Word32
  deriving DecidableEq, Repr

/-- Memory (10_state.md R33): the listed bytes, in the canonical form of `Memory.wf`; every other address reads as
`Memory.unlisted`. -/
abbrev Memory := List Host.Cell

/-- The state record of 10_state.md R20, and the run parameters of 00_scope.md R9. -/
structure State where
  mode      : Mode
  gpr       : Vector Gpr 16
  rip       : Word64
  xmm       : Vector Xmm 32
  mem       : Memory
  rflags    : Word64
  mxcsr     : Word32
  segbase   : SegBases
  cfg       : Cfg
  cpl       : BitVec 2
  admitTable : AdmitTable
  codeStart : Word64
  endAddr   : Word64
  /-- the MODEL's own: numbers the free values `Config.gprUpper` (log 7) -/
  freeCount : Nat
  deriving DecidableEq, Repr

/-- After power-up or RESET: the values of 10_state.md R35 (log 1), and where R35 gives none those of log 2 to log 7.
The processor is in real-address mode, in which every step is refused (R118 `badMode`). -/
def State.reset : State where
  mode      := .realAddress
  gpr       := Vector.replicate 16 { low := 0, high := 0 }
  rip       := 0xFFF0
  xmm       := Vector.replicate 32 0
  mem       := []
  rflags    := 2
  mxcsr     := 0x1F80
  segbase   := { es := 0, cs := 0xFFFF0000, ss := 0, ds := 0, fs := 0, gs := 0 }
  cfg       := Cfg.ofRegs { sse41 := true, avx := true, avx512f := true, avx512bw := true, avx512dq := true }
                 0x60000010 0 1
  cpl       := 0
  admitTable := []
  codeStart := 0xFFF0
  endAddr   := 0xFFF0
  freeCount := 0

end Sys2Proof.Machine
end

