-- ==== Sys2Proof/Machine/Ops.lean ====
section
/-! DEFINITION. The named operations over memory, registers and the admission parameter, and raising an
exception. -/

namespace Sys2Proof.Machine

/-! ## Exceptions (60_exceptions.md section 3) -/

/-- The vector number (60_exceptions.md R194). -/
def Fault.vector : Fault → Nat
  | .ud => 6
  | .nm => 7
  | .ss => 12
  | .gp => 13
  | .pf _ _ => 14
  | .ac => 17

/-- The error code pushed, if any (60_exceptions.md R194). -/
def Fault.errorCode : Fault → Option Word32
  | .ud => none
  | .nm => none
  | .ss => some 0
  | .gp => some 0
  | .pf code _ => some code
  | .ac => some 0

/-- TAKING AN EXCEPTION (00_scope.md R13, 60_exceptions.md R199, R200): the step ends with the fault outcome; no state
is changed, nothing is delivered to a handler, and no instruction in scope returns from one (R201). -/
def takeException (e : Fault) : Host.Outcome State Fault Refusal := .fault e

/-- A refusal of 30_encoding.md R118. -/
def refuse (r : RefusalReason) : Host.Outcome State Fault Refusal := .refused (.reason r)

/-! ## Memory -/

/-- What an address that is not listed reads as (log 6). -/
def Memory.unlisted : Byte := 0

/-- The canonical form from address `lo` on. -/
def Memory.wfFrom (lo : Nat) : Memory → Bool
  | [] => true
  | (a, b) :: rest => decide (lo ≤ a) && decide (a < 2 ^ 64) && b != Memory.unlisted && Memory.wfFrom (a + 1) rest

/-- The canonical form: addresses strictly rising and below 2^64 (20_memory.md R50), no entry equal to what an
unlisted address reads as. -/
def Memory.wf (m : Memory) : Bool := Memory.wfFrom 0 m

/-- The byte at an address (10_state.md R33). -/
def Memory.read : Memory → Nat → Byte
  | [], _ => Memory.unlisted
  | (x, c) :: rest, a => if a = x then c else Memory.read rest a

/-- Storing one byte, keeping the canonical form. -/
def Memory.write : Memory → Nat → Byte → Memory
  | [], a, b => if b = Memory.unlisted then [] else [(a, b)]
  | (x, c) :: rest, a, b =>
    if a < x then (if b = Memory.unlisted then (x, c) :: rest else (a, b) :: (x, c) :: rest)
    else if a = x then (if b = Memory.unlisted then rest else (a, b) :: rest)
    else (x, c) :: Memory.write rest a b

/-- An address of the mode: modulo 2^64 in `Mode64`, modulo 2^32 otherwise (20_memory.md R50, R52; log 8). -/
def wrapAddr (m : Mode) (v : Word64) : Word64 :=
  match m with
  | .mode64 => v
  | .mode32 => (v.setWidth 32).setWidth 64
  | .realAddress => (v.setWidth 32).setWidth 64
  | .virtual8086 => (v.setWidth 32).setWidth 64
  | .code16 => (v.setWidth 32).setWidth 64

/-- The address of byte `k` of an access at `addr` (20_memory.md R52). -/
def byteAddr (m : Mode) (addr : Word64) (k : Nat) : Nat := (wrapAddr m (addr + BitVec.ofNat 64 k)).toNat

/-- `MemWrite(addr, n, v)`: byte `k` of `v` goes to `addr + k` (20_memory.md R52). -/
def memWrite (m : Mode) (mem : Memory) (addr : Word64) (v : Word64) : Nat → Memory
  | 0 => mem
  | n + 1 => (memWrite m mem addr v n).write (byteAddr m addr n) (v.extractLsb' (8 * n) 8)

/-- `MemRead(addr, n)`: byte `k` of the value comes from `addr + k` (20_memory.md R52). No form reads data (R53). -/
def memRead (m : Mode) (mem : Memory) (addr : Word64) : Nat → Word64
  | 0 => 0
  | n + 1 => memRead m mem addr n ||| ((mem.read (byteAddr m addr n)).setWidth 64 <<< (8 * n))

/-! ## Admission (20_memory.md R62) -/

/-- The request lies in the entry's box. An entry that answers #SS holds only requests through SS: R62, "the fault
named #SS is returned only for `seg = SS`". -/
def AdmitEntry.covers (e : AdmitEntry) (q : Request) : Bool :=
  e.kind == q.kind && (e.seg.all (· == q.seg)) && e.eaLo ≤ q.ea && q.ea ≤ e.eaHi && e.laLo ≤ q.la && q.la ≤ e.laHi
    && (e.n.all (· == q.n)) && (e.cpl.all (· == q.cpl)) && (e.answer != some .ss || q.seg == .ss)

/-- The answer of the table to a request: the first entry that covers it, `ok` (`none`) where none does. -/
def AdmitTable.answer : AdmitTable → Request → Option AdmitFault
  | [], _ => none
  | e :: rest, q => if e.covers q then e.answer else AdmitTable.answer rest q

/-- The error code of a page fault (60_exceptions.md R194): bit 0 present, bit 1 write, bit 2 user, bit 3 reserved
bit, bit 4 instruction fetch. -/
def pfCode (kind : Access) (present user reserved : Bool) : Word32 :=
  (0 : BitVec 27) ++ BitVec.ofBool (kind == .fetch) ++ BitVec.ofBool reserved ++ BitVec.ofBool user
    ++ BitVec.ofBool (kind == .write) ++ BitVec.ofBool present

/-- The exception that an answer of `Admit` names, for the request it answers (60_exceptions.md R191, R194; log 18). -/
def AdmitFault.toFault (m : Mode) (q : Request) : AdmitFault → Fault
  | .gp => .gp
  | .ss => .ss
  | .pf p u r skip => .pf (pfCode q.kind p u r) (wrapAddr m (q.la + skip))

/-- `Admit(kind, seg, ea, la, n)` (20_memory.md R62): `none` is `ok`. -/
def State.admission (s : State) (kind : Access) (seg : Seg) (ea la : Word64) (n : Nat) : Option Fault :=
  let q : Request := { kind := kind, seg := seg, ea := ea, la := la, n := n, cpl := s.cpl }
  (AdmitTable.answer s.admitTable q).map (AdmitFault.toFault s.mode q)

/-! ## Registers -/

/-- The value of a general register, zero-extended to 64 bits: 64 bits in `Mode64`, the low 32 otherwise (10_state.md
R22, R23). -/
def State.gprRead (s : State) (r : GprNum) : Word64 :=
  let cell := s.gpr[r.toNat]'r.isLt
  if s.mode = .mode64 then cell.high ++ cell.low else cell.low.setWidth 64

/-- `xmm[i]` (10_state.md R30). -/
def State.xmmReg (s : State) (i : XmmNum) : Xmm := s.xmm[i.toNat]'i.isLt

/-- `gpr[dst] <- zext(v)` (40_extract_common.md R134): all 64 bits in `Mode64`; the 32-bit register in `Mode32`, where
bits 63:32 become a free value (10_state.md R23, log 7). -/
def State.writeGpr (s : State) (r : GprNum) (v : Word64) : State :=
  if s.mode = .mode64 then
    { s with gpr := s.gpr.set r.toNat { low := v.setWidth 32, high := v.extractLsb' 32 32 } r.isLt }
  else
    { s with gpr := s.gpr.set r.toNat { low := v.setWidth 32, high := Config.gprUpper s.freeCount } r.isLt,
             freeCount := s.freeCount + 1 }

/-- `rip_next = rip + len`, modulo the width of `rip` (10_state.md R26, 30_encoding.md R111). -/
def State.ripNext (s : State) (len : Nat) : Word64 := wrapAddr s.mode (s.rip + BitVec.ofNat 64 len)

/-- `rip <- (rip + len) mod 2^W` (10_state.md R26). -/
def State.advance (s : State) (len : Nat) : State := { s with rip := s.ripNext len }

/-- A store that every check has let through (40_extract_common.md R135). -/
def State.store (s : State) (la : Word64) (v : Word64) (n : Nat) : State :=
  { s with mem := memWrite s.mode s.mem la v n }

/-- The base the processor adds (10_state.md R32, 20_memory.md R56): 0 for ES, CS, SS and DS in `Mode64`. -/
def State.segBase (s : State) (seg : Seg) : Word64 :=
  match seg with
  | .es => if s.mode = .mode64 then 0 else s.segbase.es
  | .cs => if s.mode = .mode64 then 0 else s.segbase.cs
  | .ss => if s.mode = .mode64 then 0 else s.segbase.ss
  | .ds => if s.mode = .mode64 then 0 else s.segbase.ds
  | .fs => s.segbase.fs
  | .gs => s.segbase.gs

/-- `la = (base(seg) + ea) mod 2^W` (20_memory.md R56). -/
def State.linear (s : State) (seg : Seg) (ea : Word64) : Word64 := wrapAddr s.mode (s.segBase seg + ea)

/-! ## The code region (20_memory.md R68) -/

/-- The linear address lies in `[codeStart, endAddr)`, two offsets in CS (00_scope.md R9, log 15). -/
def State.inCode (s : State) (la : Word64) : Bool :=
  wrapAddr s.mode (la - s.segBase .cs - s.codeStart) < wrapAddr s.mode (s.endAddr - s.codeStart)

/-- Some byte of the `n` bytes at `la` lies in the code region. -/
def State.meetsCode (s : State) (la : Word64) (n : Nat) : Bool :=
  (List.range n).any fun k => s.inCode (wrapAddr s.mode (la + BitVec.ofNat 64 k))

end Sys2Proof.Machine
end

