-- ==== Sys2Proof/Machine/Flags.lean ====
section
/-! DEFINITION. The one flag any rule reads, and the enabling conditions of the three classes. No form computes or
writes a flag (10_state.md R27, R28; 40_extract_common.md R137, R138). -/

namespace Sys2Proof.Machine

/-- RFLAGS.AC (10_state.md R29). -/
def State.acFlag (s : State) : Bool := s.rflags[18]

/-- Alignment checking is on: CR0.AM, RFLAGS.AC and privilege level 3 (60_exceptions.md R192). -/
def State.alignmentCheck (s : State) : Bool := s.cfg.cr0Am && s.acFlag && s.cpl == 3

/-- A store that alignment checking faults (20_memory.md R55, 40_extract_common.md R143). -/
def State.misaligned (s : State) (la : Word64) (n : Nat) : Bool :=
  decide (1 < n) && s.alignmentCheck && la.toNat % n != 0

/-- No #UD condition of Exceptions Type 5 holds for a legacy form (60_exceptions.md R187). -/
def State.legacyEnabled (s : State) : Bool := !s.cfg.cr0Em && s.cfg.cr4Osfxsr && s.cfg.cpuid.sse41

/-- XCR0[2:1] = 11b. -/
def State.xcr0Avx (s : State) : Bool := s.cfg.xcr0[1] && s.cfg.xcr0[2]

/-- XCR0[7:5] = 111b. -/
def State.xcr0Avx512 (s : State) : Bool := s.cfg.xcr0[5] && s.cfg.xcr0[6] && s.cfg.xcr0[7]

/-- No #UD condition of Exceptions Type 5 holds for a VEX form (60_exceptions.md R188). -/
def State.vexEnabled (s : State) : Bool := s.cfg.cr4Osxsave && s.xcr0Avx && s.cfg.cpuid.avx

/-- No #UD condition of Exceptions Type E9NF holds for an EVEX form whose own feature flag is `feature`
(60_exceptions.md R190). -/
def State.evexEnabled (s : State) (feature : Bool) : Bool :=
  s.cfg.cr4Osxsave && s.xcr0Avx && s.xcr0Avx512 && s.cfg.cpuid.avx512f && feature

end Sys2Proof.Machine
end

