-- ==== Sys2Proof/Machine/Operands.lean ====
section
/-! DEFINITION. The extract function, the effective address and segment of a memory destination, and the one
operation that all nine forms perform. -/

namespace Sys2Proof.Machine

/-- The element width of a form (40_extract_common.md R131). -/
inductive Elem where
  | byte
  | dword
  | qword
  deriving DecidableEq, Repr

/-- Its width in bits. -/
def Elem.bits : Elem → Nat
  | .byte => 8
  | .dword => 32
  | .qword => 64

/-- Its width in bytes: the size of the store (20_memory.md R53), and the factor N of an EVEX one-byte displacement
(30_encoding.md R110). -/
def Elem.bytes : Elem → Nat
  | .byte => 1
  | .dword => 4
  | .qword => 8

/-- The element index: the low 4, 2 or 1 bits of the immediate (40_extract_common.md R130, R132). -/
def Elem.sel (e : Elem) (imm : Byte) : Nat :=
  match e with
  | .byte => (imm.extractLsb' 0 4).toNat
  | .dword => (imm.extractLsb' 0 2).toNat
  | .qword => (imm.extractLsb' 0 1).toNat

/-- `Extract(w, s, imm)`, zero-extended to 64 bits (40_extract_common.md R130, R134). -/
def extract (e : Elem) (s : Xmm) (imm : Byte) : Word64 := ((s >>> (e.sel imm * e.bits)).setWidth e.bits).setWidth 64

/-- The displacement as a signed integer; `n` is the factor of a one-byte displacement (30_encoding.md R110). -/
def dispValue (n : Nat) : Disp → Int
  | .none => 0
  | .d8 d => d.toInt * n
  | .d32 d => d.toInt

/-- Effective addresses are computed to 32 bits in `Mode32`, and in `Mode64` with prefix 67H (20_memory.md R59). -/
def wrapEa (m : Mode) (a67 : Bool) (v : Word64) : Word64 :=
  if m = .mode64 ∧ a67 = false then v else (v.setWidth 32).setWidth 64

/-- The value of an index register, 0 when there is none (30_encoding.md R109, R112). -/
def State.indexCell (s : State) (ix : Option GprNum) : Word64 := (ix.map s.gprRead).getD 0

/-- The effective address (30_encoding.md R111, R112). `n` is the disp8 factor, `len` the instruction's length. -/
def State.effectiveAddr (s : State) (a67 : Bool) (n len : Nat) (a : Addr) : Word64 :=
  wrapEa s.mode a67 <|
    match a with
    | .base b d => s.gprRead b + BitVec.ofInt 64 (dispValue n d)
    | .sib b ix sc d => s.gprRead b + (s.indexCell ix <<< sc.toNat) + BitVec.ofInt 64 (dispValue n d)
    | .sibNoBase ix sc d => (s.indexCell ix <<< sc.toNat) + BitVec.ofInt 64 d.toInt
    | .disp32 d =>
      (if s.mode = .mode64 then s.rip + BitVec.ofNat 64 len else 0) + BitVec.ofInt 64 d.toInt

/-- The default segment: SS for base register 4 or 5, else DS (20_memory.md R57). -/
def defaultSeg : Addr → Seg
  | .base b _ => if b = 4 ∨ b = 5 then .ss else .ds
  | .sib b _ _ _ => if b = 4 ∨ b = 5 then .ss else .ds
  | .sibNoBase _ _ _ => .ds
  | .disp32 _ => .ds

/-- An override that takes effect: in `Mode64` only FS and GS do (20_memory.md R57, 30_encoding.md R87). -/
def overrideActs (m : Mode) (seg : Seg) : Bool := m != .mode64 || seg == .fs || seg == .gs

/-- The segment of a memory destination (20_memory.md R57, 30_encoding.md R87). -/
def segmentOf (m : Mode) (ovr : Option Seg) (a : Addr) : Seg :=
  match ovr with
  | none => defaultSeg a
  | some seg => if overrideActs m seg then seg else defaultSeg a

/-- The memory branch of `ExecExtract` (40_extract_common.md R143): `smc`, `Admit`, alignment check, store. -/
def storeElem (e : Elem) (n8 len : Nat) (f : Form) (a : Addr) (v : Word64) (s : State) :
    Host.Outcome State Fault Refusal :=
  let ea := s.effectiveAddr f.a67 n8 len a
  let seg := segmentOf s.mode f.seg a
  let la := s.linear seg ea
  if s.meetsCode la e.bytes then refuse .smc
  else
    match s.admission .write seg ea la e.bytes with
    | some x => takeException x
    | none => if s.misaligned la e.bytes then takeException .ac else .next ((s.store la v e.bytes).advance len)

/-- `ExecExtract` (40_extract_common.md R143). -/
def execExtract (e : Elem) (n8 len : Nat) (f : Form) (s : State) : Host.Outcome State Fault Refusal :=
  let v := extract e (s.xmmReg f.src) f.imm8
  match f.dest with
  | .reg r => .next ((s.writeGpr r v).advance len)
  | .mem a => storeElem e n8 len f a v s

/-- The checks before execution in the order of 60_exceptions.md R196, then `ExecExtract`: the mode (30_encoding.md
R118), the term itself (log 17), #UD from the state, #NM (R189). `n8` is the disp8 factor (30_encoding.md R110). -/
def runExtract (i : Instr) (e : Elem) (n8 : Nat) (enabled : Bool) (s : State) : Host.Outcome State Fault Refusal :=
  if !s.mode.admitted then refuse .badMode
  else if !i.wf s.mode then .refused .notEncodable
  else if !enabled then takeException .ud
  else if s.cfg.cr0Ts then takeException .nm
  else execExtract e n8 i.len i.form s

end Sys2Proof.Machine
end

