-- ==== Sys2Proof/Machine/Evex.lean ====
section
/-! DEFINITION. The EVEX-encoded forms (43_vpextr_evex.md). A one-byte displacement is multiplied by the size of the
memory operand (30_encoding.md R110). -/

namespace Sys2Proof.Machine

/-- VPEXTRB reg/m8, xmm2, imm8 (43_vpextr_evex.md R170, R173). -/
def execVpextrbEvex (f : Form) (s : State) : Host.Outcome State Fault Refusal :=
  runExtract (.vpextrbEvex f) .byte 1 (s.evexEnabled s.cfg.cpuid.avx512bw) s

/-- VPEXTRD r32/m32, xmm2, imm8 (43_vpextr_evex.md R171, R173). -/
def execVpextrdEvex (f : Form) (s : State) : Host.Outcome State Fault Refusal :=
  runExtract (.vpextrdEvex f) .dword 4 (s.evexEnabled s.cfg.cpuid.avx512dq) s

/-- VPEXTRQ r64/m64, xmm2, imm8 (43_vpextr_evex.md R172, R173). -/
def execVpextrqEvex (f : Form) (s : State) : Host.Outcome State Fault Refusal :=
  runExtract (.vpextrqEvex f) .qword 8 (s.evexEnabled s.cfg.cpuid.avx512dq) s

end Sys2Proof.Machine
end

