-- ==== Sys2Proof/Machine/Legacy.lean ====
section
/-! DEFINITION. The legacy-encoded forms (41_pextr_legacy.md). -/

namespace Sys2Proof.Machine

/-- PEXTRB reg/m8, xmm2, imm8 (41_pextr_legacy.md R150, R153). -/
def execPextrb (rex : Bool) (f : Form) (s : State) : Host.Outcome State Fault Refusal :=
  runExtract (.pextrb rex f) .byte 1 s.legacyEnabled s

/-- PEXTRD r/m32, xmm2, imm8 (41_pextr_legacy.md R151, R153). -/
def execPextrd (rex : Bool) (f : Form) (s : State) : Host.Outcome State Fault Refusal :=
  runExtract (.pextrd rex f) .dword 1 s.legacyEnabled s

/-- PEXTRQ r/m64, xmm2, imm8 (41_pextr_legacy.md R152, R153). -/
def execPextrq (rex : Bool) (f : Form) (s : State) : Host.Outcome State Fault Refusal :=
  runExtract (.pextrq rex f) .qword 1 s.legacyEnabled s

end Sys2Proof.Machine
end

