-- ==== Sys2Proof/Machine/Vex.lean ====
section
/-! DEFINITION. The VEX-encoded forms (42_vpextr_vex.md). A one-byte displacement is not scaled (30_encoding.md R110). -/

namespace Sys2Proof.Machine

/-- VPEXTRB reg/m8, xmm2, imm8 (42_vpextr_vex.md R160, R163). -/
def execVpextrbVex (f : Form) (s : State) : Host.Outcome State Fault Refusal :=
  runExtract (.vpextrbVex f) .byte 1 s.vexEnabled s

/-- VPEXTRD r32/m32, xmm2, imm8 (42_vpextr_vex.md R161, R163). -/
def execVpextrdVex (f : Form) (s : State) : Host.Outcome State Fault Refusal :=
  runExtract (.vpextrdVex f) .dword 1 s.vexEnabled s

/-- VPEXTRQ r64/m64, xmm2, imm8 (42_vpextr_vex.md R162, R163). -/
def execVpextrqVex (f : Form) (s : State) : Host.Outcome State Fault Refusal :=
  runExtract (.vpextrqVex f) .qword 1 s.vexEnabled s

end Sys2Proof.Machine
end

