-- ==== Sys2Proof/Machine/Dispatch.lean ====
section
/-! DEFINITION. One arm per constructor of `Instr`. -/

namespace Sys2Proof.Machine

/-- Execution of a decoded instruction. -/
def exec (i : Instr) (s : State) : Host.Outcome State Fault Refusal :=
  match i with
  | .pextrb rex f => Sys2Proof.Machine.execPextrb rex f s
  | .pextrd rex f => Sys2Proof.Machine.execPextrd rex f s
  | .pextrq rex f => Sys2Proof.Machine.execPextrq rex f s
  | .vpextrbVex f => Sys2Proof.Machine.execVpextrbVex f s
  | .vpextrdVex f => Sys2Proof.Machine.execVpextrdVex f s
  | .vpextrqVex f => Sys2Proof.Machine.execVpextrqVex f s
  | .vpextrbEvex f => Sys2Proof.Machine.execVpextrbEvex f s
  | .vpextrdEvex f => Sys2Proof.Machine.execVpextrdEvex f s
  | .vpextrqEvex f => Sys2Proof.Machine.execVpextrqEvex f s

end Sys2Proof.Machine
end

