-- ==== Sys2Proof/Machine/Fetch.lean ====
section
/-! DEFINITION. Instruction fetch (20_memory.md R70), and placing a program for a run (log 10). -/

namespace Sys2Proof.Machine

/-- What fetching and decoding at `rip` gives. -/
inductive Fetched where
  | instr (i : Instr)
  | raise (e : Fault)
  | refuse (r : RefusalReason)
  deriving DecidableEq, Repr

/-- The bytes at `rip + off`, `rip + off + 1`, ... that `Admit(fetch, ...)` admits, at most `n` of them, and the fault of
the first one it does not let through (20_memory.md R70; each byte is asked for by itself, log 14). -/
def fetchBytes (s : State) : Nat → Word64 → List Byte × Option Fault
  | 0, _ => ([], none)
  | n + 1, off =>
    let ea := wrapAddr s.mode (s.rip + off)
    let la := s.linear .cs ea
    match s.admission .fetch .cs ea la 1 with
    | some x => ([], some x)
    | none =>
      let rest := fetchBytes s n (off + 1)
      (s.mem.read la.toNat :: rest.1, rest.2)

/-- The instruction at `rip` (20_memory.md R70, 30_encoding.md R121). A byte that the decoder needs and `Admit` does not
let through is the fault `Admit` names (log 12); a decoder that needed more than `MAXLEN` bytes would raise #GP(0) (30_encoding.md
R114, log 21). -/
def fetchInstr (s : State) : Fetched :=
  if !s.mode.admitted then .refuse .badMode
  else
    let got := fetchBytes s Config.maxLen 0
    match decode s.mode got.1 with
    | .ok (i, _) => .instr i
    | .error .ud => .raise .ud
    | .error (.refuse r) => .refuse r
    | .error .more => .raise (got.2.getD .gp)

/-- The bytes written at `rip`, `rip + 1`, ... in CS. -/
def State.placeBytes (s : State) : Word64 → List Byte → State
  | _, [] => s
  | off, b :: bs =>
    let la := s.linear .cs (wrapAddr s.mode (s.rip + off))
    State.placeBytes { s with mem := s.mem.write la.toNat b } (off + 1) bs

/-- What software outside the nine forms has done before a run (70_reset_and_hazards.md R224): from a mode that is not
admitted, 64-bit mode with CR0.EM and CR0.TS clear, CR4.OSFXSR and CR4.OSXSAVE set, XCR0 bits 0, 1, 2, 5, 6 and 7 set
(log 10). In an admitted mode nothing is changed. -/
def State.boot (s : State) : State :=
  if s.mode.admitted then s
  else { s with mode := .mode64,
                cfg := { s.cfg with cr0Em := false, cr0Ts := false, cr4Osfxsr := true, cr4Osxsave := true, xcr0 := 0xE7 } }

/-- A program of these bytes at `rip`: the bytes, and the code region that holds them (20_memory.md R68). -/
def State.loadProgram (s : State) (bs : List Byte) : State :=
  let t := s.placeBytes 0 bs
  { t with codeStart := s.rip, endAddr := s.ripNext bs.length }

end Sys2Proof.Machine
end

