-- ==== Sys2Proof/Machine/Step.lean ====
section
/-! DEFINITION. One step: fetch, decode, execute (00_scope.md R8, R13). -/

namespace Sys2Proof.Machine

/-- One step of the one logical processor. -/
def step (s : State) : Host.Outcome State Fault Refusal :=
  match fetchInstr s with
  | .instr i => exec i s
  | .raise e => takeException e
  | .refuse r => refuse r

/-- `s` with the instruction of an opcode-table word as the next one: booted if its mode runs none of the nine forms,
and the instruction's bytes stored at `rip` (log 10, log 11). -/
def State.withFetchWord (s : State) (nbits w : Nat) : State := s.boot.loadProgram (tableWordBytes nbits w)

end Sys2Proof.Machine
end

