-- ==== Sys2Proof/Safety.lean ====
section
/-! DEFINITION. The words claims are stated in: when a form may run, what a completed form changes, the good end of a
run, the invariant. The arithmetic is written on natural numbers, apart from the machine's own operations. -/

namespace Sys2Proof.Machine

/-! ## Values -/

/-- W: the width of `rip` and of addresses (10_state.md R26, 20_memory.md R50). -/
def addrBits (m : Mode) : Nat := if m = .mode64 then 64 else 32

/-- The architectural value of a general register: 64 bits in `Mode64`, 32 bits in `Mode32` (10_state.md R22, R23). -/
def State.gprVal (s : State) (r : GprNum) : Nat := (s.gprRead r).toNat

/-- Element `k` of width `w`, element 0 the least significant (40_extract_common.md R141). -/
def element (w k : Nat) (x : Xmm) : Nat := x.toNat / 2 ^ (w * k) % 2 ^ w

/-- The base of a segment as a number of W bits (10_state.md R32, 20_memory.md R56). -/
def State.baseVal (s : State) (seg : Seg) : Nat := (s.segBase seg).toNat % 2 ^ addrBits s.mode

/-! ## When a form may run -/

/-- The enabling conditions and the feature flag of an instruction's class hold (70_reset_and_hazards.md R222 rows 2
to 5; 60_exceptions.md R187, R188, R190). -/
def State.enables (s : State) : Instr → Prop
  | .pextrb _ _ => s.cfg.cpuid.sse41 = true ∧ s.cfg.cr0Em = false ∧ s.cfg.cr4Osfxsr = true
  | .pextrd _ _ => s.cfg.cpuid.sse41 = true ∧ s.cfg.cr0Em = false ∧ s.cfg.cr4Osfxsr = true
  | .pextrq _ _ => s.cfg.cpuid.sse41 = true ∧ s.cfg.cr0Em = false ∧ s.cfg.cr4Osfxsr = true
  | .vpextrbVex _ => s.cfg.cpuid.avx = true ∧ s.cfg.cr4Osxsave = true ∧ s.cfg.xcr0.extractLsb' 1 2 = 3#2
  | .vpextrdVex _ => s.cfg.cpuid.avx = true ∧ s.cfg.cr4Osxsave = true ∧ s.cfg.xcr0.extractLsb' 1 2 = 3#2
  | .vpextrqVex _ => s.cfg.cpuid.avx = true ∧ s.cfg.cr4Osxsave = true ∧ s.cfg.xcr0.extractLsb' 1 2 = 3#2
  | .vpextrbEvex _ => s.cfg.cpuid.avx512f = true ∧ s.cfg.cpuid.avx512bw = true ∧ s.cfg.cr4Osxsave = true ∧
      s.cfg.xcr0.extractLsb' 1 2 = 3#2 ∧ s.cfg.xcr0.extractLsb' 5 3 = 7#3
  | .vpextrdEvex _ => s.cfg.cpuid.avx512f = true ∧ s.cfg.cpuid.avx512dq = true ∧ s.cfg.cr4Osxsave = true ∧
      s.cfg.xcr0.extractLsb' 1 2 = 3#2 ∧ s.cfg.xcr0.extractLsb' 5 3 = 7#3
  | .vpextrqEvex _ => s.cfg.cpuid.avx512f = true ∧ s.cfg.cpuid.avx512dq = true ∧ s.cfg.cr4Osxsave = true ∧
      s.cfg.xcr0.extractLsb' 1 2 = 3#2 ∧ s.cfg.xcr0.extractLsb' 5 3 = 7#3

/-- Everything that is checked before the operands: the mode can encode the instruction, its class is enabled, CR0.TS is
clear (70_reset_and_hazards.md R222). -/
structure State.Ready (s : State) (i : Instr) : Prop where
  wf : i.wf s.mode = true
  on : s.enables i
  ts : s.cfg.cr0Ts = false

/-- The element width of an instruction (30_encoding.md R115, 40_extract_common.md R131). -/
def elemOf : Instr → Elem
  | .pextrb _ _ => .byte
  | .pextrd _ _ => .dword
  | .pextrq _ _ => .qword
  | .vpextrbVex _ => .byte
  | .vpextrdVex _ => .dword
  | .vpextrqVex _ => .qword
  | .vpextrbEvex _ => .byte
  | .vpextrdEvex _ => .dword
  | .vpextrqEvex _ => .qword

/-- N of `disp8*N` (30_encoding.md R110). -/
def disp8N : Instr → Nat
  | .pextrb _ _ => 1
  | .pextrd _ _ => 1
  | .pextrq _ _ => 1
  | .vpextrbVex _ => 1
  | .vpextrdVex _ => 1
  | .vpextrqVex _ => 1
  | .vpextrbEvex _ => 1
  | .vpextrdEvex _ => 4
  | .vpextrqEvex _ => 8

/-- The effective address of an instruction's memory destination `a`. -/
def State.eaOf (s : State) (i : Instr) (a : Addr) : Word64 := s.effectiveAddr i.form.a67 (disp8N i) i.len a

/-- The segment of an instruction's memory destination `a`. -/
def State.segOf (s : State) (i : Instr) (a : Addr) : Seg := segmentOf s.mode i.form.seg a

/-- The linear address an instruction with memory destination `a` stores to. -/
def State.laOf (s : State) (i : Instr) (a : Addr) : Word64 := s.linear (s.segOf i a) (s.eaOf i a)

/-- The alignment-check condition for `n` bytes at `la` (20_memory.md R55, 60_exceptions.md R192). -/
def State.acFaults (s : State) (la n : Nat) : Prop :=
  s.cfg.cr0Am = true ∧ s.rflags.getLsbD 18 = true ∧ s.cpl = 3#2 ∧ la % n ≠ 0

/-- The checks a store passes (70_reset_and_hazards.md R222, last row). -/
structure State.Lets (s : State) (i : Instr) (a : Addr) : Prop where
  code    : s.meetsCode (s.laOf i a) (elemOf i).bytes = false
  admitted : s.admission .write (s.segOf i a) (s.eaOf i a) (s.laOf i a) (elemOf i).bytes = none
  aligned : ¬ s.acFaults (s.laOf i a).toNat (elemOf i).bytes

/-- The offset in CS of byte `k` of the instruction at `rip` (20_memory.md R70). -/
def State.fetchEa (s : State) (k : Nat) : Word64 := wrapAddr s.mode (s.rip + BitVec.ofNat 64 k)

/-- The bytes `bs` stand at `rip`, and `Admit` admits fetching each of them (20_memory.md R70; 70_reset_and_hazards.md
R222, the row on fetch). -/
def State.HoldsAtRip (s : State) (bs : List Byte) : Prop :=
  ∀ k (h : k < bs.length), s.admission .fetch .cs (s.fetchEa k) (s.linear .cs (s.fetchEa k)) 1 = none ∧
    s.mem.read (s.linear .cs (s.fetchEa k)).toNat = bs[k]

/-! ## What a completed form changes -/

/-- Every field that no form writes is as before (10_state.md R20, 40_extract_common.md R139). -/
structure Untouched (s t : State) : Prop where
  mode      : t.mode = s.mode
  xmm       : t.xmm = s.xmm
  rflags    : t.rflags = s.rflags
  mxcsr     : t.mxcsr = s.mxcsr
  segbase   : t.segbase = s.segbase
  cfg       : t.cfg = s.cfg
  cpl       : t.cpl = s.cpl
  admitTable : t.admitTable = s.admitTable
  codeStart : t.codeStart = s.codeStart
  endAddr   : t.endAddr = s.endAddr

/-- `rip <- (rip + len) mod 2^W` (10_state.md R26). -/
def RipAdvanced (s t : State) (len : Nat) : Prop := t.rip.toNat = (s.rip.toNat + len) % 2 ^ addrBits s.mode

/-- Register `r` holds `v`; the other registers of the mode, every byte of memory and all other state are as before
(40_extract_common.md R134, R139). -/
structure RegisterWritten (s t : State) (r : GprNum) (v len : Nat) : Prop where
  value : t.gprVal r = v
  regs  : ∀ q, s.mode.allowsGpr q = true → q ≠ r → t.gprVal q = s.gprVal q
  mem   : ∀ a, t.mem.read a = s.mem.read a
  rip   : RipAdvanced s t len
  rest  : Untouched s t

/-- The `n` bytes from linear address `la` on (modulo 2^W) hold `v`, least significant first; every other byte of
memory, every general register and all other state are as before (20_memory.md R52, 40_extract_common.md R135, R139). -/
structure MemoryWritten (s t : State) (la n v len : Nat) : Prop where
  value : ∀ k, k < n → (t.mem.read ((la + k) % 2 ^ addrBits s.mode)).toNat = v / 2 ^ (8 * k) % 2 ^ 8
  other : ∀ a, (∀ k, k < n → a ≠ (la + k) % 2 ^ addrBits s.mode) → t.mem.read a = s.mem.read a
  regs  : ∀ q, s.mode.allowsGpr q = true → t.gprVal q = s.gprVal q
  rip   : RipAdvanced s t len
  rest  : Untouched s t

/-! ## Prefixes -/

/-- Legacy prefix bytes that are not refused as repeated: no value twice, one segment override at most (30_encoding.md
R83, R89), and not both F2H and F3H (log 13). -/
structure AcceptedPrefixes (pre : List Byte) : Prop where
  bytes   : ∀ b ∈ pre, (pfxByte? b).isSome = true
  once    : pre.Nodup
  segment : ∀ s₁ s₂ : Seg, segByte s₁ ∈ pre → segByte s₂ ∈ pre → s₁ = s₂
  rep     : ¬ ((0xF2 : Byte) ∈ pre ∧ (0xF3 : Byte) ∈ pre)

/-! ## Runs -/

/-- THE LAUNCH CONDITION: `rip = codeStart` (00_scope.md R9, 70_reset_and_hazards.md R221). It is the one condition R221
puts on a launch state; every other field of `State` is whatever the claim fixes, or any value. `codeStart` has the
width of `rip`. -/
def State.Launch (s : State) : Prop := s.rip = wrapAddr s.mode s.codeStart

/-- The end of the program is reached (70_reset_and_hazards.md R226); `endAddr` has the width of `rip` (00_scope.md R9). -/
def State.atEnd (s : State) : Prop := s.rip = wrapAddr s.mode s.endAddr

/-- `Continues s k u`: `k` steps lead from `s` to `u`, each of them to a next state, none of them leaving `rip = endAddr`:
the run from `s` is still going on in `u`. -/
def Continues : State → Nat → State → Prop
  | s, 0, u => u = s
  | s, k + 1, u => ∃ s', step s = .next s' ∧ ¬ s'.atEnd ∧ Continues s' k u

/-- THE GOOD END of a run (70_reset_and_hazards.md R226): it starts at `s` with `rip = codeStart` (R221), and its step
number `k` is the first that leaves `rip = endAddr`, in the state `t`, every earlier step having completed. -/
def EndsWell (s : State) : Nat → State → Prop
  | 0, _ => False
  | k + 1, t => s.Launch ∧ ∃ u, Continues s k u ∧ step u = .next t ∧ t.atEnd

/-- A BAD END of a run (70_reset_and_hazards.md R226): it starts at `s` with `rip = codeStart` (R221), `k` steps complete, and the
next one, from `u`, faults or is refused; the run is over at `u`, the state before that step.
DESIGN CHOICE (log 24): a run that goes on for ever (no step faults or is refused, none leaves `rip = endAddr`; R26's wrap
allows it where memory is filled with instructions) is neither a good nor a bad end here; R226 says that no such run is. -/
def EndsBadly (s : State) (k : Nat) (u : State) : Prop :=
  s.Launch ∧ Continues s k u ∧ ∀ t, step u ≠ .next t

/-- `RunsThrough s is t`: the steps from `s` fetch and complete exactly the instructions `is`, in that order, and end in
`t`. -/
def RunsThrough : State → List Instr → State → Prop
  | s, [], t => t = s
  | s, i :: is, t => ∃ s', fetchInstr s = .instr i ∧ step s = .next s' ∧ RunsThrough s' is t

/-- The bytes `bs` stand in memory from `codeStart` on and reach to `endAddr`, without wrapping: "the program occupies the
bytes from `codeStart` up to and excluding `endAddr`" (00_scope.md R9; 70_reset_and_hazards.md R222, the row on fetch). -/
structure State.HoldsProgram (s : State) (bs : List Byte) : Prop where
  size  : s.codeStart.toNat + bs.length = s.endAddr.toNat
  width : s.endAddr.toNat < 2 ^ addrBits s.mode
  bytes : ∀ k (h : k < bs.length), s.mem.read (s.linear .cs (s.codeStart + BitVec.ofNat 64 k)).toNat = bs[k]

/-- The invariant of the model's data: memory in its canonical form (the model's own choice of form, log 6), and outside
64-bit mode a `rip` of 32 bits (10_state.md R25) in its 64-bit field (the model's own choice of field, log 8). -/
structure State.Inv (s : State) : Prop where
  mem : s.mem.wf = true
  rip : s.mode ≠ .mode64 → s.rip.toNat < 2 ^ 32

/-! ## Comparing outcomes -/

/-- An outcome with its next state changed by `g`; faults and refusals as they are. -/
def onNext (g : State → State) : Host.Outcome State Fault Refusal → Host.Outcome State Fault Refusal
  | .next s => .next (g s)
  | .fault r => .fault r
  | .refused r => .refused r

/-- Two states that agree on all that is state in `Mode32` (10_state.md R22, R23): they may differ in bits 63:32 of a
general register, in registers 8 to 15 and in the number of the next free value. -/
structure SameIn32 (s t : State) : Prop where
  regs  : ∀ q : GprNum, q.toNat < 8 → t.gprVal q = s.gprVal q
  mem   : t.mem = s.mem
  rip   : t.rip = s.rip
  rest  : Untouched s t

/-- The same outcome, up to what is no state in `Mode32`. -/
def SameOutcomeIn32 : Host.Outcome State Fault Refusal → Host.Outcome State Fault Refusal → Prop
  | .next s, .next t => SameIn32 s t
  | .fault a, .fault b => a = b
  | .refused a, .refused b => a = b
  | _, _ => False

end Sys2Proof.Machine
end

