-- ==== Sys2Proof/Certificates/Slice0/Obligations.lean ====
section
/-! DEFINITION. The statements for the provers. Each docstring names the rule of spec/ it formalises, or the log entry
where the statement is about the model's own choice. -/

open Sys2Proof Sys2Proof.Machine

/-! ## Decoding and encoding -/

/-- DECODE AND ENCODE AGREE, for every instruction of every class, in both modes, with every operand an encoding admits
and whatever bytes follow (30_encoding.md R80 to R115, R121). -/
def Obligations.DecodeOfEncode : Prop :=
  ∀ (m : Mode) (i : Instr) (rest : List Byte), i.wf m = true → decode m (encode i ++ rest) = .ok (i, rest)

/-- Every instruction the decoder answers is one that the mode can encode: no register outside the class's reach, no
qword form and no REX byte outside `Mode64` (10_state.md R30, 30_encoding.md R90, R99, R105, R115). -/
def Obligations.DecodedIsWellFormed : Prop :=
  ∀ (m : Mode) (bs rest : List Byte) (i : Instr), decode m bs = .ok (i, rest) → i.wf m = true

/-- The decoder consumes exactly the instruction's length, which is between 6 and 14 bytes (30_encoding.md R114). -/
def Obligations.DecodeConsumesItsLength : Prop :=
  ∀ (m : Mode) (bs rest : List Byte) (i : Instr), decode m bs = .ok (i, rest) →
    bs.length = i.len + rest.length ∧ 6 ≤ i.len ∧ i.len ≤ 14

/-- What the decoder answers from some bytes does not change when more bytes follow them (20_memory.md R70: it reads as
many as it needs). -/
def Obligations.DecodeReadsOnlyWhatItNeeds : Prop :=
  ∀ (m : Mode) (bs later : List Byte),
    (∀ i rest, decode m bs = .ok (i, rest) → decode m (bs ++ later) = .ok (i, rest ++ later)) ∧
    (∀ e, e ≠ Stop.more → decode m bs = .error e → decode m (bs ++ later) = .error e)

/-- The decoder never asks for a fifteenth byte, so #GP(0) for a too long instruction cannot arise (60_exceptions.md R193,
30_encoding.md R114). -/
def Obligations.DecodeNeedsAtMostFourteenBytes : Prop :=
  ∀ (m : Mode) (bs : List Byte), 14 ≤ bs.length → decode m bs ≠ .error .more

/-- The worked examples of 41_pextr_legacy.md R150 to R152, 42_vpextr_vex.md R160 to R162 and 43_vpextr_evex.md R170
to R172 decode to the instructions they stand for. -/
def Obligations.WorkedExamplesDecode : Prop :=
  decode .mode64 [0x66, 0x0F, 0x3A, 0x14, 0xC8, 0x05] = .ok (.pextrb false ⟨none, false, 1, .reg 0, 5⟩, []) ∧
  decode .mode64 [0x66, 0x0F, 0x3A, 0x16, 0xC8, 0x02] = .ok (.pextrd false ⟨none, false, 1, .reg 0, 2⟩, []) ∧
  decode .mode64 [0x66, 0x48, 0x0F, 0x3A, 0x16, 0xC8, 0x01] = .ok (.pextrq true ⟨none, false, 1, .reg 0, 1⟩, []) ∧
  decode .mode64 [0xC4, 0xE3, 0x79, 0x14, 0xC8, 0x05] = .ok (.vpextrbVex ⟨none, false, 1, .reg 0, 5⟩, []) ∧
  decode .mode64 [0xC4, 0xE3, 0x79, 0x16, 0xC8, 0x02] = .ok (.vpextrdVex ⟨none, false, 1, .reg 0, 2⟩, []) ∧
  decode .mode64 [0xC4, 0xE3, 0xF9, 0x16, 0xC8, 0x01] = .ok (.vpextrqVex ⟨none, false, 1, .reg 0, 1⟩, []) ∧
  decode .mode64 [0x62, 0xE3, 0x7D, 0x08, 0x14, 0xC8, 0x05] = .ok (.vpextrbEvex ⟨none, false, 17, .reg 0, 5⟩, []) ∧
  decode .mode64 [0x62, 0xF3, 0x7D, 0x08, 0x16, 0xC8, 0x02] = .ok (.vpextrdEvex ⟨none, false, 1, .reg 0, 2⟩, []) ∧
  decode .mode64 [0x62, 0xF3, 0xFD, 0x08, 0x16, 0xC8, 0x01] = .ok (.vpextrqEvex ⟨none, false, 1, .reg 0, 1⟩, [])

/-- The W bit is ignored where 30_encoding.md R115 and R117 say so: for the byte forms of every class in either mode, and
for the VEX and EVEX forms of opcode 16H in `Mode32`, a byte sequence that decodes gives the same instruction with the W
bit inverted. `pre` are legacy prefix bytes. -/
def Obligations.IgnoredWChangesNothing : Prop :=
  (∀ (pre bs rest : List Byte) (rex : Byte) (i : Instr), (∀ b ∈ pre, (pfxByte? b).isSome = true) →
    rex.extractLsb' 4 4 = 4#4 → decode .mode64 (pre ++ rex :: 0x0F :: 0x3A :: 0x14 :: bs) = .ok (i, rest) →
    decode .mode64 (pre ++ (rex ^^^ 0x08) :: 0x0F :: 0x3A :: 0x14 :: bs) = .ok (i, rest)) ∧
  (∀ (m : Mode) (pre bs rest : List Byte) (v1 v2 op : Byte) (i : Instr), (∀ b ∈ pre, (pfxByte? b).isSome = true) →
    (op = 0x14 ∨ m = .mode32) → decode m (pre ++ 0xC4 :: v1 :: v2 :: op :: bs) = .ok (i, rest) →
    decode m (pre ++ 0xC4 :: v1 :: (v2 ^^^ 0x80) :: op :: bs) = .ok (i, rest)) ∧
  (∀ (m : Mode) (pre bs rest : List Byte) (p0 p1 p2 op : Byte) (i : Instr), (∀ b ∈ pre, (pfxByte? b).isSome = true) →
    (op = 0x14 ∨ m = .mode32) → decode m (pre ++ 0x62 :: p0 :: p1 :: p2 :: op :: bs) = .ok (i, rest) →
    decode m (pre ++ 0x62 :: p0 :: (p1 ^^^ 0x80) :: p2 :: op :: bs) = .ok (i, rest))

/-- 60_exceptions.md R181 and R183: a VEX form (map 0F3A, pp = 01b, opcode 14H or 16H, recognised and not refused in the
mode) with VEX.L = 1 or VEX.vvvv not 1111b raises #UD, in either mode. -/
def Obligations.VexReservedFieldsInvalid : Prop :=
  ∀ (m : Mode) (seg : Option Seg) (a67 : Bool) (v1 v2 op : Byte) (bs : List Byte), m.admitted = true →
    v1.extractLsb' 0 5 = 3#5 → v2.extractLsb' 0 2 = 1#2 → (op = 0x14 ∨ op = 0x16) →
    (m = .mode32 → v1.extractLsb' 5 3 = 7#3) →
    (v2.getLsbD 2 = true ∨ v2.extractLsb' 3 4 ≠ 15#4) →
    decode m ((seg.map segByte).toList ++ (if a67 then [(0x67 : Byte)] else []) ++ 0xC4 :: v1 :: v2 :: op :: bs) = .error .ud

/-- 60_exceptions.md R182 and R184: an EVEX form (map 0F3A, pp = 01b, opcode 14H or 16H, recognised and not refused in the
mode) with EVEX.L'L not 00b or EVEX.vvvv not 1111b raises #UD. -/
def Obligations.EvexReservedFieldsInvalid : Prop :=
  ∀ (m : Mode) (seg : Option Seg) (a67 : Bool) (p0 p1 p2 op modrm : Byte) (bs : List Byte), m.admitted = true →
    p0.extractLsb' 0 4 = 3#4 → p1.extractLsb' 0 3 = 5#3 → (op = 0x14 ∨ op = 0x16) →
    p2.getLsbD 7 = false → p2.extractLsb' 0 5 = 8#5 →
    (m = .mode32 → p0.extractLsb' 4 4 = 15#4) →
    (m = .mode64 → p0.getLsbD 6 = true ∨ modrm.extractLsb' 6 2 ≠ 3#2) →
    (p2.extractLsb' 5 2 ≠ 0#2 ∨ p1.extractLsb' 3 4 ≠ 15#4) →
    decode m ((seg.map segByte).toList ++ (if a67 then [(0x67 : Byte)] else []) ++
      0x62 :: p0 :: p1 :: p2 :: op :: modrm :: bs) = .error .ud

/-- 30_encoding.md R85: a LOCK prefix among the prefixes of any byte sequence that is one of the nine forms raises #UD. -/
def Obligations.LockIsInvalid : Prop :=
  ∀ (m : Mode) (pre suf rest : List Byte) (i : Instr), decode m (pre ++ suf) = .ok (i, rest) →
    (∀ b ∈ pre, (pfxByte? b).isSome = true) → decode m (pre ++ 0xF0 :: suf) = .error .ud

/-- 30_encoding.md R95 and R101: 66H, F2H, F3H or LOCK among the prefixes of a byte sequence that is a VEX or EVEX form, and a
REX byte (`Mode64`) after them, raise #UD. -/
def Obligations.PrefixBeforeVexOrEvexInvalid : Prop :=
  ∀ (m : Mode) (pre suf rest : List Byte) (b c : Byte) (i : Instr), decode m (pre ++ b :: suf) = .ok (i, rest) →
    (∀ x ∈ pre, (pfxByte? x).isSome = true) → (b = 0xC4 ∨ b = 0x62) →
    ((c = 0x66 ∨ c = 0xF2 ∨ c = 0xF3 ∨ c = 0xF0) ∨ (m = .mode64 ∧ c.extractLsb' 4 4 = 4#4)) →
    decode m (pre ++ c :: b :: suf) = .error .ud

/-- 30_encoding.md R89: a prefix byte value that occurs twice, or two different segment overrides, are refused with
`dup_prefix`, whatever follows. -/
def Obligations.RepeatedPrefixRefused : Prop :=
  ∀ (m : Mode) (l suf : List Byte), m.admitted = true → (∀ b ∈ l, (pfxByte? b).isSome = true) →
    (¬ l.Nodup ∨ ∃ s₁ s₂ : Seg, s₁ ≠ s₂ ∧ segByte s₁ ∈ l ∧ segByte s₂ ∈ l) →
    decode m (l ++ suf) = .error (.refuse .dupPrefix)

/-- 30_encoding.md R86: F2H or F3H among the prefixes of a byte sequence that is a legacy form is refused with
`rep_prefix`. -/
def Obligations.RepBeforeLegacyRefused : Prop :=
  ∀ (m : Mode) (pre suf rest : List Byte) (c : Byte) (rex : Bool) (f : Form),
    (∀ b ∈ pre, (pfxByte? b).isSome = true) → (c = 0xF2 ∨ c = 0xF3) →
    (decode m (pre ++ suf) = .ok (.pextrb rex f, rest) ∨ decode m (pre ++ suf) = .ok (.pextrd rex f, rest) ∨
      decode m (pre ++ suf) = .ok (.pextrq rex f, rest)) →
    decode m (pre ++ c :: suf) = .error (.refuse .repPrefix)

/-- 30_encoding.md R91: in `Mode64` a byte 40H to 4FH that is followed by a legacy prefix byte or by another byte 40H to
4FH is refused with `rex_not_last`. -/
def Obligations.RexNotLastRefused : Prop :=
  ∀ (seg : Option Seg) (a67 o66 : Bool) (c d : Byte) (suf : List Byte), c.extractLsb' 4 4 = 4#4 →
    ((pfxByte? d).isSome = true ∨ d.extractLsb' 4 4 = 4#4) →
    decode .mode64 ((seg.map segByte).toList ++ (if a67 then [(0x67 : Byte)] else []) ++
      (if o66 then [(0x66 : Byte)] else []) ++ c :: d :: suf) = .error (.refuse .rexNotLast)

/-- 30_encoding.md R104: an EVEX prefix of one of the forms with P0[3:2] not 00b or P1[2] not 1 is refused with
`evex_reserved`; with those right, one with aaa not 000b, z = 1, b = 1 or V̄' = 0 is refused with `evex_unused_field`. -/
def Obligations.EvexReservedAndUnusedFieldsRefused : Prop :=
  ∀ (m : Mode) (seg : Option Seg) (a67 : Bool) (p0 p1 p2 op : Byte) (bs : List Byte), m.admitted = true →
    (m = .mode32 → p0.extractLsb' 6 2 = 3#2) →
    p0.extractLsb' 0 2 = 3#2 → p1.extractLsb' 0 2 = 1#2 → (op = 0x14 ∨ op = 0x16) →
    ((p0.extractLsb' 2 2 ≠ 0#2 ∨ p1.getLsbD 2 = false) →
      decode m ((seg.map segByte).toList ++ (if a67 then [(0x67 : Byte)] else []) ++
        0x62 :: p0 :: p1 :: p2 :: op :: bs) = .error (.refuse .evexReserved)) ∧
    (p0.extractLsb' 2 2 = 0#2 → p1.getLsbD 2 = true →
      (p2.extractLsb' 0 3 ≠ 0#3 ∨ p2.getLsbD 7 = true ∨ p2.getLsbD 4 = true ∨ p2.getLsbD 3 = false) →
      decode m ((seg.map segByte).toList ++ (if a67 then [(0x67 : Byte)] else []) ++
        0x62 :: p0 :: p1 :: p2 :: op :: bs) = .error (.refuse .evexUnusedField))

/-- 30_encoding.md R88, R99 and R105, behind any accepted prefixes.
`mode32_ext_bit`: in `Mode32`, a VEX prefix of one of the forms with B̄ = 0, an EVEX prefix of one of the forms (no reserved or
unused field used) with B̄ = 0 or R̄' = 0.
`evex_x_reg`: in `Mode64`, such an EVEX prefix with X̄ = 0 before a ModRM byte with mod = 11b.
`addr16`: in `Mode32`, 67H among the prefixes of a form of each class, with a memory destination (mod not 11b), in whatever
order the prefixes stand; with a register destination 67H has no effect (R88): inserting it anywhere among the prefixes
gives the same instruction, but for the record that it is there. -/
def Obligations.ExtensionBitsAndAddr16Refused : Prop :=
  (∀ (pre bs : List Byte) (v1 v2 op : Byte), AcceptedPrefixes pre → (op = 0x14 ∨ op = 0x16) →
    v1.extractLsb' 6 2 = 3#2 → v1.getLsbD 5 = false → v1.extractLsb' 0 5 = 3#5 → v2.extractLsb' 0 2 = 1#2 →
    decode .mode32 (pre ++ 0xC4 :: v1 :: v2 :: op :: bs) = .error (.refuse .mode32ExtBit)) ∧
  (∀ (m : Mode) (pre bs : List Byte) (p0 p1 p2 op modrm : Byte), AcceptedPrefixes pre → (op = 0x14 ∨ op = 0x16) →
    p0.extractLsb' 0 4 = 3#4 → p1.extractLsb' 0 3 = 5#3 → p2.getLsbD 7 = false → p2.extractLsb' 0 5 = 8#5 →
    (m = .mode32 → p0.extractLsb' 6 2 = 3#2 → (p0.getLsbD 5 = false ∨ p0.getLsbD 4 = false) →
      decode m (pre ++ 0x62 :: p0 :: p1 :: p2 :: op :: bs) = .error (.refuse .mode32ExtBit)) ∧
    (m = .mode64 → p0.getLsbD 6 = false → modrm.extractLsb' 6 2 = 3#2 →
      decode m (pre ++ 0x62 :: p0 :: p1 :: p2 :: op :: modrm :: bs) = .error (.refuse .evexXReg))) ∧
  (∀ (pre bs : List Byte) (v2 p1 op modrm : Byte), AcceptedPrefixes pre → (op = 0x14 ∨ op = 0x16) →
    0x67 ∈ pre → 0xF0 ∉ pre → 0xF2 ∉ pre → 0xF3 ∉ pre → modrm.extractLsb' 6 2 ≠ 3#2 →
    (0x66 ∈ pre → decode .mode32 (pre ++ 0x0F :: 0x3A :: op :: modrm :: bs) = .error (.refuse .addr16)) ∧
    (0x66 ∉ pre → v2.extractLsb' 0 7 = 0x79#7 →
      decode .mode32 (pre ++ 0xC4 :: 0xE3 :: v2 :: op :: modrm :: bs) = .error (.refuse .addr16)) ∧
    (0x66 ∉ pre → p1.extractLsb' 0 7 = 0x7D#7 →
      decode .mode32 (pre ++ 0x62 :: 0xF3 :: p1 :: 0x08 :: op :: modrm :: bs) = .error (.refuse .addr16))) ∧
  (∀ (pre suf rest : List Byte) (i : Instr) (r : GprNum), (∀ b ∈ pre, (pfxByte? b).isSome = true) →
    decode .mode32 (pre ++ suf) = .ok (i, rest) → i.form.dest = .reg r → i.form.a67 = false →
    decode .mode32 (pre ++ 0x67 :: suf) = .ok (i.mapForm (fun f => { f with a67 := true }), rest))

/-- NOT ONE OF THE NINE FORMS: refused with `not_in_scope`, in either mode, behind any accepted prefixes and, in `Mode64`, a
REX byte or none. The cases are the rules', in the order of the clauses: a byte at the opcode position that opens no class
(30_encoding.md R82; C5H, R94; 40H to 4FH in `Mode32`, R90); 0FH not followed by 3AH; 0F 3A with another opcode (R93);
0F 3A 14 or 0F 3A 16 without 66H (R84); C4H and 62H in `Mode32` with the next byte's top bits not 11b (R82); a VEX prefix with
another map, pp or opcode (R98); an EVEX prefix with another map, pp or opcode (R106). -/
def Obligations.NotOneOfTheFormsRefused : Prop :=
  ∀ (m : Mode) (pre bs : List Byte) (rex : Option Byte), m.admitted = true → AcceptedPrefixes pre →
    (∀ c, rex = some c → m = .mode64 ∧ c.extractLsb' 4 4 = 4#4) →
    (∀ b : Byte, b ≠ 0x0F → b ≠ 0xC4 → b ≠ 0x62 → pfxByte? b = none → (m = .mode64 → b.extractLsb' 4 4 ≠ 4#4) →
      decode m (pre ++ rex.toList ++ b :: bs) = .error (.refuse .notInScope)) ∧
    (∀ e : Byte, e ≠ 0x3A → decode m (pre ++ rex.toList ++ 0x0F :: e :: bs) = .error (.refuse .notInScope)) ∧
    (∀ op : Byte, op ≠ 0x14 → op ≠ 0x16 →
      decode m (pre ++ rex.toList ++ 0x0F :: 0x3A :: op :: bs) = .error (.refuse .notInScope)) ∧
    (∀ op : Byte, (op = 0x14 ∨ op = 0x16) → 0x66 ∉ pre →
      decode m (pre ++ rex.toList ++ 0x0F :: 0x3A :: op :: bs) = .error (.refuse .notInScope)) ∧
    (∀ c v : Byte, (c = 0xC4 ∨ c = 0x62) → m = .mode32 → v.extractLsb' 6 2 ≠ 3#2 →
      decode m (pre ++ rex.toList ++ c :: v :: bs) = .error (.refuse .notInScope)) ∧
    (∀ v1 v2 op : Byte, (v1.extractLsb' 0 5 ≠ 3#5 ∨ v2.extractLsb' 0 2 ≠ 1#2 ∨ (op ≠ 0x14 ∧ op ≠ 0x16)) →
      decode m (pre ++ rex.toList ++ 0xC4 :: v1 :: v2 :: op :: bs) = .error (.refuse .notInScope)) ∧
    (∀ p0 p1 p2 op : Byte, (p0.extractLsb' 0 2 ≠ 3#2 ∨ p1.extractLsb' 0 2 ≠ 1#2 ∨ (op ≠ 0x14 ∧ op ≠ 0x16)) →
      decode m (pre ++ rex.toList ++ 0x62 :: p0 :: p1 :: p2 :: op :: bs) = .error (.refuse .notInScope))

/-! ## The extract function -/

/-- 40_extract_common.md R130: the index is the low 4, 2 or 1 bits of the immediate, and the result is the element of the
source at that index, zero-extended. -/
def Obligations.ExtractIsTheIndexedElement : Prop :=
  ∀ (x : Xmm) (imm : Byte),
    (extract .byte x imm).toNat = element 8 (imm.toNat % 16) x ∧
    (extract .dword x imm).toNat = element 32 (imm.toNat % 4) x ∧
    (extract .qword x imm).toNat = element 64 (imm.toNat % 2) x

/-- The properties of 95_test_vectors.md section 10 that relate the widths: a dword is half of a qword, a byte a quarter of a
dword, and the two qwords make the source. -/
def Obligations.ExtractWidthsFitTogether : Prop :=
  ∀ (x : Xmm),
    (∀ k, k < 4 → extract .dword x (BitVec.ofNat 8 k) =
      ((extract .qword x (BitVec.ofNat 8 (k / 2))).extractLsb' (32 * (k % 2)) 32).setWidth 64) ∧
    (∀ k, k < 16 → extract .byte x (BitVec.ofNat 8 k) =
      ((extract .dword x (BitVec.ofNat 8 (k / 4))).extractLsb' (8 * (k % 4)) 8).setWidth 64) ∧
    extract .qword x 1 ++ extract .qword x 0 = x

/-! ## Each form with a register destination -/

/-- PEXTRB, PEXTRD and PEXTRQ with a register destination COMPLETE when the class is enabled (60_exceptions.md R187, R189),
and write the zero-extended element to the register (41_pextr_legacy.md R150 to R152, 40_extract_common.md R134, R139). -/
def Obligations.LegacyRegisterForms : Prop :=
  ∀ (rex : Bool) (f : Form) (s : State) (r : GprNum), f.dest = .reg r → s.cfg.cpuid.sse41 = true →
    s.cfg.cr0Em = false → s.cfg.cr4Osfxsr = true → s.cfg.cr0Ts = false →
    ((Instr.pextrb rex f).wf s.mode = true → ∃ t, exec (.pextrb rex f) s = .next t ∧
      RegisterWritten s t r (element 8 (f.imm8.toNat % 16) (s.xmmReg f.src)) (Instr.pextrb rex f).len) ∧
    ((Instr.pextrd rex f).wf s.mode = true → ∃ t, exec (.pextrd rex f) s = .next t ∧
      RegisterWritten s t r (element 32 (f.imm8.toNat % 4) (s.xmmReg f.src)) (Instr.pextrd rex f).len) ∧
    ((Instr.pextrq rex f).wf s.mode = true → ∃ t, exec (.pextrq rex f) s = .next t ∧
      RegisterWritten s t r (element 64 (f.imm8.toNat % 2) (s.xmmReg f.src)) (Instr.pextrq rex f).len)

/-- The VEX forms VPEXTRB, VPEXTRD and VPEXTRQ with a register destination COMPLETE when the class is enabled
(60_exceptions.md R188, R189), and write the zero-extended element (42_vpextr_vex.md R160 to R162,
40_extract_common.md R134, R139). -/
def Obligations.VexRegisterForms : Prop :=
  ∀ (f : Form) (s : State) (r : GprNum), f.dest = .reg r → s.cfg.cpuid.avx = true → s.cfg.cr4Osxsave = true →
    s.cfg.xcr0.extractLsb' 1 2 = 3#2 → s.cfg.cr0Ts = false →
    ((Instr.vpextrbVex f).wf s.mode = true → ∃ t, exec (.vpextrbVex f) s = .next t ∧
      RegisterWritten s t r (element 8 (f.imm8.toNat % 16) (s.xmmReg f.src)) (Instr.vpextrbVex f).len) ∧
    ((Instr.vpextrdVex f).wf s.mode = true → ∃ t, exec (.vpextrdVex f) s = .next t ∧
      RegisterWritten s t r (element 32 (f.imm8.toNat % 4) (s.xmmReg f.src)) (Instr.vpextrdVex f).len) ∧
    ((Instr.vpextrqVex f).wf s.mode = true → ∃ t, exec (.vpextrqVex f) s = .next t ∧
      RegisterWritten s t r (element 64 (f.imm8.toNat % 2) (s.xmmReg f.src)) (Instr.vpextrqVex f).len)

/-- The EVEX forms VPEXTRB (AVX512BW), VPEXTRD and VPEXTRQ (AVX512DQ) with a register destination COMPLETE when the class
is enabled (60_exceptions.md R190, R189), and write the zero-extended element (43_vpextr_evex.md R170 to R172,
40_extract_common.md R134, R139). -/
def Obligations.EvexRegisterForms : Prop :=
  ∀ (f : Form) (s : State) (r : GprNum), f.dest = .reg r → s.cfg.cpuid.avx512f = true → s.cfg.cr4Osxsave = true →
    s.cfg.xcr0.extractLsb' 1 2 = 3#2 → s.cfg.xcr0.extractLsb' 5 3 = 7#3 → s.cfg.cr0Ts = false →
    (s.cfg.cpuid.avx512bw = true → (Instr.vpextrbEvex f).wf s.mode = true → ∃ t, exec (.vpextrbEvex f) s = .next t ∧
      RegisterWritten s t r (element 8 (f.imm8.toNat % 16) (s.xmmReg f.src)) (Instr.vpextrbEvex f).len) ∧
    (s.cfg.cpuid.avx512dq = true → (Instr.vpextrdEvex f).wf s.mode = true → ∃ t, exec (.vpextrdEvex f) s = .next t ∧
      RegisterWritten s t r (element 32 (f.imm8.toNat % 4) (s.xmmReg f.src)) (Instr.vpextrdEvex f).len) ∧
    (s.cfg.cpuid.avx512dq = true → (Instr.vpextrqEvex f).wf s.mode = true → ∃ t, exec (.vpextrqEvex f) s = .next t ∧
      RegisterWritten s t r (element 64 (f.imm8.toNat % 2) (s.xmmReg f.src)) (Instr.vpextrqEvex f).len)

/-! ## Each form with a memory destination -/

/-- PEXTRB, PEXTRD and PEXTRQ with a memory destination COMPLETE when the class is enabled and the store is let through,
and store 1, 4 or 8 bytes of the element at the linear address of the operand, a one-byte displacement unscaled
(41_pextr_legacy.md R150 to R152, 40_extract_common.md R135, R139). -/
def Obligations.LegacyMemoryForms : Prop :=
  ∀ (rex : Bool) (f : Form) (s : State) (a : Addr), f.dest = .mem a → s.mem.wf = true → s.cfg.cpuid.sse41 = true →
    s.cfg.cr0Em = false → s.cfg.cr4Osfxsr = true → s.cfg.cr0Ts = false →
    ((Instr.pextrb rex f).wf s.mode = true → s.Lets (.pextrb rex f) a →
      ∃ t, exec (.pextrb rex f) s = .next t ∧
      MemoryWritten s t (s.linear (segmentOf s.mode f.seg a) (s.effectiveAddr f.a67 1 (Instr.pextrb rex f).len a)).toNat 1
        (element 8 (f.imm8.toNat % 16) (s.xmmReg f.src)) (Instr.pextrb rex f).len) ∧
    ((Instr.pextrd rex f).wf s.mode = true → s.Lets (.pextrd rex f) a →
      ∃ t, exec (.pextrd rex f) s = .next t ∧
      MemoryWritten s t (s.linear (segmentOf s.mode f.seg a) (s.effectiveAddr f.a67 1 (Instr.pextrd rex f).len a)).toNat 4
        (element 32 (f.imm8.toNat % 4) (s.xmmReg f.src)) (Instr.pextrd rex f).len) ∧
    ((Instr.pextrq rex f).wf s.mode = true → s.Lets (.pextrq rex f) a →
      ∃ t, exec (.pextrq rex f) s = .next t ∧
      MemoryWritten s t (s.linear (segmentOf s.mode f.seg a) (s.effectiveAddr f.a67 1 (Instr.pextrq rex f).len a)).toNat 8
        (element 64 (f.imm8.toNat % 2) (s.xmmReg f.src)) (Instr.pextrq rex f).len)

/-- The VEX forms with a memory destination COMPLETE when the class is enabled and the store is let through, and store 1,
4 or 8 bytes of the element, a one-byte displacement unscaled (42_vpextr_vex.md R160 to R162,
40_extract_common.md R135, R139). -/
def Obligations.VexMemoryForms : Prop :=
  ∀ (f : Form) (s : State) (a : Addr), f.dest = .mem a → s.mem.wf = true → s.cfg.cpuid.avx = true →
    s.cfg.cr4Osxsave = true → s.cfg.xcr0.extractLsb' 1 2 = 3#2 → s.cfg.cr0Ts = false →
    ((Instr.vpextrbVex f).wf s.mode = true → s.Lets (.vpextrbVex f) a →
      ∃ t, exec (.vpextrbVex f) s = .next t ∧
      MemoryWritten s t (s.linear (segmentOf s.mode f.seg a) (s.effectiveAddr f.a67 1 (Instr.vpextrbVex f).len a)).toNat 1
        (element 8 (f.imm8.toNat % 16) (s.xmmReg f.src)) (Instr.vpextrbVex f).len) ∧
    ((Instr.vpextrdVex f).wf s.mode = true → s.Lets (.vpextrdVex f) a →
      ∃ t, exec (.vpextrdVex f) s = .next t ∧
      MemoryWritten s t (s.linear (segmentOf s.mode f.seg a) (s.effectiveAddr f.a67 1 (Instr.vpextrdVex f).len a)).toNat 4
        (element 32 (f.imm8.toNat % 4) (s.xmmReg f.src)) (Instr.vpextrdVex f).len) ∧
    ((Instr.vpextrqVex f).wf s.mode = true → s.Lets (.vpextrqVex f) a →
      ∃ t, exec (.vpextrqVex f) s = .next t ∧
      MemoryWritten s t (s.linear (segmentOf s.mode f.seg a) (s.effectiveAddr f.a67 1 (Instr.vpextrqVex f).len a)).toNat 8
        (element 64 (f.imm8.toNat % 2) (s.xmmReg f.src)) (Instr.vpextrqVex f).len)

/-- The EVEX forms with a memory destination COMPLETE when the class is enabled and the store is let through, and store 1,
4 or 8 bytes of the element, a one-byte displacement multiplied by 1, 4 or 8 (43_vpextr_evex.md R170 to R172,
30_encoding.md R110, 40_extract_common.md R135, R139). -/
def Obligations.EvexMemoryForms : Prop :=
  ∀ (f : Form) (s : State) (a : Addr), f.dest = .mem a → s.mem.wf = true → s.cfg.cpuid.avx512f = true →
    s.cfg.cr4Osxsave = true → s.cfg.xcr0.extractLsb' 1 2 = 3#2 → s.cfg.xcr0.extractLsb' 5 3 = 7#3 →
    s.cfg.cr0Ts = false →
    (s.cfg.cpuid.avx512bw = true → (Instr.vpextrbEvex f).wf s.mode = true → s.Lets (.vpextrbEvex f) a →
      ∃ t, exec (.vpextrbEvex f) s = .next t ∧
      MemoryWritten s t (s.linear (segmentOf s.mode f.seg a) (s.effectiveAddr f.a67 1 (Instr.vpextrbEvex f).len a)).toNat 1
        (element 8 (f.imm8.toNat % 16) (s.xmmReg f.src)) (Instr.vpextrbEvex f).len) ∧
    (s.cfg.cpuid.avx512dq = true → (Instr.vpextrdEvex f).wf s.mode = true → s.Lets (.vpextrdEvex f) a →
      ∃ t, exec (.vpextrdEvex f) s = .next t ∧
      MemoryWritten s t (s.linear (segmentOf s.mode f.seg a) (s.effectiveAddr f.a67 4 (Instr.vpextrdEvex f).len a)).toNat 4
        (element 32 (f.imm8.toNat % 4) (s.xmmReg f.src)) (Instr.vpextrdEvex f).len) ∧
    (s.cfg.cpuid.avx512dq = true → (Instr.vpextrqEvex f).wf s.mode = true → s.Lets (.vpextrqEvex f) a →
      ∃ t, exec (.vpextrqEvex f) s = .next t ∧
      MemoryWritten s t (s.linear (segmentOf s.mode f.seg a) (s.effectiveAddr f.a67 8 (Instr.vpextrqEvex f).len a)).toNat 8
        (element 64 (f.imm8.toNat % 2) (s.xmmReg f.src)) (Instr.vpextrqEvex f).len)

/-! ## Addresses -/

/-- The effective address, as integer arithmetic (30_encoding.md R110, R112): base plus index times 2^scale plus the
sign-extended displacement, a one-byte displacement times `n`, modulo 2^64, or modulo 2^32 in `Mode32` and with prefix
67H. -/
def Obligations.EffectiveAddressArithmetic : Prop :=
  ∀ (s : State) (a67 : Bool) (n len : Nat) (b : GprNum) (ix : Option GprNum) (sc : BitVec 2) (d : Disp) (d32 : Word32),
    s.mode.admitted = true →
    let W : Nat := if s.mode = .mode64 ∧ a67 = false then 64 else 32
    let disp : Int := match d with
      | .none => 0
      | .d8 x => x.toInt * n
      | .d32 x => x.toInt
    let bv : Int := (s.gprRead b).toNat
    let iv : Int := match ix with
      | none => 0
      | some x => (s.gprRead x).toNat
    ((s.effectiveAddr a67 n len (.base b d)).toNat : Int) = (bv + disp) % 2 ^ W ∧
    ((s.effectiveAddr a67 n len (.sib b ix sc d)).toNat : Int) = (bv + iv * 2 ^ sc.toNat + disp) % 2 ^ W ∧
    ((s.effectiveAddr a67 n len (.sibNoBase ix sc d32)).toNat : Int) = (iv * 2 ^ sc.toNat + d32.toInt) % 2 ^ W

/-- 30_encoding.md R111: in `Mode64` the form `mod = 00b`, `rm = 101b` addresses from the next instruction, modulo 2^64 or,
with prefix 67H (R112), modulo 2^32; in `Mode32` it is the displacement alone (R108). -/
def Obligations.RipRelativeAddress : Prop :=
  ∀ (s : State) (a67 : Bool) (n len : Nat) (d : Word32),
    (s.mode = .mode64 → ((s.effectiveAddr a67 n len (.disp32 d)).toNat : Int) =
      ((s.rip.toNat : Int) + len + d.toInt) % 2 ^ (if a67 then 32 else 64)) ∧
    (s.mode = .mode32 → s.effectiveAddr a67 n len (.disp32 d) = d.setWidth 64)

/-- 20_memory.md R56: the linear address is base plus effective address modulo 2^W; in `Mode64` the base is 0 for ES, CS,
SS and DS. -/
def Obligations.LinearAddressIsBasePlusOffset : Prop :=
  ∀ (s : State) (ea : Word64), s.mode.admitted = true →
    (∀ seg, (s.linear seg ea).toNat = ((s.segBase seg).toNat + ea.toNat) % 2 ^ addrBits s.mode) ∧
    (s.mode = .mode64 → s.segBase .es = 0 ∧ s.segBase .cs = 0 ∧ s.segBase .ss = 0 ∧ s.segBase .ds = 0) ∧
    (s.mode = .mode32 → s.segBase .es = s.segbase.es ∧ s.segBase .cs = s.segbase.cs ∧ s.segBase .ss = s.segbase.ss ∧
      s.segBase .ds = s.segbase.ds) ∧
    s.segBase .fs = s.segbase.fs ∧ s.segBase .gs = s.segbase.gs

/-- 20_memory.md R57: the default segment is SS exactly when there is a base register and it is number 4 or 5, else DS; an
override replaces it, but for ES, CS, SS and DS in `Mode64`. -/
def Obligations.SegmentOfAnOperand : Prop :=
  ∀ (a : Addr) (o : Seg),
    (∀ m, segmentOf m none a = .ss ↔
      (∃ b d, a = .base b d ∧ (b = 4 ∨ b = 5)) ∨ (∃ b ix sc d, a = .sib b ix sc d ∧ (b = 4 ∨ b = 5))) ∧
    (∀ m, segmentOf m none a ≠ .ss → segmentOf m none a = .ds) ∧
    segmentOf .mode32 (some o) a = o ∧
    segmentOf .mode64 (some o) a = (if o = .fs ∨ o = .gs then o else segmentOf .mode64 none a)

/-! ## Memory -/

/-- 20_memory.md R52: after `MemWrite(addr, n, v)` the byte at `(addr + k) mod 2^W` is byte `k` of `v` and no other byte has
changed; and `MemRead(addr, n)` after it gives the low `n` bytes of `v` back. -/
def Obligations.StoreIsLittleEndian : Prop :=
  ∀ (m : Mode) (mem : Memory) (la v : Word64) (n : Nat), mem.wf = true → n ≤ 8 →
    (∀ k, k < n → (memWrite m mem la v n).read ((la.toNat + k) % 2 ^ addrBits m) = v.extractLsb' (8 * k) 8) ∧
    (∀ a, (∀ k, k < n → a ≠ (la.toNat + k) % 2 ^ addrBits m) → (memWrite m mem la v n).read a = mem.read a) ∧
    (memRead m (memWrite m mem la v n) la n).toNat = v.toNat % 2 ^ (8 * n)

/-- Equal memories are equal data: two memories in canonical form that read alike are the same list (the model's own
choice of form, log 6). -/
def Obligations.CanonicalMemoryIsExtensional : Prop :=
  ∀ (m₁ m₂ : Memory), m₁.wf = true → m₂.wf = true → (∀ a, m₁.read a = m₂.read a) → m₁ = m₂

/-- 20_memory.md R62: the fault named #SS is returned only for `seg = SS`. -/
def Obligations.StackFaultOnlyThroughSS : Prop :=
  ∀ (s : State) (kind : Access) (seg : Seg) (ea la : Word64) (n : Nat),
    s.admission kind seg ea la n = some .ss → seg = .ss

/-- The table that holds `Admit` loses nothing: whatever function of its arguments the parameter is, within R62's
obligations on it and for accesses of at most 15 bytes, some table answers like it (the model's own choice, log 5). -/
def Obligations.EveryAdmissionPolicyHasATable : Prop :=
  ∀ policy : Request → Option AdmitFault, (∀ q, policy q = some .ss → q.seg = .ss) →
    ∃ table : AdmitTable, ∀ q : Request, q.n ≤ 15 → AdmitTable.answer table q = policy q

/-! ## Faults and refusals of execution -/

/-- 60_exceptions.md R187, R188, R190: a form whose class is not enabled raises #UD, also when CR0.TS is set (R196). -/
def Obligations.DisabledClassIsInvalid : Prop :=
  ∀ (i : Instr) (s : State), i.wf s.mode = true → ¬ s.enables i → exec i s = .fault .ud

/-- 60_exceptions.md R189: #NM is raised by every form when CR0.TS = 1, provided no #UD condition holds; it has no error
code. -/
def Obligations.TaskSwitchedRaisesNm : Prop :=
  (∀ (i : Instr) (s : State), i.wf s.mode = true → s.enables i → s.cfg.cr0Ts = true → exec i s = .fault .nm) ∧
  Fault.nm.errorCode = none

/-- 60_exceptions.md R192: a 4-byte or 8-byte store at a linear address that is not a multiple of its size raises #AC(0) when
CR0.AM, RFLAGS.AC and CPL = 3 ask for it; the byte forms never raise it. -/
def Obligations.AlignmentCheckFaults : Prop :=
  (∀ (i : Instr) (s : State) (a : Addr), s.Ready i → i.form.dest = .mem a →
    s.meetsCode (s.laOf i a) (elemOf i).bytes = false →
    s.admission .write (s.segOf i a) (s.eaOf i a) (s.laOf i a) (elemOf i).bytes = none →
    elemOf i ≠ .byte → s.acFaults (s.laOf i a).toNat (elemOf i).bytes →
    exec i s = .fault .ac) ∧
  (∀ (i : Instr) (s : State), elemOf i = .byte → exec i s ≠ .fault .ac) ∧
  Fault.ac.errorCode = some 0

/-- 60_exceptions.md R191: a store that `Admit` does not let through raises the fault it returns (stated where the alignment check
does not apply as well, since R196 says that a claim must not depend on their order); where both apply the step is a
fault all the same. A register destination raises none of the memory faults. -/
def Obligations.AdmitFaultIsRaised : Prop :=
  (∀ (i : Instr) (s : State) (a : Addr) (x : Fault), s.Ready i → i.form.dest = .mem a →
    s.meetsCode (s.laOf i a) (elemOf i).bytes = false →
    s.admission .write (s.segOf i a) (s.eaOf i a) (s.laOf i a) (elemOf i).bytes = some x →
    (∃ y, exec i s = .fault y) ∧
    (¬ s.acFaults (s.laOf i a).toNat (elemOf i).bytes → exec i s = .fault x)) ∧
  (∀ (i : Instr) (s : State) (r : GprNum) (x : Fault), i.form.dest = .reg r → exec i s = .fault x → x = .ud ∨ x = .nm)

/-- 60_exceptions.md R194: vector numbers and error codes, and the bits of a page fault's code. -/
def Obligations.VectorsAndErrorCodes : Prop :=
  (Fault.vector .ud, Fault.vector .nm, Fault.vector .ss, Fault.vector .gp, Fault.vector .ac) = (6, 7, 12, 13, 17) ∧
  (Fault.errorCode .ud, Fault.errorCode .nm, Fault.errorCode .ss, Fault.errorCode .gp, Fault.errorCode .ac) =
    (none, none, some 0, some 0, some 0) ∧
  (∀ c a, Fault.vector (.pf c a) = 14 ∧ Fault.errorCode (.pf c a) = some c) ∧
  (∀ k p u r, (pfCode k p u r).toNat = p.toNat + 2 * (decide (k = .write)).toNat + 4 * u.toNat + 8 * r.toNat +
    16 * (decide (k = .fetch)).toNat)

/-- 20_memory.md R68: a store that writes a byte whose linear address lies in `[codeStart, endAddr)` is refused with `smc`.
The region is given by offsets in CS with `codeStart ≤ endAddr`, both of the width of `rip`. -/
def Obligations.StoreIntoCodeRefused : Prop :=
  ∀ (i : Instr) (s : State) (a : Addr) (k off : Nat), s.Ready i → i.form.dest = .mem a → k < (elemOf i).bytes →
    s.endAddr.toNat < 2 ^ addrBits s.mode → s.codeStart.toNat ≤ off → off < s.endAddr.toNat →
    ((s.laOf i a).toNat + k) % 2 ^ addrBits s.mode = (s.baseVal .cs + off) % 2 ^ addrBits s.mode →
    exec i s = .refused (.reason .smc)

/-- The code region is the interval of linear addresses that 00_scope.md R9 and 20_memory.md R68 describe, and nothing more:
with `codeStart ≤ endAddr`, an address of the mode is in it exactly when it is the CS base plus an offset of the
interval. -/
def Obligations.CodeRegionIsTheInterval : Prop :=
  ∀ (s : State) (la : Word64), s.mode.admitted = true → la.toNat < 2 ^ addrBits s.mode →
    s.endAddr.toNat < 2 ^ addrBits s.mode → s.codeStart.toNat ≤ s.endAddr.toNat →
    (s.inCode la = true ↔ ∃ off : Nat, s.codeStart.toNat ≤ off ∧ off < s.endAddr.toNat ∧
      la.toNat = (s.baseVal .cs + off) % 2 ^ addrBits s.mode)

/-! ## The step -/

/-- A STEP RUNS THE DECODED INSTRUCTION: when the bytes at `rip` decode to `i`, each of them admitted for fetching, the step
is `exec i`, with nothing around it (20_memory.md R70, 30_encoding.md R121, 40_extract_common.md R143). -/
def Obligations.StepRunsTheDecodedInstruction : Prop :=
  ∀ (s : State) (i : Instr) (bs : List Byte), s.HoldsAtRip bs → decode s.mode bs = .ok (i, []) → step s = exec i s

/-- The model's own way to place a program (log 10): after `withFetchWord` the state is a launch state (`rip = codeStart`,
70_reset_and_hazards.md R221) and the next step runs the instruction that the decoder reads from the word, from any state
that admits every access and is not in `Mode32`. -/
def Obligations.LoadedWordIsTheNextInstruction : Prop :=
  ∀ (s : State) (nbits w : Nat) (i : Instr), s.mem.wf = true → s.admitTable = [] → s.mode ≠ .mode32 →
    decodeTableWord nbits w = some i →
    (s.withFetchWord nbits w).Launch ∧ step (s.withFetchWord nbits w) = exec i (s.withFetchWord nbits w)

/-- When the bytes at `rip` make the decoder raise #UD or refuse, the step does so (00_scope.md R13, 30_encoding.md R121). -/
def Obligations.StepAnswersWhereTheDecoderStops : Prop :=
  ∀ (s : State) (bs : List Byte), s.mode.admitted = true → s.HoldsAtRip bs →
    (decode s.mode bs = .error .ud → step s = .fault .ud) ∧
    (∀ r, decode s.mode bs = .error (.refuse r) → step s = .refused (.reason r))

/-- 20_memory.md R70: when the decoder needs a byte beyond those fetched and `Admit` refuses that byte, the step raises the
fault it names. -/
def Obligations.FetchFaultIsRaised : Prop :=
  ∀ (s : State) (bs : List Byte) (x : Fault), s.mode.admitted = true → s.HoldsAtRip bs →
    decode s.mode bs = .error .more →
    s.admission .fetch .cs (s.fetchEa bs.length) (s.linear .cs (s.fetchEa bs.length)) 1 = some x →
    step s = .fault x

/-- 10_state.md R26: every step that completes moves `rip` by the length of the instruction it ran, 6 to 14 bytes, modulo
2^64 or 2^32. -/
def Obligations.StepAdvancesRip : Prop :=
  ∀ s t : State, step s = .next t →
    ∃ i, fetchInstr s = .instr i ∧ 6 ≤ i.len ∧ i.len ≤ 14 ∧ t.rip.toNat = (s.rip.toNat + i.len) % 2 ^ addrBits s.mode

/-- 40_extract_common.md R139: a completed step changes the destination of the instruction it ran (one general register, or
the bytes at the operand's linear address) and `rip`, and nothing else. -/
def Obligations.StepChangesOnlyTheDestination : Prop :=
  ∀ s t : State, s.Inv → step s = .next t →
    Untouched s t ∧ ∃ i, fetchInstr s = .instr i ∧
      match i.form.dest with
      | .reg r => (∀ q, s.mode.allowsGpr q = true → q ≠ r → t.gprVal q = s.gprVal q) ∧ ∀ a, t.mem.read a = s.mem.read a
      | .mem d => (∀ q, t.gprRead q = s.gprRead q) ∧
          ∀ a, (∀ k, k < (elemOf i).bytes → a ≠ ((s.laOf i d).toNat + k) % 2 ^ addrBits s.mode) →
            t.mem.read a = s.mem.read a

/-- THE INVARIANT IS KEPT BY EVERY STEP: memory in its canonical form, which is the model's own choice of form (log 6), and
outside `Mode64` a `rip` of 32 bits (10_state.md R25) in its 64-bit field, which is the model's own choice of field
(log 8). -/
def Obligations.StepKeepsInvariant : Prop := ∀ s t : State, s.Inv → step s = .next t → t.Inv

/-- The invariant, the model's own (log 6, log 8), holds after reset, whose values are the model's choice (log 1). -/
def Obligations.ResetHasInvariant : Prop := State.reset.Inv

/-- CODE IS NEVER OVERWRITTEN: no step changes a byte of the code region (20_memory.md R68). -/
def Obligations.StepKeepsTheCode : Prop :=
  ∀ s t : State, s.Inv → step s = .next t → ∀ a : Word64, s.inCode a = true → t.mem.read a.toNat = s.mem.read a.toNat

/-- 10_state.md R28: `mxcsr` is neither read nor written, and no step raises a SIMD floating-point exception (#XM, vector
19). -/
def Obligations.MxcsrIsNeitherReadNorWritten : Prop :=
  (∀ (s : State) (x : Word32), step { s with mxcsr := x } = onNext (fun t => { t with mxcsr := x }) (step s)) ∧
  (∀ s t : State, step s = .next t → t.mxcsr = s.mxcsr) ∧
  (∀ (s : State) (x : Fault), step s = .fault x → x.vector ≠ 19)

/-- 10_state.md R27: no step changes `rflags`, and of it only bit 18 (AC) is read. -/
def Obligations.OnlyTheAcFlagIsRead : Prop :=
  (∀ s t : State, step s = .next t → t.rflags = s.rflags) ∧
  (∀ (s : State) (x : Word64), x.getLsbD 18 = s.rflags.getLsbD 18 →
    step { s with rflags := x } = onNext (fun t => { t with rflags := x }) (step s))

/-- Each class reads its own control bits and feature flags only (60_exceptions.md R187, R188, R190; 95_test_vectors.md
section 7): with any other configuration that agrees on them, and on CR0.TS and CR0.AM, the outcome is the same. -/
def Obligations.ClassesReadTheirOwnControlBits : Prop :=
  ∀ (s : State) (c : Cfg), c.cr0Ts = s.cfg.cr0Ts → c.cr0Am = s.cfg.cr0Am →
    (c.cr0Em = s.cfg.cr0Em → c.cr4Osfxsr = s.cfg.cr4Osfxsr → c.cpuid.sse41 = s.cfg.cpuid.sse41 → ∀ rex f i,
      (i = .pextrb rex f ∨ i = .pextrd rex f ∨ i = .pextrq rex f) →
      exec i { s with cfg := c } = onNext (fun t => { t with cfg := c }) (exec i s)) ∧
    (c.cr4Osxsave = s.cfg.cr4Osxsave → c.xcr0.extractLsb' 1 2 = s.cfg.xcr0.extractLsb' 1 2 →
      c.cpuid.avx = s.cfg.cpuid.avx → ∀ f i, (i = .vpextrbVex f ∨ i = .vpextrdVex f ∨ i = .vpextrqVex f) →
      exec i { s with cfg := c } = onNext (fun t => { t with cfg := c }) (exec i s)) ∧
    (c.cr4Osxsave = s.cfg.cr4Osxsave → c.xcr0.extractLsb' 1 2 = s.cfg.xcr0.extractLsb' 1 2 →
      c.xcr0.extractLsb' 5 3 = s.cfg.xcr0.extractLsb' 5 3 → c.cpuid.avx512f = s.cfg.cpuid.avx512f → ∀ f i,
      ((i = .vpextrbEvex f ∧ c.cpuid.avx512bw = s.cfg.cpuid.avx512bw) ∨
        ((i = .vpextrdEvex f ∨ i = .vpextrqEvex f) ∧ c.cpuid.avx512dq = s.cfg.cpuid.avx512dq)) →
      exec i { s with cfg := c } = onNext (fun t => { t with cfg := c }) (exec i s))

/-- 40_extract_common.md R141: no element other than the selected one influences the outcome, and no other vector register
does. -/
def Obligations.OnlyTheSelectedElementMatters : Prop :=
  ∀ (i : Instr) (s : State) (x : Vector Xmm 32),
    element (elemOf i).bits (i.form.imm8.toNat % (128 / (elemOf i).bits)) ({ s with xmm := x }.xmmReg i.form.src) =
      element (elemOf i).bits (i.form.imm8.toNat % (128 / (elemOf i).bits)) (s.xmmReg i.form.src) →
    exec i { s with xmm := x } = onNext (fun t => { t with xmm := x }) (exec i s)

/-- 10_state.md R22 and R23: in `Mode32` bits 63:32 of the general registers and registers 8 to 15 are not state. Two
states that differ in them only (and in the numbering of the free values) step to the same outcome, up to the same
differences. -/
def Obligations.UpperRegisterBitsAreNoStateInMode32 : Prop :=
  ∀ s t : State, s.mode = .mode32 → SameIn32 s t → SameOutcomeIn32 (step s) (step t)

/-- In a mode that is neither `Mode64` nor `Mode32` every step is refused with `bad_mode`, whatever the bytes
(30_encoding.md R118); so it is after reset (the model's choice of reset values, log 1). -/
def Obligations.OtherModesRefuse : Prop :=
  (∀ s : State, s.mode ≠ .mode64 → s.mode ≠ .mode32 → step s = .refused (.reason .badMode)) ∧
  step State.reset = .refused (.reason .badMode)

/-- A step never answers with an instruction that is not modelled, nor with a term that cannot be encoded: what the decoder
gives can be executed. -/
def Obligations.StepRefusesOnlyForTheSpecsReasons : Prop :=
  ∀ (s : State) (r : Refusal), step s = .refused r → ∃ x : RefusalReason, r = .reason x

/-- The values of 10_state.md R35 that the model takes for its reset state (log 1). -/
def Obligations.ResetValues : Prop :=
  State.reset.mode = .realAddress ∧ State.reset.rip = 0xFFF0 ∧ State.reset.segbase.cs = 0xFFFF0000 ∧
  (State.reset.segbase.ss, State.reset.segbase.ds, State.reset.segbase.es, State.reset.segbase.fs,
    State.reset.segbase.gs) = (0, 0, 0, 0, 0) ∧
  State.reset.rflags.extractLsb' 0 32 = 2#32 ∧ (∀ q : GprNum, q ≠ 2 → State.reset.gprRead q = 0) ∧
  State.reset.cfg.cr0Em = false ∧ State.reset.cfg.cr0Ts = false ∧ State.reset.cfg.cr0Am = false ∧
  State.reset.cfg.cr4Osfxsr = false ∧ State.reset.cfg.cr4Osxsave = false ∧ State.reset.cfg.xcr0 = 1 ∧
  (∀ q : XmmNum, State.reset.xmmReg q = 0) ∧ State.reset.mxcsr = 0x1F80 ∧ State.reset.cpl = 0

/-- A RUN IS A STRAIGHT LINE: a good end after `k` steps fetched and completed `k` instructions, and `endAddr`, where it
stands, is `codeStart` plus the sum of their lengths, modulo 2^W; each length is 6 to 14 bytes (70_reset_and_hazards.md
R221, R226, 10_state.md R26, 30_encoding.md R114). -/
def Obligations.GoodRunIsAStraightLine : Prop :=
  ∀ (s t : State) (k : Nat), EndsWell s k t →
    ∃ is : List Instr, is.length = k ∧ RunsThrough s is t ∧ (∀ i ∈ is, 6 ≤ i.len ∧ i.len ≤ 14) ∧
      t.rip.toNat = (s.codeStart.toNat + (is.map Instr.len).sum) % 2 ^ addrBits s.mode ∧
      t.rip.toNat = s.endAddr.toNat % 2 ^ addrBits s.mode

/-- A run that ends well keeps everything R20 calls constant during a run and every byte of the code region, in its end state
and in every state before it; and what it fetched is in that region: where the region does not wrap (`codeStart ≤ endAddr`,
both of the width of `rip`) and the run is too short to pass the whole address space, every byte of every instruction it
ran lies in the code region ("the region holds every instruction byte the run fetches", 20_memory.md R68; 00_scope.md R9,
10_state.md R20, 70_reset_and_hazards.md R221, R226). It ends in a state with the model's own invariant (log 6, log 8). -/
def Obligations.GoodRunKeepsConfigurationAndCode : Prop :=
  ∀ (s t : State) (k : Nat), s.Inv → EndsWell s k t →
    Untouched s t ∧ t.Inv ∧ (∀ a : Word64, s.inCode a = true → t.mem.read a.toNat = s.mem.read a.toNat) ∧
    ∀ (j : Nat) (u : State), j < k → Continues s j u →
      Untouched s u ∧ (∀ a : Word64, s.inCode a = true → u.mem.read a.toNat = s.mem.read a.toNat) ∧
      (s.codeStart.toNat ≤ s.endAddr.toNat → s.endAddr.toNat < 2 ^ addrBits s.mode → 14 * k < 2 ^ addrBits s.mode →
        ∀ i, fetchInstr u = .instr i → ∀ n, n < i.len → s.inCode (u.linear .cs (u.fetchEa n)) = true)

/-- A PROGRAM RUNS TO ITS END IN AS MANY STEPS AS IT HAS INSTRUCTIONS, OR ENDS BADLY EARLIER (70_reset_and_hazards.md R226,
from the launch state of R221 and the program of R222): if the bytes from `codeStart` up to `endAddr` are the encodings of a
list of instructions, one after another, then either the run from `codeStart` has its good end after exactly that many
steps, having fetched and completed these instructions in order, or one of its steps faults or is refused, after as many
of the first instructions as steps had completed. -/
def Obligations.ProgramEndsAfterItsInstructions : Prop :=
  ∀ (s : State) (prog : List (List Byte × Instr)), s.mem.wf = true → s.Launch → prog ≠ [] →
    (∀ p ∈ prog, decode s.mode p.1 = .ok (p.2, [])) → s.HoldsProgram (prog.map Prod.fst).flatten →
    (∃ t, EndsWell s prog.length t ∧ RunsThrough s (prog.map Prod.snd) t) ∨
    (∃ k t, k < prog.length ∧ EndsBadly s k t ∧ RunsThrough s ((prog.take k).map Prod.snd) t)
end

