-- ==== Sys2Proof/Laws/Decode.lean ====
section
/-! SUPPORT. The pieces of the decoder: what each reads back of what the encoder writes. -/

namespace Sys2Proof

/-! ## Bytes and fields -/

@[simp] theorem nextByte_cons (b : Byte) (bs : List Byte) : nextByte (b :: bs) = .ok (b, bs) := rfl

theorem byte233_mod : ∀ (a : BitVec 2) (b c : BitVec 3), (byte233 a b c).extractLsb' 6 2 = a := by decide

theorem byte233_reg : ∀ (a : BitVec 2) (b c : BitVec 3), (byte233 a b c).extractLsb' 3 3 = b := by decide

theorem byte233_rm : ∀ (a : BitVec 2) (b c : BitVec 3), (byte233 a b c).extractLsb' 0 3 = c := by decide

/-- The extension bit and the low field of a register number are the number. -/
theorem gprNum_lowField : ∀ r : GprNum, gprNum r[3] (lowField r) = r := by decide

theorem setWidth_gprNum : ∀ (b : Bool) (f : BitVec 3), (gprNum b f).setWidth 3 = f := by decide

/-- An index number other than 4 is read back. -/
theorem indexOf_gprNum : ∀ r : GprNum, r ≠ 4 → indexOf (gprNum r[3] (lowField r)) = some r := by decide

/-- The bits of a REX byte. -/
theorem rexByte_bits : ∀ w r x b : Bool, pfxByte? (rexByte w r x b) = none ∧ isRex (rexByte w r x b) = true ∧
    (rexByte w r x b)[3] = w ∧ (rexByte w r x b)[2] = r ∧ (rexByte w r x b)[1] = x ∧ (rexByte w r x b)[0] = b := by
  decide

/-! ## Displacements -/

/-- Four bytes are read back. -/
theorem nextDword_dwordBytes (d : Word32) (rest : List Byte) : nextDword (dwordBytes d ++ rest) = .ok (d, rest) := by
  simp only [dwordBytes, List.cons_append, List.nil_append, nextDword]
  congr 2
  apply BitVec.eq_of_getLsbD_eq
  intro i hi
  simp only [BitVec.getLsbD_append, BitVec.getLsbD_extractLsb']
  split <;> rename_i h1
  · simp [h1]
  · split <;> rename_i h2
    · simp [h2]; congr 1; omega
    · split <;> rename_i h3
      · simp [h3]; congr 1; omega
      · have : i - 8 - 8 - 8 < 8 := by omega
        simp [this]; congr 1; omega

/-- A displacement is read back. -/
theorem readDisp_bytes (d : Disp) (rest : List Byte) : readDisp d.md (d.bytes ++ rest) = .ok (d, rest) := by
  cases d with
  | none => rfl
  | d8 x => rfl
  | d32 x =>
    show (do let (d, bs) ← nextDword (dwordBytes x ++ rest); Except.ok (Disp.d32 d, bs)) = _
    rw [nextDword_dwordBytes]; rfl

theorem Disp.md_ne_three (d : Disp) : d.md ≠ 3 := by cases d <;> simp [Disp.md]

theorem Disp.md_eq_zero (d : Disp) : d.md = 0 ↔ d = .none := by cases d <;> simp [Disp.md]

/-! ## Prefixes -/

theorem pfxByte?_segByte (s : Seg) : pfxByte? (segByte s) = some (.segment s) := by cases s <;> decide

/-- The loop stops in front of a byte that is no prefix. -/
theorem readPfxs_stop {b : Byte} (p : Pfxs) (bs : List Byte) (h : pfxByte? b = none) :
    readPfxs p (b :: bs) = .ok (p, b :: bs) := by
  rw [readPfxs, h]

/-- The loop takes a prefix that is new. -/
theorem readPfxs_take {b : Byte} {k : PfxByte} {p p' : Pfxs} (bs : List Byte) (h : pfxByte? b = some k)
    (hk : p.add k = some p') : readPfxs p (b :: bs) = readPfxs p' bs := by
  rw [readPfxs, h]; simp only [hk]

/-- The loop refuses a prefix that was there. -/
theorem readPfxs_dup {b : Byte} {k : PfxByte} {p : Pfxs} (bs : List Byte) (h : pfxByte? b = some k)
    (hk : p.add k = none) : readPfxs p (b :: bs) = .error (.refuse .dupPrefix) := by
  rw [readPfxs, h]; simp only [hk]

/-- The loop reads a segment override and 67H. -/
theorem readPfxs_operand (seg : Option Seg) (a67 : Bool) (bs : List Byte) :
    readPfxs {} ((seg.map segByte).toList ++ (if a67 then [(0x67 : Byte)] else []) ++ bs) =
      readPfxs { seg := seg, a67 := a67 } bs := by
  have h2 : ∀ p : Pfxs, p.a67 = false →
      readPfxs p ((if a67 then [(0x67 : Byte)] else []) ++ bs) = readPfxs { p with a67 := a67 } bs := by
    intro p hp
    cases a67 with
    | false => rw [show ({ p with a67 := false } : Pfxs) = p by rw [← hp]]; rfl
    | true => exact readPfxs_take _ (by decide : pfxByte? 0x67 = some .addrSize) (by simp [Pfxs.add, hp])
  rw [List.append_assoc]
  cases seg with
  | none => exact h2 {} rfl
  | some s =>
    rw [← h2 { seg := some s } rfl]
    exact readPfxs_take _ (pfxByte?_segByte s) (by simp [Pfxs.add])

end Sys2Proof
end

