-- ==== Sys2Proof/Laws/Memory.lean ====
section
/-! SUPPORT. Memory: reading after writing, and the canonical form kept by every operation. -/

namespace Sys2Proof.Machine

/-- A write is seen at its address and nowhere else. -/
theorem read_write (m : Memory) (a b : Nat) (v : Byte) (h : m.wf = true) :
    (m.write a v).read b = if b = a then v else m.read b := by
  suffices H : ∀ (m : Memory) (lo : Nat), Memory.wfFrom lo m = true →
      (m.write a v).read b = if b = a then v else m.read b from H m 0 h
  intro m
  induction m with
  | nil => intro lo _; by_cases hv : v = Memory.unlisted <;> simp [Memory.write, Memory.read, hv]
  | cons c rest ih =>
    intro lo hlo
    obtain ⟨x, y⟩ := c
    simp only [Memory.wfFrom, Bool.and_eq_true, decide_eq_true_eq, bne_iff_ne] at hlo
    obtain ⟨⟨⟨h1, h2⟩, h3⟩, h4⟩ := hlo
    have below : ∀ (m : Memory) (lo z : Nat), Memory.wfFrom lo m = true → z < lo → m.read z = Memory.unlisted := by
      intro m
      induction m with
      | nil => intros; rfl
      | cons c rest ih =>
        intro lo z hw hz
        simp only [Memory.wfFrom, Bool.and_eq_true, decide_eq_true_eq] at hw
        have : z ≠ c.1 := by omega
        simp only [Memory.read, this, if_false]
        exact ih _ _ hw.2 (by omega)
    unfold Memory.write
    split
    · split
      · rename_i hax hv
        by_cases hb : b = a
        · subst hb; simp [Memory.read, hv, below rest (x + 1) b h4 (by omega), Nat.ne_of_lt hax]
        · simp [hb]
      · simp [Memory.read]
    · split
      · rename_i hax
        subst hax
        split
        · rename_i hv
          by_cases hb : b = a
          · subst hb; simp [hv, below rest (b + 1) b h4 (by omega)]
          · simp [Memory.read, hb]
        · by_cases hb : b = a <;> simp [Memory.read, hb]
      · rename_i hax hne
        by_cases hb : b = x
        · subst hb; simp [Memory.read, Ne.symm hne]
        · simp only [Memory.read, hb, if_false]; exact ih _ h4

theorem wfFrom_write (m : Memory) (lo a : Nat) (v : Byte) (h : Memory.wfFrom lo m = true) (hlo : lo ≤ a)
    (ha : a < 2 ^ 64) : Memory.wfFrom lo (m.write a v) = true := by
  induction m generalizing lo with
  | nil =>
    by_cases hv : v = Memory.unlisted
    · simp [Memory.write, hv, Memory.wfFrom]
    · simp only [Memory.write, hv, if_false, Memory.wfFrom, Bool.and_eq_true, decide_eq_true_eq, bne_iff_ne]
      exact ⟨⟨⟨hlo, ha⟩, hv⟩, trivial⟩
  | cons c rest ih =>
    obtain ⟨x, y⟩ := c
    simp only [Memory.wfFrom, Bool.and_eq_true, decide_eq_true_eq, bne_iff_ne] at h
    obtain ⟨⟨⟨h1, h2⟩, h3⟩, h4⟩ := h
    have mono : ∀ (m : Memory) (l l' : Nat), l' ≤ l → Memory.wfFrom l m = true → Memory.wfFrom l' m = true := by
      intro m l l' hl hw
      cases m with
      | nil => rfl
      | cons c rest =>
        simp only [Memory.wfFrom, Bool.and_eq_true, decide_eq_true_eq] at hw ⊢
        exact ⟨⟨⟨by omega, hw.1.1.2⟩, hw.1.2⟩, hw.2⟩
    unfold Memory.write
    split
    · split
      · simp only [Memory.wfFrom, Bool.and_eq_true, decide_eq_true_eq, bne_iff_ne]
        exact ⟨⟨⟨h1, h2⟩, h3⟩, h4⟩
      · rename_i hax hv
        simp only [Memory.wfFrom, Bool.and_eq_true, decide_eq_true_eq, bne_iff_ne]
        exact ⟨⟨⟨hlo, ha⟩, hv⟩, ⟨⟨by omega, h2⟩, h3⟩, h4⟩
    · split
      · rename_i hax
        subst hax
        split
        · exact mono rest _ _ (by omega) h4
        · rename_i hv
          simp only [Memory.wfFrom, Bool.and_eq_true, decide_eq_true_eq, bne_iff_ne]
          exact ⟨⟨⟨h1, h2⟩, hv⟩, h4⟩
      · simp only [Memory.wfFrom, Bool.and_eq_true, decide_eq_true_eq, bne_iff_ne]
        exact ⟨⟨⟨h1, h2⟩, h3⟩, ih _ h4 (by omega)⟩

/-- Storing one byte keeps the canonical form. -/
theorem wf_write (m : Memory) (a : Nat) (v : Byte) (h : m.wf = true) (ha : a < 2 ^ 64) : (m.write a v).wf = true :=
  wfFrom_write m 0 a v h (Nat.zero_le _) ha

/-- `MemWrite` keeps the canonical form. -/
theorem wf_memWrite (md : Mode) (m : Memory) (la v : Word64) (n : Nat) (h : m.wf = true) :
    (memWrite md m la v n).wf = true := by
  induction n with
  | zero => exact h
  | succ n ih => exact wf_write _ _ _ ih (wrapAddr md (la + BitVec.ofNat 64 n)).isLt

/-- What `MemWrite` does to a byte: the last of the stored bytes with that address, else nothing. -/
theorem read_memWrite_succ (md : Mode) (m : Memory) (la v : Word64) (n b : Nat) (h : m.wf = true) :
    (memWrite md m la v (n + 1)).read b =
      if b = byteAddr md la n then v.extractLsb' (8 * n) 8 else (memWrite md m la v n).read b :=
  read_write _ _ _ _ (wf_memWrite md m la v n h)

/-- A byte outside the stored ones is as before. -/
theorem read_memWrite_other (md : Mode) (m : Memory) (la v : Word64) (n b : Nat) (h : m.wf = true)
    (hb : ∀ k, k < n → b ≠ byteAddr md la k) : (memWrite md m la v n).read b = m.read b := by
  induction n with
  | zero => rfl
  | succ n ih =>
    rw [read_memWrite_succ md m la v n b h, if_neg (hb n (Nat.lt_succ_self n))]
    exact ih fun k hk => hb k (Nat.lt_succ_of_lt hk)

/-- The stored bytes, where no two of them have one address. -/
theorem read_memWrite_byte (md : Mode) (m : Memory) (la v : Word64) (n k : Nat) (h : m.wf = true) (hk : k < n)
    (inj : ∀ i j, i < n → j < n → byteAddr md la i = byteAddr md la j → i = j) :
    (memWrite md m la v n).read (byteAddr md la k) = v.extractLsb' (8 * k) 8 := by
  induction n with
  | zero => omega
  | succ n ih =>
    rw [read_memWrite_succ md m la v n _ h]
    by_cases hkn : k = n
    · subst hkn; simp
    · rw [if_neg fun e => hkn (inj k n hk (Nat.lt_succ_self n) e)]
      exact ih (by omega) fun i j hi hj => inj i j (by omega) (by omega)

/-- The bytes of an access of at most 2^32 bytes have different addresses. -/
theorem byteAddr_inj (md : Mode) (la : Word64) (n : Nat) (hn : n ≤ 2 ^ 32) (i j : Nat) (hi : i < n) (hj : j < n)
    (e : byteAddr md la i = byteAddr md la j) : i = j := by
  unfold byteAddr wrapAddr at e
  cases md <;> simp [BitVec.toNat_add] at e <;> omega

/-- Memory after reset has the canonical form. -/
theorem wf_reset_memory : State.reset.mem.wf = true := rfl

end Sys2Proof.Machine
end

