-- ==== Sys2Proof/Laws/State.lean ====
section
/-! SUPPORT. One lemma per field per update of the state. -/

namespace Sys2Proof.Machine

variable (s : State)

/-! ## advance -/

@[simp] theorem advance_mode (n : Nat) : (s.advance n).mode = s.mode := rfl
@[simp] theorem advance_gpr (n : Nat) : (s.advance n).gpr = s.gpr := rfl
@[simp] theorem advance_gprRead (n : Nat) (r : GprNum) : (s.advance n).gprRead r = s.gprRead r := rfl
@[simp] theorem advance_rip (n : Nat) : (s.advance n).rip = s.ripNext n := rfl
@[simp] theorem advance_xmm (n : Nat) : (s.advance n).xmm = s.xmm := rfl
@[simp] theorem advance_mem (n : Nat) : (s.advance n).mem = s.mem := rfl
@[simp] theorem advance_rflags (n : Nat) : (s.advance n).rflags = s.rflags := rfl
@[simp] theorem advance_mxcsr (n : Nat) : (s.advance n).mxcsr = s.mxcsr := rfl
@[simp] theorem advance_segbase (n : Nat) : (s.advance n).segbase = s.segbase := rfl
@[simp] theorem advance_cfg (n : Nat) : (s.advance n).cfg = s.cfg := rfl
@[simp] theorem advance_cpl (n : Nat) : (s.advance n).cpl = s.cpl := rfl
@[simp] theorem advance_admitTable (n : Nat) : (s.advance n).admitTable = s.admitTable := rfl
@[simp] theorem advance_codeStart (n : Nat) : (s.advance n).codeStart = s.codeStart := rfl
@[simp] theorem advance_endAddr (n : Nat) : (s.advance n).endAddr = s.endAddr := rfl
@[simp] theorem advance_freeCount (n : Nat) : (s.advance n).freeCount = s.freeCount := rfl

/-! ## store -/

variable (la v : Word64) (n : Nat)

@[simp] theorem store_mode : (s.store la v n).mode = s.mode := rfl
@[simp] theorem store_gpr : (s.store la v n).gpr = s.gpr := rfl
@[simp] theorem store_gprRead (r : GprNum) : (s.store la v n).gprRead r = s.gprRead r := rfl
@[simp] theorem store_rip : (s.store la v n).rip = s.rip := rfl
@[simp] theorem store_xmm : (s.store la v n).xmm = s.xmm := rfl
@[simp] theorem store_mem : (s.store la v n).mem = memWrite s.mode s.mem la v n := rfl
@[simp] theorem store_rflags : (s.store la v n).rflags = s.rflags := rfl
@[simp] theorem store_mxcsr : (s.store la v n).mxcsr = s.mxcsr := rfl
@[simp] theorem store_segbase : (s.store la v n).segbase = s.segbase := rfl
@[simp] theorem store_cfg : (s.store la v n).cfg = s.cfg := rfl
@[simp] theorem store_cpl : (s.store la v n).cpl = s.cpl := rfl
@[simp] theorem store_admitTable : (s.store la v n).admitTable = s.admitTable := rfl
@[simp] theorem store_codeStart : (s.store la v n).codeStart = s.codeStart := rfl
@[simp] theorem store_endAddr : (s.store la v n).endAddr = s.endAddr := rfl
@[simp] theorem store_freeCount : (s.store la v n).freeCount = s.freeCount := rfl
@[simp] theorem store_ripNext (k : Nat) : (s.store la v n).ripNext k = s.ripNext k := rfl

/-! ## writeGpr -/

variable (r : GprNum)

@[simp] theorem writeGpr_mode : (s.writeGpr r v).mode = s.mode := by unfold State.writeGpr; split <;> rfl
@[simp] theorem writeGpr_rip : (s.writeGpr r v).rip = s.rip := by unfold State.writeGpr; split <;> rfl
@[simp] theorem writeGpr_xmm : (s.writeGpr r v).xmm = s.xmm := by unfold State.writeGpr; split <;> rfl
@[simp] theorem writeGpr_mem : (s.writeGpr r v).mem = s.mem := by unfold State.writeGpr; split <;> rfl
@[simp] theorem writeGpr_rflags : (s.writeGpr r v).rflags = s.rflags := by unfold State.writeGpr; split <;> rfl
@[simp] theorem writeGpr_mxcsr : (s.writeGpr r v).mxcsr = s.mxcsr := by unfold State.writeGpr; split <;> rfl
@[simp] theorem writeGpr_segbase : (s.writeGpr r v).segbase = s.segbase := by unfold State.writeGpr; split <;> rfl
@[simp] theorem writeGpr_cfg : (s.writeGpr r v).cfg = s.cfg := by unfold State.writeGpr; split <;> rfl
@[simp] theorem writeGpr_cpl : (s.writeGpr r v).cpl = s.cpl := by unfold State.writeGpr; split <;> rfl
@[simp] theorem writeGpr_admitTable : (s.writeGpr r v).admitTable = s.admitTable := by unfold State.writeGpr; split <;> rfl
@[simp] theorem writeGpr_codeStart : (s.writeGpr r v).codeStart = s.codeStart := by
  unfold State.writeGpr; split <;> rfl
@[simp] theorem writeGpr_endAddr : (s.writeGpr r v).endAddr = s.endAddr := by unfold State.writeGpr; split <;> rfl
@[simp] theorem writeGpr_ripNext (k : Nat) : (s.writeGpr r v).ripNext k = s.ripNext k := by
  simp [State.ripNext]

/-- A register written in `Mode64` reads as the value. -/
theorem writeGpr_read_mode64 (h : s.mode = .mode64) : (s.writeGpr r v).gprRead r = v := by
  simp only [State.writeGpr, State.gprRead, h, if_true, Vector.getElem_set_self]
  apply BitVec.eq_of_getLsbD_eq
  intro i hi
  simp only [BitVec.getLsbD_append, BitVec.getLsbD_setWidth, BitVec.getLsbD_extractLsb']
  split
  · rename_i h1; simp [h1]
  · rename_i h1
    rw [show decide (i - 32 < 32) = true by simp; omega, show 32 + (i - 32) = i by omega, Bool.true_and]

/-- A register written in another mode reads as the low 32 bits of the value. -/
theorem writeGpr_read_mode32 (h : s.mode ≠ .mode64) : (s.writeGpr r v).gprRead r = (v.setWidth 32).setWidth 64 := by
  simp [State.writeGpr, State.gprRead, h]

/-- The other registers read as before. -/
theorem writeGpr_read_ne {q : GprNum} (h : q ≠ r) : (s.writeGpr r v).gprRead q = s.gprRead q := by
  have hn : r.toNat ≠ q.toNat := fun e => h (BitVec.eq_of_toNat_eq e.symm)
  unfold State.writeGpr
  split <;> simp [State.gprRead, hn]

/-- The number of free values drawn: one more after a write outside `Mode64`. -/
theorem writeGpr_freeCount :
    (s.writeGpr r v).freeCount = if s.mode = .mode64 then s.freeCount else s.freeCount + 1 := by
  unfold State.writeGpr; split <;> rfl

end Sys2Proof.Machine
end

