-- ==== Sys2Proof/Laws/Exec.lean ====
section
/-! SUPPORT. What the shared operations, `exec` and `step` can answer: one inversion lemma each. -/

namespace Sys2Proof.Machine

/-- The class's enabling condition as the meanings compute it. -/
def classOn (s : State) : Instr → Bool
  | .pextrb _ _ => s.legacyEnabled
  | .pextrd _ _ => s.legacyEnabled
  | .pextrq _ _ => s.legacyEnabled
  | .vpextrbVex _ => s.vexEnabled
  | .vpextrdVex _ => s.vexEnabled
  | .vpextrqVex _ => s.vexEnabled
  | .vpextrbEvex _ => s.evexEnabled s.cfg.cpuid.avx512bw
  | .vpextrdEvex _ => s.evexEnabled s.cfg.cpuid.avx512dq
  | .vpextrqEvex _ => s.evexEnabled s.cfg.cpuid.avx512dq

/-- Every meaning is the shared operation at its own width, factor and class. -/
theorem exec_eq (i : Instr) (s : State) : exec i s = runExtract i (elemOf i) (disp8N i) (classOn s i) s := by
  cases i <;> rfl

theorem xcr0Avx_iff (s : State) : s.xcr0Avx = true ↔ s.cfg.xcr0.extractLsb' 1 2 = 3#2 := by
  constructor
  · intro h
    simp only [State.xcr0Avx, Bool.and_eq_true] at h
    ext k hk
    have : k = 0 ∨ k = 1 := by omega
    rcases this with rfl | rfl <;> simp [h.1, h.2]
  · intro h
    have h0 := congrArg (·.getLsbD 0) h
    have h1 := congrArg (·.getLsbD 1) h
    simp at h0 h1
    simp [State.xcr0Avx, h0, h1]

theorem xcr0Avx512_iff (s : State) : s.xcr0Avx512 = true ↔ s.cfg.xcr0.extractLsb' 5 3 = 7#3 := by
  constructor
  · intro h
    simp only [State.xcr0Avx512, Bool.and_eq_true] at h
    ext k hk
    have : k = 0 ∨ k = 1 ∨ k = 2 := by omega
    rcases this with rfl | rfl | rfl <;> simp [h.1.1, h.1.2, h.2]
  · intro h
    have h0 := congrArg (·.getLsbD 0) h
    have h1 := congrArg (·.getLsbD 1) h
    have h2 := congrArg (·.getLsbD 2) h
    simp at h0 h1 h2
    simp [State.xcr0Avx512, h0, h1, h2]

/-- The computed enabling condition is the one of 70_reset_and_hazards.md R222. -/
theorem classOn_iff (s : State) (i : Instr) : classOn s i = true ↔ s.enables i := by
  have ha := xcr0Avx_iff s
  have hb := xcr0Avx512_iff s
  cases i <;>
    simp only [classOn, State.enables, State.legacyEnabled, State.vexEnabled, State.evexEnabled, Bool.and_eq_true,
      Bool.not_eq_true', ha, hb] <;>
    tauto

/-- The computed alignment condition is the one of 60_exceptions.md R192 (for a one-byte store neither holds). -/
theorem misaligned_iff (s : State) (la : Word64) (e : Elem) :
    s.misaligned la e.bytes = true ↔ s.acFaults la.toNat e.bytes := by
  unfold State.misaligned State.acFaults State.alignmentCheck State.acFlag
  cases e <;> simp [Elem.bytes, BitVec.getLsbD_eq_getElem, Nat.mod_one, and_assoc]

/-- What `runExtract` can answer with a next state. -/
theorem runExtract_next {i : Instr} {e : Elem} {n8 : Nat} {on : Bool} {s t : State}
    (h : runExtract i e n8 on s = .next t) :
    i.wf s.mode = true ∧ on = true ∧ s.cfg.cr0Ts = false ∧ execExtract e n8 i.len i.form s = .next t := by
  unfold runExtract at h
  split at h
  · simp [refuse] at h
  split at h
  · simp at h
  split at h
  · simp [takeException] at h
  split at h
  · simp [takeException] at h
  simp_all

/-- What `runExtract` answers when every check before the operands passes. -/
theorem runExtract_ready {i : Instr} {e : Elem} {n8 : Nat} {on : Bool} {s : State} (hm : s.mode.admitted = true)
    (hw : i.wf s.mode = true) (ho : on = true) (ht : s.cfg.cr0Ts = false) :
    runExtract i e n8 on s = execExtract e n8 i.len i.form s := by
  simp [runExtract, hm, hw, ho, ht]

/-- An instruction that some encoding of the mode stands for is in an admitted mode. -/
theorem admitted_of_wf {m : Mode} {i : Instr} (h : i.wf m = true) : m.admitted = true := by
  cases i <;> simp only [Instr.wf, Form.wf, Bool.and_eq_true] at h <;> simp [h]

/-- What `storeElem` can answer with a next state: every check let the store through, and it is done. -/
theorem storeElem_next {e : Elem} {n8 len : Nat} {f : Form} {a : Addr} {v : Word64} {s t : State}
    (h : storeElem e n8 len f a v s = .next t) :
    let ea := s.effectiveAddr f.a67 n8 len a
    let la := s.linear (segmentOf s.mode f.seg a) ea
    s.meetsCode la e.bytes = false ∧ s.admission .write (segmentOf s.mode f.seg a) ea la e.bytes = none ∧
      s.misaligned la e.bytes = false ∧ t = (s.store la v e.bytes).advance len := by
  unfold storeElem at h
  simp only at h ⊢
  split at h
  · simp [refuse] at h
  split at h
  · simp [takeException] at h
  split at h
  · simp [takeException] at h
  simp_all

/-- What `execExtract` can answer with a next state: a register is written, or memory. -/
theorem execExtract_next {e : Elem} {n8 len : Nat} {f : Form} {s t : State}
    (h : execExtract e n8 len f s = .next t) :
    (∃ r, f.dest = .reg r ∧ t = (s.writeGpr r (extract e (s.xmmReg f.src) f.imm8)).advance len) ∨
    (∃ a, f.dest = .mem a ∧ storeElem e n8 len f a (extract e (s.xmmReg f.src) f.imm8) s = .next t) := by
  unfold execExtract at h
  split at h
  · rename_i r hr
    left
    exact ⟨r, hr, by simpa using h.symm⟩
  · rename_i a ha
    exact .inr ⟨a, ha, h⟩

/-- What `exec` can answer with a next state, for every instruction. -/
theorem exec_next {i : Instr} {s t : State} (h : exec i s = .next t) :
    s.Ready i ∧
    ((∃ r, i.form.dest = .reg r ∧
        t = (s.writeGpr r (extract (elemOf i) (s.xmmReg i.form.src) i.form.imm8)).advance i.len) ∨
     (∃ a, i.form.dest = .mem a ∧ s.Lets i a ∧
        t = (s.store (s.laOf i a) (extract (elemOf i) (s.xmmReg i.form.src) i.form.imm8) (elemOf i).bytes).advance i.len)) := by
  rw [exec_eq] at h
  obtain ⟨hw, ho, ht, hx⟩ := runExtract_next h
  refine ⟨⟨hw, (classOn_iff s i).1 ho, ht⟩, ?_⟩
  rcases execExtract_next hx with hr | ⟨a, ha, hs⟩
  · exact .inl hr
  · obtain ⟨h1, h2, h3, h4⟩ := storeElem_next hs
    refine .inr ⟨a, ha, ⟨h1, h2, ?_⟩, h4⟩
    intro hac
    have := (misaligned_iff s _ _).2 hac
    simp only [State.laOf, State.segOf, State.eaOf] at this
    simp [this] at h3

/-- A ready instruction with a register destination writes it. -/
theorem exec_reg {i : Instr} {s : State} {r : GprNum} (hr : s.Ready i) (hd : i.form.dest = .reg r) :
    exec i s = .next ((s.writeGpr r (extract (elemOf i) (s.xmmReg i.form.src) i.form.imm8)).advance i.len) := by
  rw [exec_eq, runExtract_ready (admitted_of_wf hr.wf) hr.wf ((classOn_iff s i).2 hr.on) hr.ts]
  simp [execExtract, hd]

/-- A ready instruction with a memory destination performs `storeElem`. -/
theorem exec_mem {i : Instr} {s : State} {a : Addr} (hr : s.Ready i) (hd : i.form.dest = .mem a) :
    exec i s = storeElem (elemOf i) (disp8N i) i.len i.form a (extract (elemOf i) (s.xmmReg i.form.src) i.form.imm8) s := by
  rw [exec_eq, runExtract_ready (admitted_of_wf hr.wf) hr.wf ((classOn_iff s i).2 hr.on) hr.ts]
  simp [execExtract, hd]

/-- A store that every check lets through is done. -/
theorem exec_mem_lets {i : Instr} {s : State} {a : Addr} (hr : s.Ready i) (hd : i.form.dest = .mem a)
    (hl : s.Lets i a) :
    exec i s = .next ((s.store (s.laOf i a) (extract (elemOf i) (s.xmmReg i.form.src) i.form.imm8)
      (elemOf i).bytes).advance i.len) := by
  rw [exec_mem hr hd]
  have h3 : s.misaligned (s.laOf i a) (elemOf i).bytes = false := by
    cases hm : s.misaligned (s.laOf i a) (elemOf i).bytes
    · rfl
    · exact absurd ((misaligned_iff s _ _).1 hm) hl.aligned
  have h1 := hl.code
  have h2 := hl.admitted
  simp only [State.laOf, State.segOf, State.eaOf] at h1 h2 h3 ⊢
  simp [storeElem, h1, h2, h3]

/-- What `step` can answer with a next state: the instruction at `rip` was executed. -/
theorem step_next {s t : State} (h : step s = .next t) : ∃ i, fetchInstr s = .instr i ∧ exec i s = .next t := by
  unfold step at h
  split at h
  · rename_i i hi
    exact ⟨i, hi, h⟩
  · simp [takeException] at h
  · simp [refuse] at h

/-- An instruction that was fetched was decoded from the admitted bytes at `rip`. -/
theorem fetchInstr_instr {s : State} {i : Instr} (h : fetchInstr s = .instr i) :
    s.mode.admitted = true ∧ ∃ rest, decode s.mode (fetchBytes s Config.maxLen 0).1 = .ok (i, rest) := by
  unfold fetchInstr at h
  split at h
  · simp at h
  · rename_i hm
    simp only at h
    split at h
    · rename_i i' rest hd
      simp only [Fetched.instr.injEq] at h
      subst h
      exact ⟨by simpa using hm, rest, hd⟩
    all_goals simp at h

/-! ## Addresses, the instruction pointer, what an update leaves alone -/

/-- An address of the mode as a number. -/
theorem wrapAddr_toNat (m : Mode) (v : Word64) : (wrapAddr m v).toNat = v.toNat % 2 ^ addrBits m := by
  unfold wrapAddr addrBits
  have := v.isLt
  cases m <;> simp <;> omega

/-- The address of byte `k` of an access as a number. -/
theorem byteAddr_toNat (m : Mode) (la : Word64) (k : Nat) : byteAddr m la k = (la.toNat + k) % 2 ^ addrBits m := by
  unfold byteAddr wrapAddr addrBits
  cases m <;> simp [BitVec.toNat_add] <;> omega

/-- The address of the next instruction as a number. -/
theorem ripNext_toNat (s : State) (len : Nat) : (s.ripNext len).toNat = (s.rip.toNat + len) % 2 ^ addrBits s.mode := by
  unfold State.ripNext wrapAddr addrBits
  cases s.mode <;> simp [BitVec.toNat_add] <;> omega

/-- A register write leaves every other field alone. -/
theorem untouched_writeGpr (s : State) (r : GprNum) (v : Word64) (len : Nat) :
    Untouched s ((s.writeGpr r v).advance len) := by
  constructor <;> simp

/-- A store leaves every other field alone. -/
theorem untouched_store (s : State) (la v : Word64) (n len : Nat) : Untouched s ((s.store la v n).advance len) := by
  constructor <;> simp

/-- A completed step leaves alone every field that no form writes, and moves `rip` by the length of what it fetched. -/
theorem step_next_untouched {s t : State} (h : step s = .next t) :
    Untouched s t ∧ ∃ i, fetchInstr s = .instr i ∧ t.rip = s.ripNext i.len := by
  obtain ⟨i, hi, hx⟩ := step_next h
  obtain ⟨_, ⟨r, _, rfl⟩ | ⟨a, _, _, rfl⟩⟩ := exec_next hx
  · exact ⟨untouched_writeGpr _ _ _ _, i, hi, by simp⟩
  · exact ⟨untouched_store _ _ _ _ _, i, hi, by simp⟩

theorem untouched_refl (s : State) : Untouched s s := ⟨rfl, rfl, rfl, rfl, rfl, rfl, rfl, rfl, rfl, rfl⟩

theorem untouched_trans {s t u : State} (h : Untouched s t) (k : Untouched t u) : Untouched s u :=
  ⟨k.mode.trans h.mode, k.xmm.trans h.xmm, k.rflags.trans h.rflags, k.mxcsr.trans h.mxcsr, k.segbase.trans h.segbase,
    k.cfg.trans h.cfg, k.cpl.trans h.cpl, k.admitTable.trans h.admitTable, k.codeStart.trans h.codeStart,
    k.endAddr.trans h.endAddr⟩

/-- The code region depends on fields that no form writes. -/
theorem inCode_of_untouched {s t : State} (h : Untouched s t) (a : Word64) : t.inCode a = s.inCode a := by
  unfold State.inCode State.segBase
  rw [h.mode, h.codeStart, h.endAddr, h.segbase]

/-! ## Runs -/

/-- The instruction pointer of a launch state as a number. -/
theorem launch_rip_toNat {s : State} (h : s.Launch) : s.rip.toNat = s.codeStart.toNat % 2 ^ addrBits s.mode := by
  rw [show s.rip = wrapAddr s.mode s.codeStart from h, wrapAddr_toNat]

/-- One step more at the end of a run that goes on. -/
theorem continues_snoc {s u v : State} {k : Nat} (h : Continues s k u) (hs : step u = .next v) (he : ¬ v.atEnd) :
    Continues s (k + 1) v := by
  induction k generalizing s with
  | zero => cases h; exact ⟨v, hs, he, rfl⟩
  | succ k ih =>
    obtain ⟨a, h1, h2, h3⟩ := h
    exact ⟨a, h1, h2, ih h3⟩

/-- One instruction more at the end of a list that was run through. -/
theorem runsThrough_snoc {s u t : State} {is : List Instr} {i : Instr} (h : RunsThrough s is u)
    (hi : fetchInstr u = .instr i) (hs : step u = .next t) : RunsThrough s (is ++ [i]) t := by
  induction is generalizing s with
  | nil => cases h; exact ⟨t, hi, hs, rfl⟩
  | cons j js ih =>
    obtain ⟨a, h1, h2, h3⟩ := h
    exact ⟨a, h1, h2, ih h3⟩

/-- A run that goes on has run through a list of as many instructions as it has taken steps. -/
theorem continues_runsThrough {s u : State} {k : Nat} (h : Continues s k u) :
    ∃ is : List Instr, is.length = k ∧ RunsThrough s is u := by
  induction k generalizing s with
  | zero => exact ⟨[], rfl, h⟩
  | succ k ih =>
    obtain ⟨a, ha, _, h⟩ := h
    obtain ⟨is, h1, h2⟩ := ih h
    obtain ⟨i, hi, _⟩ := step_next ha
    exact ⟨i :: is, by simp [h1], a, hi, ha, h2⟩

/-! ## Fetch -/

/-- An admitted byte is fetched, and fetching goes on. -/
theorem fetchBytes_admitted {s : State} {off : Word64} (n : Nat)
    (h : s.admission .fetch .cs (wrapAddr s.mode (s.rip + off)) (s.linear .cs (wrapAddr s.mode (s.rip + off))) 1 = none) :
    fetchBytes s (n + 1) off = (s.mem.read (s.linear .cs (wrapAddr s.mode (s.rip + off))).toNat ::
      (fetchBytes s n (off + 1)).1, (fetchBytes s n (off + 1)).2) := by
  rw [fetchBytes]; simp only [h]

/-- A byte that is not admitted ends the fetch with the fault `Admit` names. -/
theorem fetchBytes_refused {s : State} {off : Word64} {x : Fault} (n : Nat)
    (h : s.admission .fetch .cs (wrapAddr s.mode (s.rip + off)) (s.linear .cs (wrapAddr s.mode (s.rip + off))) 1 = some x) :
    fetchBytes s (n + 1) off = ([], some x) := by
  rw [fetchBytes]; simp only [h]

/-- Fetching `n + k` bytes is fetching `n` and then, where none of them was refused, `k`. -/
theorem fetchBytes_add (s : State) (n k : Nat) (off : Word64) :
    (fetchBytes s (n + k) off).1 = (fetchBytes s n off).1 ++
      (if (fetchBytes s n off).2 = none then (fetchBytes s k (off + BitVec.ofNat 64 n)).1 else []) ∧
    (fetchBytes s (n + k) off).2 = (if (fetchBytes s n off).2 = none then (fetchBytes s k (off + BitVec.ofNat 64 n)).2
      else (fetchBytes s n off).2) := by
  induction n generalizing off with
  | zero => simp [fetchBytes]
  | succ n ih =>
    rw [show n + 1 + k = (n + k) + 1 by omega]
    cases ha : s.admission .fetch .cs (wrapAddr s.mode (s.rip + off)) (s.linear .cs (wrapAddr s.mode (s.rip + off))) 1 with
    | some x => rw [fetchBytes_refused _ ha, fetchBytes_refused _ ha]; simp
    | none =>
      obtain ⟨i1, i2⟩ := ih (off + 1)
      have e : (off + 1 + BitVec.ofNat 64 n : Word64) = off + BitVec.ofNat 64 (n + 1) := by
        apply BitVec.eq_of_toNat_eq; simp [BitVec.toNat_add]; omega
      rw [e] at i1 i2
      rw [fetchBytes_admitted _ ha, fetchBytes_admitted _ ha]
      exact ⟨by simp only [i1]; rfl, i2⟩

end Sys2Proof.Machine
end

