-- ==== Sys2Proof/Laws/PerInstr.lean ====
section
/-! SUPPORT. A statement per instruction: the encoder writes as many bytes as the instruction's length says
(30_encoding.md R114). -/

namespace Sys2Proof.Laws.EncodeLength

/-- The encoding has the instruction's length. -/
def Statement (i : Instr) : Prop := (encode i).length = i.len

theorem disp (d : Disp) : d.bytes.length = d.len := by cases d <;> rfl

theorem dest (d : Dest) (reg : BitVec 3) : (d.bytes reg).length = 1 + d.len := by
  cases d with
  | reg r => rfl
  | mem a => cases a <;> simp [Dest.bytes, Addr.bytes, Dest.len, Addr.len, disp, dwordBytes] <;> omega

theorem pfx (f : Form) : f.pfxBytes.length = f.seg.toList.length + f.a67.toNat := by
  obtain ⟨seg, a67, src, d, imm8⟩ := f
  cases seg <;> cases a67 <;> simp [Form.pfxBytes]

theorem body (f : Form) : f.bodyBytes.length = 1 + f.dest.len + 1 := by simp [Form.bodyBytes, dest]

theorem legacy (op : Byte) (w rex : Bool) (f : Form) : (encodeLegacy op w rex f).length = f.len + 1 + rex.toNat + 3 := by
  cases rex <;> simp [encodeLegacy, legacyBytes, pfx, body, Form.len] <;> omega

theorem vex (op : Byte) (w : Bool) (f : Form) : (encodeVex op w f).length = f.len + 4 := by
  simp [encodeVex, vexBytes, pfx, body, Form.len]; omega

theorem evex (op : Byte) (w : Bool) (f : Form) : (encodeEvex op w f).length = f.len + 5 := by
  simp [encodeEvex, evexBytes, pfx, body, Form.len]; omega

theorem pextrb (rex : Bool) (f : Form) : Statement (.pextrb rex f) := legacy _ _ _ _
theorem pextrd (rex : Bool) (f : Form) : Statement (.pextrd rex f) := legacy _ _ _ _
theorem pextrq (rex : Bool) (f : Form) : Statement (.pextrq rex f) := legacy _ _ _ _
theorem vpextrbVex (f : Form) : Statement (.vpextrbVex f) := vex _ _ _
theorem vpextrdVex (f : Form) : Statement (.vpextrdVex f) := vex _ _ _
theorem vpextrqVex (f : Form) : Statement (.vpextrqVex f) := vex _ _ _
theorem vpextrbEvex (f : Form) : Statement (.vpextrbEvex f) := evex _ _ _
theorem vpextrdEvex (f : Form) : Statement (.vpextrdEvex f) := evex _ _ _
theorem vpextrqEvex (f : Form) : Statement (.vpextrqEvex f) := evex _ _ _

end Sys2Proof.Laws.EncodeLength
end

