-- ==== Sys2Proof/Tests/Slice0.lean ====
section
/-! SUPPORT. The model's own tests. Expected values come from spec/95_test_vectors.md (each test names the section) or
are worked out by hand from the rule a docstring names. The `witness_` theorems show, for each statement of
Sys2Proof/Certificates/Slice0/Obligations.lean that has hypotheses, states and operands that meet them. -/

namespace Sys2Proof.Tests

open Sys2Proof Sys2Proof.Machine

/-! ## Helpers -/

/-- The source value S of 95_test_vectors.md section 2. -/
def src : Xmm := 0xFFEEDDCCBBAA99887766554433221100

/-- The conventions of 95_test_vectors.md section 2, before a program is loaded. -/
def fresh (m : Mode) : State :=
  { State.reset with
    mode := m, rip := 0x400000, xmm := Vector.replicate 32 src, gpr := Vector.replicate 16 { low := 0xFFFFFFFF, high := 0xFFFFFFFF },
    segbase := { es := 0, cs := 0, ss := 0, ds := 0, fs := 0, gs := 0 },
    cfg := { State.reset.cfg with cr4Osfxsr := true, cr4Osxsave := true, xcr0 := 0xE7 } }

/-- The same with these bytes at `rip`. -/
def on (m : Mode) (bs : List Byte) : State := (fresh m).loadProgram bs

/-- `s` with one register set. -/
def setReg (r : GprNum) (v : Word64) (s : State) : State :=
  { s with gpr := s.gpr.set r.toNat { low := v.setWidth 32, high := v.extractLsb' 32 32 } r.isLt }

/-- `s` with alignment checking on. -/
def acOn (s : State) : State := { s with cfg := { s.cfg with cr0Am := true }, rflags := 0x40000, cpl := 3 }

/-- A register after a step. -/
def regOf (r : GprNum) : Host.Outcome State Fault Refusal → Option Nat
  | .next t => some (t.gprVal r)
  | .fault _ => none
  | .refused _ => none

/-- `n` bytes of memory after a step. -/
def memOf (a n : Nat) : Host.Outcome State Fault Refusal → Option (List Byte)
  | .next t => some ((List.range n).map fun k => t.mem.read (a + k))
  | .fault _ => none
  | .refused _ => none

/-- The instruction pointer after a step. -/
def ripOf : Host.Outcome State Fault Refusal → Option Word64
  | .next t => some t.rip
  | .fault _ => none
  | .refused _ => none

/-- The fault a step answers. -/
def faultOf : Host.Outcome State Fault Refusal → Option Fault
  | .next _ => none
  | .fault x => some x
  | .refused _ => none

/-- The refusal a step answers. -/
def refusalOf : Host.Outcome State Fault Refusal → Option Refusal
  | .next _ => none
  | .fault _ => none
  | .refused r => some r

theorem next_of_ripOf {o : Host.Outcome State Fault Refusal} {v : Word64} (h : ripOf o = some v) :
    ∃ t, o = .next t ∧ t.rip = v := by
  cases o with
  | next t => exact ⟨t, rfl, by simpa [ripOf] using h⟩
  | fault x => cases h
  | refused r => cases h

theorem fault_of_faultOf {o : Host.Outcome State Fault Refusal} {x : Fault} (h : faultOf o = some x) : o = .fault x := by
  cases o <;> simp_all [faultOf]

theorem refused_of_refusalOf {o : Host.Outcome State Fault Refusal} {r : Refusal} (h : refusalOf o = some r) :
    o = .refused r := by
  cases o <;> simp_all [refusalOf]

/-- An operand: `xmm src`, register or memory, `imm8`. -/
def form (src : XmmNum) (d : Dest) (imm8 : Byte) : Form := ⟨none, false, src, d, imm8⟩

/-! ## WellFormed refuses -/

/-- A mode outside 00_scope.md R9. -/
theorem test_wf_mode : Instr.wf .realAddress (.pextrb false (form 1 (.reg 0) 5)) = false := by decide
/-- xmm8 in `Mode32`; xmm16 with legacy and VEX (10_state.md R30). -/
theorem test_wf_source : Instr.wf .mode32 (.vpextrdEvex (form 8 (.reg 0) 0)) = false ∧
    Instr.wf .mode64 (.pextrd true (form 16 (.reg 0) 0)) = false ∧
    Instr.wf .mode64 (.vpextrdVex (form 16 (.reg 0) 0)) = false := by decide
/-- r8 in `Mode32`, as register, base and index (10_state.md R22). -/
theorem test_wf_register : Instr.wf .mode32 (.pextrd false (form 1 (.reg 8) 0)) = false ∧
    Instr.wf .mode32 (.pextrd false (form 1 (.mem (.base 8 .none)) 0)) = false ∧
    Instr.wf .mode32 (.pextrd false (form 1 (.mem (.sib 8 none 0 .none)) 0)) = false ∧
    Instr.wf .mode32 (.pextrd false (form 1 (.mem (.sibNoBase (some 8) 0 0)) 0)) = false := by decide
/-- Index number 0100b (30_encoding.md R109). -/
theorem test_wf_index : Instr.wf .mode64 (.pextrd true (form 1 (.mem (.sib 0 (some 4) 0 .none)) 0)) = false := by decide
/-- A base 100b without SIB, a base 101b without displacement (30_encoding.md R108, R109). -/
theorem test_wf_base : Instr.wf .mode64 (.pextrd true (form 1 (.mem (.base 12 .none)) 0)) = false ∧
    Instr.wf .mode64 (.pextrd true (form 1 (.mem (.base 13 .none)) 0)) = false ∧
    Instr.wf .mode64 (.pextrd true (form 1 (.mem (.sib 5 none 0 .none)) 0)) = false := by decide
/-- 67H and memory in `Mode32` (30_encoding.md R88). -/
theorem test_wf_addr16 :
    Instr.wf .mode32 (.pextrd false { form 1 (.mem (.disp32 0)) 0 with a67 := true }) = false := by decide
/-- REX in `Mode32`; no REX where a register needs one; PEXTRQ without REX (30_encoding.md R90, R92). -/
theorem test_wf_rex : Instr.wf .mode32 (.pextrb true (form 1 (.reg 0) 5)) = false ∧
    Instr.wf .mode64 (.pextrb false (form 1 (.reg 8) 5)) = false ∧
    Instr.wf .mode64 (.pextrb false (form 8 (.reg 0) 5)) = false ∧
    Instr.wf .mode64 (.pextrq false (form 1 (.reg 0) 5)) = false := by decide
/-- A qword form in `Mode32` (30_encoding.md R115). -/
theorem test_wf_qword : Instr.wf .mode32 (.pextrq true (form 1 (.reg 0) 1)) = false ∧
    Instr.wf .mode32 (.vpextrqVex (form 1 (.reg 0) 1)) = false ∧
    Instr.wf .mode32 (.vpextrqEvex (form 1 (.reg 0) 1)) = false := by decide

/-! ## Decoding words written out from the spec's encodings -/

/-- `pextrb fs:[r12d-80H], xmm15, 5`: REX 45H has R and B set, SIB 24H has base 100b and no index (30_encoding.md R92, R108,
R109). -/
theorem test_decode_pextrb :
    decode .mode64 [0x64, 0x67, 0x66, 0x45, 0x0F, 0x3A, 0x14, 0x7C, 0x24, 0x80, 0x05] =
      .ok (.pextrb true ⟨some .fs, true, 15, .mem (.sib 12 none 0 (.d8 0x80)), 5⟩, []) := by decide
/-- ModRM 84H, SIB 8BH: rm = 100b, scale 10b, index 001b, base 011b, disp32 little-endian. -/
theorem test_decode_pextrd :
    decode .mode32 [0x66, 0x0F, 0x3A, 0x16, 0x84, 0x8B, 0x78, 0x56, 0x34, 0x12, 0x02, 0x99] =
      .ok (.pextrd false (form 0 (.mem (.sib 3 (some 1) 2 (.d32 0x12345678))) 2), [0x99]) := by decide
/-- REX 4DH: W, R and B set; mod 00b, rm 101b is RIP-relative with B ignored (30_encoding.md R108, R117). -/
theorem test_decode_pextrq :
    decode .mode64 [0x66, 0x4D, 0x0F, 0x3A, 0x16, 0x1D, 0x10, 0x00, 0x00, 0x00, 0x01] =
      .ok (.pextrq true (form 11 (.mem (.disp32 0x10)) 1), []) := by decide
/-- C4 43 79: R̄ = 0, X̄ = 1, B̄ = 0; the W bit of the byte form is ignored. -/
theorem test_decode_vpextrbVex :
    decode .mode64 [0xC4, 0x43, 0xF9, 0x14, 0xC1, 0x0F] = .ok (.vpextrbVex (form 8 (.reg 9) 15), []) := by decide
/-- In `Mode32` VEX.W is ignored for opcode 16H (30_encoding.md R115). -/
theorem test_decode_vpextrdVex :
    decode .mode32 [0xC4, 0xE3, 0xF9, 0x16, 0xC8, 0x03] = .ok (.vpextrdVex (form 1 (.reg 0) 3), []) := by decide
/-- V1 = A3H is 10100011b: R̄ = 1, X̄ = 0, B̄ = 1; SIB 35H has index 110b and base 101b. -/
theorem test_decode_vpextrqVex :
    decode .mode64 [0xC4, 0xA3, 0xF9, 0x16, 0x04, 0x35, 0x01, 0x00, 0x00, 0x00, 0x01] =
      .ok (.vpextrqVex (form 0 (.mem (.sibNoBase (some 14) 0 1)) 1), []) := by decide
/-- 62 E3: R̄' = 0, so the source is xmm20; disp8 kept unscaled (95_test_vectors.md section 9, program 2). -/
theorem test_decode_vpextrbEvex :
    decode .mode64 [0x62, 0xE3, 0x7D, 0x08, 0x14, 0x63, 0x03, 0x07] =
      .ok (.vpextrbEvex (form 20 (.mem (.base 3 (.d8 3))) 7), []) := by decide
/-- 95_test_vectors.md section 9, program 3. -/
theorem test_decode_vpextrdEvex :
    decode .mode32 [0x62, 0xF3, 0x7D, 0x08, 0x16, 0x77, 0x02, 0x03] =
      .ok (.vpextrdEvex (form 6 (.mem (.base 7 (.d8 2))) 3), []) := by decide
/-- 95_test_vectors.md section 9, program 2. -/
theorem test_decode_vpextrqEvex :
    decode .mode64 [0x62, 0xC3, 0xFD, 0x08, 0x16, 0xC7, 0x01] = .ok (.vpextrqEvex (form 16 (.reg 15) 1), []) := by decide

/-- The `match` words of spec/opcode_table.json, with the windows of 30_encoding.md R120 (log 11). -/
theorem test_table_words :
    decodeTableWord 32 0x00F3A14 = some (.pextrb false (form 0 (.mem (.base 0 .none)) 0)) ∧
    decodeTableWord 32 0x00F3A16 = some (.pextrd false (form 0 (.mem (.base 0 .none)) 0)) ∧
    decodeTableWord 32 0x10F3A16 = some (.pextrq true (form 0 (.mem (.base 0 .none)) 0)) ∧
    decodeTableWord 32 0xC4037914 = some (.vpextrbVex (form 8 (.mem (.base 8 .none)) 0)) ∧
    decodeTableWord 32 0xC4037916 = some (.vpextrdVex (form 8 (.mem (.base 8 .none)) 0)) ∧
    decodeTableWord 32 0xC403F916 = some (.vpextrqVex (form 8 (.mem (.base 8 .none)) 0)) ∧
    decodeTableWord 40 0x62037D0814 = some (.vpextrbEvex (form 24 (.mem (.base 8 .none)) 0)) ∧
    decodeTableWord 40 0x62037D0816 = some (.vpextrdEvex (form 24 (.mem (.base 8 .none)) 0)) ∧
    decodeTableWord 40 0x6203FD0816 = some (.vpextrqEvex (form 24 (.mem (.base 8 .none)) 0)) := by decide

/-- The same windows with a ModRM byte after them (the `encoding` strings of the table). -/
theorem test_table_words_modrm :
    decodeTableWord 40 0x0F3A14C8 = some (.pextrb false (form 1 (.reg 0) 0)) ∧
    decodeTableWord 40 0x10F3A16C8 = some (.pextrq true (form 1 (.reg 0) 0)) ∧
    decodeTableWord 40 0xC4E37916C8 = some (.vpextrdVex (form 1 (.reg 0) 0)) ∧
    decodeTableWord 48 0x62F3FD0816C8 = some (.vpextrqEvex (form 1 (.reg 0) 0)) := by decide

/-- `step` fetches exactly that instruction after `withFetchWord`. -/
theorem test_fetch_words :
    fetchInstr (State.reset.withFetchWord 32 0x00F3A14) = .instr (.pextrb false (form 0 (.mem (.base 0 .none)) 0)) ∧
    fetchInstr (State.reset.withFetchWord 32 0xC403F916) = .instr (.vpextrqVex (form 8 (.mem (.base 8 .none)) 0)) ∧
    fetchInstr (State.reset.withFetchWord 40 0x6203FD0816) =
      .instr (.vpextrqEvex (form 24 (.mem (.base 8 .none)) 0)) := by decide

/-- It completes as the first instruction after reset: eight zero bytes at 0 through RAX = 0, six bytes further. -/
theorem test_fetch_word_runs : ripOf (step (State.reset.withFetchWord 32 0x10F3A16)) = some 0xFFF7 := by decide

/-! ## One register and one memory test per instruction (95_test_vectors.md sections 3 to 5 and 8) -/

theorem test_pextrb_reg : regOf 0 (step (on .mode64 [0x66, 0x0F, 0x3A, 0x14, 0xC8, 0x05])) = some 0x55 := by decide
theorem test_pextrb_mem : memOf 0x1000 3 (step (acOn (setReg 3 0x1001 (on .mode64 [0x66, 0x0F, 0x3A, 0x14, 0x03, 0x01]))))
    = some [0, 0x11, 0] := by decide
theorem test_pextrd_reg : regOf 0 (step (on .mode32 [0x66, 0x0F, 0x3A, 0x16, 0xC8, 0x06])) = some 0xBBAA9988 := by decide
theorem test_pextrd_mem : memOf 0x1003 6 (step (acOn (setReg 3 0x1004 (on .mode64 [0x66, 0x0F, 0x3A, 0x16, 0x03, 0x01]))))
    = some [0, 0x44, 0x55, 0x66, 0x77, 0] := by decide
theorem test_pextrq_reg : regOf 0 (step (on .mode64 [0x66, 0x48, 0x0F, 0x3A, 0x16, 0xC8, 0x03])) =
    some 0xFFEEDDCCBBAA9988 := by decide
theorem test_pextrq_mem :
    memOf 0x1008 8 (step (acOn (setReg 3 0x1008 (on .mode64 [0x66, 0x48, 0x0F, 0x3A, 0x16, 0x03, 0x01])))) =
      some [0x88, 0x99, 0xAA, 0xBB, 0xCC, 0xDD, 0xEE, 0xFF] := by decide
theorem test_vpextrbVex_reg : regOf 0 (step (on .mode64 [0xC4, 0xE3, 0x79, 0x14, 0xC8, 0x1F])) = some 0xFF := by decide
/-- RIP-relative: 400000H + 10 + 10H (30_encoding.md R111). -/
theorem test_vpextrbVex_mem :
    memOf 0x400019 3 (step (on .mode64 [0xC4, 0xE3, 0x79, 0x14, 0x05, 0x10, 0x00, 0x00, 0x00, 0x05])) =
      some [0, 0x55, 0] := by decide
theorem test_vpextrdVex_reg : regOf 0 (step (on .mode64 [0xC4, 0xE3, 0x79, 0x16, 0xC8, 0x02])) = some 0xBBAA9988 := by
  decide
/-- A one-byte displacement of a VEX form is not scaled: 1000H - 4 (30_encoding.md R110). -/
theorem test_vpextrdVex_mem :
    memOf 0xFFC 4 (step (setReg 3 0x1000 (on .mode32 [0xC4, 0xE3, 0x79, 0x16, 0x43, 0xFC, 0x00]))) =
      some [0x00, 0x11, 0x22, 0x33] := by decide
theorem test_vpextrqVex_reg : regOf 0 (step (on .mode64 [0xC4, 0xE3, 0xF9, 0x16, 0xC8, 0x00])) =
    some 0x7766554433221100 := by decide
/-- 95_test_vectors.md section 9, program 2, step 2. -/
theorem test_vpextrqVex_mem : memOf 0x4000 8 (step (setReg 8 0x4000 (on .mode64 [0xC4, 0x43, 0xF9, 0x16, 0x20, 0x00]))) =
    some [0x00, 0x11, 0x22, 0x33, 0x44, 0x55, 0x66, 0x77] := by decide
theorem test_vpextrbEvex_reg : regOf 0 (step (on .mode64 [0x62, 0xE3, 0x7D, 0x08, 0x14, 0xC8, 0x05])) = some 0x55 := by
  decide
theorem test_vpextrbEvex_mem :
    memOf 0x1003 1 (step (setReg 3 0x1000 (on .mode64 [0x62, 0xE3, 0x7D, 0x08, 0x14, 0x63, 0x03, 0x07]))) =
      some [0x77] := by decide
theorem test_vpextrdEvex_reg : regOf 0 (step (on .mode64 [0x62, 0xF3, 0x7D, 0x08, 0x16, 0xC8, 0x02])) =
    some 0xBBAA9988 := by decide
/-- 95_test_vectors.md section 9, program 3, step 4: disp8 02H times 4. -/
theorem test_vpextrdEvex_mem :
    memOf 0x2008 4 (step (setReg 7 0x2000 (on .mode32 [0x62, 0xF3, 0x7D, 0x08, 0x16, 0x77, 0x02, 0x03]))) =
      some [0xCC, 0xDD, 0xEE, 0xFF] := by decide
theorem test_vpextrqEvex_reg : regOf 15 (step (on .mode64 [0x62, 0xC3, 0xFD, 0x08, 0x16, 0xC7, 0x01])) =
    some 0xFFEEDDCCBBAA9988 := by decide
/-- disp8 FFH times 8 (30_encoding.md R110). -/
theorem test_vpextrqEvex_mem :
    memOf 0xFF8 8 (step (setReg 3 0x1000 (on .mode64 [0x62, 0xF3, 0xFD, 0x08, 0x16, 0x43, 0xFF, 0x00]))) =
      some [0x00, 0x11, 0x22, 0x33, 0x44, 0x55, 0x66, 0x77] := by decide

/-! ## Faults, refusals, wrap (95_test_vectors.md sections 6 to 8) -/

/-- Section 7, the legacy rows. -/
theorem test_faults_legacy :
    let s := on .mode64 [0x66, 0x0F, 0x3A, 0x14, 0xC8, 0x05]
    faultOf (step { s with cfg := { s.cfg with cr0Em := true } }) = some .ud ∧
    faultOf (step { s with cfg := { s.cfg with cr4Osfxsr := false } }) = some .ud ∧
    faultOf (step { s with cfg := { s.cfg with cpuid := { s.cfg.cpuid with sse41 := false } } }) = some .ud ∧
    faultOf (step { s with cfg := { s.cfg with cr0Ts := true } }) = some .nm ∧
    faultOf (step { s with cfg := { s.cfg with cr0Ts := true, cr0Em := true } }) = some .ud ∧
    regOf 0 (step { s with
      cfg := { s.cfg with cr4Osxsave := false, xcr0 := 0, cpuid := { s.cfg.cpuid with avx := false } } }) = some 0x55 := by decide

/-- Section 7, the VEX rows. -/
theorem test_faults_vex :
    let s := on .mode64 [0xC4, 0xE3, 0x79, 0x14, 0xC8, 0x05]
    faultOf (step { s with cfg := { s.cfg with cr4Osxsave := false } }) = some .ud ∧
    faultOf (step { s with cfg := { s.cfg with xcr0 := 3 } }) = some .ud ∧
    faultOf (step { s with cfg := { s.cfg with cpuid := { s.cfg.cpuid with avx := false } } }) = some .ud ∧
    faultOf (step { s with cfg := { s.cfg with cr0Ts := true } }) = some .nm ∧
    regOf 0 (step { s with
      cfg := { s.cfg with cr0Em := true, cr4Osfxsr := false, cpuid := { s.cfg.cpuid with sse41 := false } } }) = some 0x55 ∧
    regOf 0 (step { s with
      cfg := { s.cfg with
        xcr0 := 7, cpuid := { s.cfg.cpuid with avx512f := false, avx512bw := false, avx512dq := false } } }) = some 0x55 := by decide

/-- Section 7, the EVEX rows. -/
theorem test_faults_evex :
    let b := on .mode64 [0x62, 0xF3, 0x7D, 0x08, 0x14, 0xC8, 0x05]
    let d := on .mode64 [0x62, 0xF3, 0x7D, 0x08, 0x16, 0xC8, 0x02]
    faultOf (step { b with cfg := { b.cfg with xcr0 := 7 } }) = some .ud ∧
    faultOf (step { b with cfg := { b.cfg with cpuid := { b.cfg.cpuid with avx512bw := false } } }) = some .ud ∧
    regOf 0 (step { b with cfg := { b.cfg with cpuid := { b.cfg.cpuid with avx512dq := false } } }) = some 0x55 ∧
    faultOf (step { d with cfg := { d.cfg with cpuid := { d.cfg.cpuid with avx512dq := false } } }) = some .ud ∧
    regOf 0 (step { d with cfg := { d.cfg with cpuid := { d.cfg.cpuid with avx512bw := false } } }) = some 0xBBAA9988 ∧
    faultOf (step { d with cfg := { d.cfg with cpuid := { d.cfg.cpuid with avx512f := false } } }) = some .ud ∧
    faultOf (step { d with cfg := { d.cfg with cr4Osxsave := false } }) = some .ud ∧
    faultOf (step { d with cfg := { d.cfg with cr0Ts := true } }) = some .nm ∧
    regOf 0 (step { d with cfg := { d.cfg with cpuid := { d.cfg.cpuid with avx := false } } }) = some 0xBBAA9988 := by
  decide

/-- `pextrd [rbx], xmm0, 1`. -/
def storeD : State := on .mode64 [0x66, 0x0F, 0x3A, 0x16, 0x03, 0x01]

/-- An entry of the admission table for writes through any segment at effective addresses `lo` to `hi`. -/
def denyWrite (lo hi : Word64) (x : AdmitFault) : AdmitEntry :=
  { kind := .write, seg := none, eaLo := lo, eaHi := hi, laLo := 0, laHi := 0xFFFFFFFFFFFFFFFF, n := none, cpl := none,
    answer := some x }

/-- Section 8, alignment checking. -/
theorem test_alignment :
    faultOf (step (acOn (setReg 3 0x1001 storeD))) = some .ac ∧
    faultOf (step (acOn (setReg 3 0x1004 (on .mode64 [0x66, 0x48, 0x0F, 0x3A, 0x16, 0x03, 0x01])))) = some .ac ∧
    memOf 0x1001 4 (step { acOn (setReg 3 0x1001 storeD) with cpl := 0 }) = some [0x44, 0x55, 0x66, 0x77] ∧
    memOf 0x1001 4 (step { acOn (setReg 3 0x1001 storeD) with rflags := 2 }) = some [0x44, 0x55, 0x66, 0x77] := by decide

/-- Section 8, the faults that `Admit` names: #GP, #SS through RSP, #PF with code 2, #PF with code 6 before #AC. -/
theorem test_admission :
    faultOf (step { setReg 3 0x8000000000000000 storeD with
      admitTable := [denyWrite 0x800000000000 0xFFFF7FFFFFFFFFFF .ss, denyWrite 0x800000000000 0xFFFF7FFFFFFFFFFF .gp] })
      = some .gp ∧
    faultOf (step { setReg 4 0x8000000000000000 (on .mode64 [0x66, 0x0F, 0x3A, 0x16, 0x04, 0x24, 0x01]) with
      admitTable := [denyWrite 0x800000000000 0xFFFF7FFFFFFFFFFF .ss, denyWrite 0x800000000000 0xFFFF7FFFFFFFFFFF .gp] })
      = some .ss ∧
    faultOf (step { setReg 3 0x5000 storeD with admitTable := [denyWrite 0x5000 0x5FFF (.pf false false false 0)] })
      = some (.pf 2 0x5000) ∧
    faultOf (step { acOn (setReg 3 0x1001 storeD) with admitTable := [denyWrite 0x1000 0x1FFF (.pf false true false 0)] })
      = some (.pf 6 0x1001) := by decide

/-- Section 8, the code region [400000H, 400006H). -/
theorem test_smc :
    refusalOf (step (setReg 3 0x400002 storeD)) = some (.reason .smc) ∧
    refusalOf (step (setReg 3 0x3FFFFD storeD)) = some (.reason .smc) ∧
    memOf 0x3FFFFC 4 (step (setReg 3 0x3FFFFC storeD)) = some [0x44, 0x55, 0x66, 0x77] ∧
    memOf 0x400006 4 (step (setReg 3 0x400006 storeD)) = some [0x44, 0x55, 0x66, 0x77] := by decide

/-- Section 8, the instruction pointer wraps. -/
theorem test_rip_wraps :
    ripOf (step (State.loadProgram { fresh .mode32 with rip := 0xFFFFFFFA } [0x66, 0x0F, 0x3A, 0x14, 0xC8, 0x05]))
      = some 0 ∧
    ripOf (step (State.loadProgram { fresh .mode64 with rip := 0xFFFFFFFFFFFFFFFA } [0x66, 0x0F, 0x3A, 0x14, 0xC8, 0x05]))
      = some 0 := by decide

/-- Section 9, program 5, step 2: VEX.L = 1. -/
theorem test_vex_l : faultOf (step (on .mode64 [0xC4, 0xE3, 0x7D, 0x16, 0xCA, 0x00])) = some .ud := by decide

/-- A fetch that `Admit` refuses raises the fault it names (20_memory.md R70), a page fault with the fetch bit (R194). -/
theorem test_fetch_fault :
    faultOf (step { storeD with admitTable := [{ denyWrite 0x400005 0x400005 (.pf false true false 0) with kind := .fetch }] })
      = some (.pf 0x14 0x400005) := by decide

/-! ## Witnesses: decoding -/

/-- DecodeOfEncode: every constructor, at the ends of the register ranges and with every addressing form. -/
theorem witness_DecodeOfEncode :
    Instr.wf .mode32 (.pextrb false (form 7 (.reg 7) 255)) = true ∧
    Instr.wf .mode64 (.pextrb true (form 15 (.reg 15) 0)) = true ∧
    Instr.wf .mode32 (.pextrd false (form 7 (.mem (.sib 4 none 3 .none)) 0)) = true ∧
    Instr.wf .mode64 (.pextrd true (form 15 (.mem (.sib 13 (some 15) 3 (.d8 0x80))) 0)) = true ∧
    Instr.wf .mode64 (.pextrq true ⟨some .gs, true, 0, .mem (.base 13 (.d32 0xFFFFFFFF)), 0⟩) = true ∧
    Instr.wf .mode32 (.vpextrbVex ⟨some .cs, true, 7, .reg 0, 0⟩) = true ∧
    Instr.wf .mode64 (.vpextrdVex (form 15 (.mem (.sibNoBase (some 12) 1 0x80000000)) 0)) = true ∧
    Instr.wf .mode64 (.vpextrqVex (form 15 (.mem (.disp32 0)) 0)) = true ∧
    Instr.wf .mode64 (.vpextrbEvex (form 31 (.reg 15) 0)) = true ∧
    Instr.wf .mode32 (.vpextrdEvex (form 7 (.mem (.disp32 0)) 0)) = true ∧
    Instr.wf .mode64 (.vpextrqEvex (form 31 (.mem (.sib 15 (some 15) 0 (.d8 1))) 0)) = true := by decide

/-- DecodedIsWellFormed, DecodeConsumesItsLength, DecodeReadsOnlyWhatItNeeds: the shortest (6 bytes) and the longest (14
bytes) instruction, and an error other than `more`. -/
theorem witness_DecodeConsumesItsLength :
    decode .mode64 [0x66, 0x0F, 0x3A, 0x14, 0xC8, 0x05] = .ok (.pextrb false (form 1 (.reg 0) 5), []) ∧
    decode .mode64 [0x64, 0x67, 0x66, 0x48, 0x0F, 0x3A, 0x16, 0x84, 0x24, 1, 2, 3, 4, 5] =
      .ok (.pextrq true ⟨some .fs, true, 0, .mem (.sib 4 none 0 (.d32 0x04030201)), 5⟩, []) ∧
    decode .mode64 [0x90] = .error (.refuse .notInScope) := by decide

/-- IgnoredWChangesNothing: each clause. -/
theorem witness_IgnoredWChangesNothing :
    decode .mode64 ([0x66] ++ 0x48 :: 0x0F :: 0x3A :: 0x14 :: [0xC8, 5]) = .ok (.pextrb true (form 1 (.reg 0) 5), []) ∧
    decode .mode32 ([] ++ 0xC4 :: 0xE3 :: 0x79 :: 0x16 :: [0xC8, 5]) = .ok (.vpextrdVex (form 1 (.reg 0) 5), []) ∧
    decode .mode64 ([] ++ 0xC4 :: 0xE3 :: 0x79 :: 0x14 :: [0xC8, 5]) = .ok (.vpextrbVex (form 1 (.reg 0) 5), []) ∧
    decode .mode32 ([] ++ 0x62 :: 0xF3 :: 0x7D :: 0x08 :: 0x16 :: [0xC8, 5]) =
      .ok (.vpextrdEvex (form 1 (.reg 0) 5), []) := by decide

/-- VexReservedFieldsInvalid: V1 = E3H; V2 = 7DH (L = 1), V2 = 71H (vvvv = 1110b). -/
theorem witness_VexReservedFieldsInvalid :
    (0xE3 : Byte).extractLsb' 0 5 = 3#5 ∧ (0xE3 : Byte).extractLsb' 5 3 = 7#3 ∧
    (0x7D : Byte).extractLsb' 0 2 = 1#2 ∧ (0x7D : Byte).getLsbD 2 = true ∧
    (0x71 : Byte).extractLsb' 0 2 = 1#2 ∧ (0x71 : Byte).extractLsb' 3 4 ≠ 15#4 := by decide

/-- EvexReservedFieldsInvalid: P0 = F3H; P1 = 7DH with P2 = 28H (L'L = 01b), P1 = 75H (vvvv = 1110b) with P2 = 08H. -/
theorem witness_EvexReservedFieldsInvalid :
    (0xF3 : Byte).extractLsb' 0 4 = 3#4 ∧ (0xF3 : Byte).extractLsb' 4 4 = 15#4 ∧ (0xF3 : Byte).getLsbD 6 = true ∧
    (0x7D : Byte).extractLsb' 0 3 = 5#3 ∧ (0x75 : Byte).extractLsb' 0 3 = 5#3 ∧ (0x75 : Byte).extractLsb' 3 4 ≠ 15#4 ∧
    (0x28 : Byte).getLsbD 7 = false ∧ (0x28 : Byte).extractLsb' 0 5 = 8#5 ∧ (0x28 : Byte).extractLsb' 5 2 ≠ 0#2 ∧
    (0x08 : Byte).getLsbD 7 = false ∧ (0x08 : Byte).extractLsb' 0 5 = 8#5 := by decide

/-- LockIsInvalid, RepBeforeLegacyRefused (each of the three instructions), PrefixBeforeVexOrEvexInvalid. -/
theorem witness_prefix_statements :
    (∀ b ∈ [(0x66 : Byte)], (pfxByte? b).isSome = true) ∧
    decode .mode32 ([0x66] ++ [0x0F, 0x3A, 0x14, 0xC8, 0x05]) = .ok (.pextrb false (form 1 (.reg 0) 5), []) ∧
    decode .mode32 ([0x66] ++ [0x0F, 0x3A, 0x16, 0xC8, 0x05]) = .ok (.pextrd false (form 1 (.reg 0) 5), []) ∧
    decode .mode64 ([0x66] ++ [0x48, 0x0F, 0x3A, 0x16, 0xC8, 0x05]) = .ok (.pextrq true (form 1 (.reg 0) 5), []) ∧
    decode .mode64 ([0x2E] ++ 0xC4 :: [0xE3, 0x79, 0x16, 0xC8, 0x02]) =
      .ok (.vpextrdVex ⟨some .cs, false, 1, .reg 0, 2⟩, []) ∧
    decode .mode64 ([] ++ 0x62 :: [0xF3, 0x7D, 0x08, 0x16, 0xC8, 0x02]) = .ok (.vpextrdEvex (form 1 (.reg 0) 2), []) ∧
    (0x48 : Byte).extractLsb' 4 4 = 4#4 := by decide

/-- RepeatedPrefixRefused: a prefix twice, two overrides; RexNotLastRefused: a prefix or a second REX byte after REX. -/
theorem witness_RepeatedPrefixRefused :
    (∀ b ∈ [(0x66 : Byte), 0x66], (pfxByte? b).isSome = true) ∧ ¬ [(0x66 : Byte), 0x66].Nodup ∧
    (∀ b ∈ [segByte .es, segByte .gs], (pfxByte? b).isSome = true) ∧ Seg.es ≠ Seg.gs ∧
    (0x40 : Byte).extractLsb' 4 4 = 4#4 ∧ (pfxByte? 0x66).isSome = true ∧ (0x4F : Byte).extractLsb' 4 4 = 4#4 := by decide

/-- EvexReservedAndUnusedFieldsRefused: P0 = F7H (P0[3:2] = 01b), P1 = 79H (P1[2] = 0); then aaa = 001b, z = 1, b = 1, V̄' = 0. -/
theorem witness_EvexReservedAndUnusedFieldsRefused :
    (0xF7 : Byte).extractLsb' 6 2 = 3#2 ∧ (0xF7 : Byte).extractLsb' 0 2 = 3#2 ∧ (0xF7 : Byte).extractLsb' 2 2 ≠ 0#2 ∧
    (0x79 : Byte).extractLsb' 0 2 = 1#2 ∧ (0x79 : Byte).getLsbD 2 = false ∧
    (0xF3 : Byte).extractLsb' 2 2 = 0#2 ∧ (0x7D : Byte).getLsbD 2 = true ∧ (0x09 : Byte).extractLsb' 0 3 ≠ 0#3 ∧
    (0x88 : Byte).getLsbD 7 = true ∧ (0x18 : Byte).getLsbD 4 = true ∧ (0x00 : Byte).getLsbD 3 = false := by decide

/-- ES override, 67H, 66H, LOCK and REPNE together, in an unusual order: accepted. -/
theorem accepted_all : AcceptedPrefixes [0x67, 0x26, 0xF2, 0x66, 0xF0] :=
  ⟨by decide, by decide, by intro a b; cases a <;> cases b <;> decide, by decide⟩

theorem accepted_none : AcceptedPrefixes [] := ⟨by decide, by decide, by intro a b; cases a <;> cases b <;> decide, by decide⟩

theorem accepted_66_67 : AcceptedPrefixes [0x66, 0x67] :=
  ⟨by decide, by decide, by intro a b; cases a <;> cases b <;> decide, by decide⟩

theorem accepted_gs_67 : AcceptedPrefixes [0x65, 0x67] :=
  ⟨by decide, by decide, by intro a b; cases a <;> cases b <;> decide, by decide⟩

/-- ExtensionBitsAndAddr16Refused, the first two clauses: V1 = C3H, V2 = 7DH; P0 = D3H (B̄ = 0) and E3H (R̄' = 0), P1 = 75H,
P2 = 28H; P0 = B3H (X̄ = 0) with ModRM C0H. -/
theorem witness_ExtensionBitsRefused :
    ((0xC3 : Byte).extractLsb' 6 2 = 3#2 ∧ (0xC3 : Byte).getLsbD 5 = false ∧ (0xC3 : Byte).extractLsb' 0 5 = 3#5 ∧
      (0x7D : Byte).extractLsb' 0 2 = 1#2) ∧
    ((0xD3 : Byte).extractLsb' 6 2 = 3#2 ∧ (0xD3 : Byte).getLsbD 5 = false ∧ (0xD3 : Byte).extractLsb' 0 4 = 3#4 ∧
      (0xE3 : Byte).extractLsb' 6 2 = 3#2 ∧ (0xE3 : Byte).getLsbD 4 = false ∧ (0xE3 : Byte).extractLsb' 0 4 = 3#4 ∧
      (0x75 : Byte).extractLsb' 0 3 = 5#3 ∧ (0x28 : Byte).getLsbD 7 = false ∧ (0x28 : Byte).extractLsb' 0 5 = 8#5) ∧
    ((0xB3 : Byte).getLsbD 6 = false ∧ (0xC0 : Byte).extractLsb' 6 2 = 3#2 ∧ (0xB3 : Byte).extractLsb' 0 4 = 3#4) := by decide

/-- ExtensionBitsAndAddr16Refused, the other two: 66 67 before a legacy form, 65 67 before VEX and EVEX, ModRM 03H and BFH; and
register destinations of each class. -/
theorem witness_Addr16Refused :
    ((0x67 : Byte) ∈ [(0x66 : Byte), 0x67] ∧ (0x66 : Byte) ∈ [(0x66 : Byte), 0x67] ∧ (0xF0 : Byte) ∉ [(0x66 : Byte), 0x67] ∧
      (0xF2 : Byte) ∉ [(0x66 : Byte), 0x67] ∧ (0xF3 : Byte) ∉ [(0x66 : Byte), 0x67]) ∧
    ((0x67 : Byte) ∈ [(0x65 : Byte), 0x67] ∧ (0x66 : Byte) ∉ [(0x65 : Byte), 0x67] ∧ (0xF0 : Byte) ∉ [(0x65 : Byte), 0x67] ∧
      (0xF2 : Byte) ∉ [(0x65 : Byte), 0x67] ∧ (0xF3 : Byte) ∉ [(0x65 : Byte), 0x67]) ∧
    (0x03 : Byte).extractLsb' 6 2 ≠ 3#2 ∧ (0xBF : Byte).extractLsb' 6 2 ≠ 3#2 ∧
    (0xF9 : Byte).extractLsb' 0 7 = 0x79#7 ∧ (0xFD : Byte).extractLsb' 0 7 = 0x7D#7 ∧
    decode .mode32 ([0x66] ++ [0x0F, 0x3A, 0x14, 0xC8, 0x05]) = .ok (.pextrb false (form 1 (.reg 0) 5), []) ∧
    decode .mode32 ([] ++ [0xC4, 0xE3, 0x79, 0x16, 0xC8, 0x05]) = .ok (.vpextrdVex (form 1 (.reg 0) 5), []) ∧
    decode .mode32 ([] ++ [0x62, 0xF3, 0x7D, 0x08, 0x16, 0xC8, 0x05]) = .ok (.vpextrdEvex (form 1 (.reg 0) 5), []) := by decide

/-- NotOneOfTheFormsRefused: C5H and, in `Mode32`, 40H at the opcode position; 0F 38; 0F 3A 15; no 66H; C4H and 62H before a byte
below C0H; V1 = E2H, V2 = 78H, opcode 17H; P0 = F2H, P1 = 7CH; a REX byte. -/
theorem witness_NotOneOfTheFormsRefused :
    (pfxByte? 0xC5 = none ∧ (0xC5 : Byte).extractLsb' 4 4 ≠ 4#4 ∧ (0xC5 : Byte) ≠ 0x0F ∧ (0xC5 : Byte) ≠ 0xC4 ∧ (0xC5 : Byte) ≠ 0x62) ∧
    (pfxByte? 0x40 = none ∧ (0x40 : Byte) ≠ 0x0F ∧ (0x40 : Byte) ≠ 0xC4 ∧ (0x40 : Byte) ≠ 0x62 ∧ Mode.mode32 ≠ .mode64) ∧
    (0x38 : Byte) ≠ 0x3A ∧ ((0x15 : Byte) ≠ 0x14 ∧ (0x15 : Byte) ≠ 0x16) ∧ (0x66 : Byte) ∉ [(0x65 : Byte), 0x67] ∧
    (0xBF : Byte).extractLsb' 6 2 ≠ 3#2 ∧
    ((0xE2 : Byte).extractLsb' 0 5 ≠ 3#5 ∧ (0x78 : Byte).extractLsb' 0 2 ≠ 1#2 ∧ (0x17 : Byte) ≠ 0x14 ∧ (0x17 : Byte) ≠ 0x16) ∧
    ((0xF2 : Byte).extractLsb' 0 2 ≠ 3#2 ∧ (0x7C : Byte).extractLsb' 0 2 ≠ 1#2) ∧
    (0x48 : Byte).extractLsb' 4 4 = 4#4 := by decide

/-! ## Witnesses: the forms -/

/-- The class is enabled for every instruction in the state of these tests. -/
theorem fresh_enables (m : Mode) (i : Instr) : (fresh m).enables i := by
  cases i <;> simp [fresh, State.enables, State.reset, Cfg.ofRegs]

theorem fresh_ready {m : Mode} {i : Instr} (h : i.wf m = true) : (fresh m).Ready i := ⟨h, fresh_enables m i, rfl⟩

/-- LegacyRegisterForms, VexRegisterForms, EvexRegisterForms: each instruction in each mode that has it, at the last
register. -/
theorem witness_RegisterForms :
    ((fresh .mode32).Ready (.pextrb false (form 7 (.reg 7) 0)) ∧ (fresh .mode64).Ready (.pextrb true (form 15 (.reg 15) 0))) ∧
    ((fresh .mode32).Ready (.pextrd false (form 7 (.reg 7) 0)) ∧ (fresh .mode64).Ready (.pextrd true (form 15 (.reg 15) 0))) ∧
    (fresh .mode64).Ready (.pextrq true (form 15 (.reg 15) 0)) ∧
    ((fresh .mode32).Ready (.vpextrbVex (form 7 (.reg 7) 0)) ∧ (fresh .mode64).Ready (.vpextrbVex (form 15 (.reg 15) 0))) ∧
    ((fresh .mode32).Ready (.vpextrdVex (form 7 (.reg 7) 0)) ∧ (fresh .mode64).Ready (.vpextrdVex (form 15 (.reg 15) 0))) ∧
    (fresh .mode64).Ready (.vpextrqVex (form 15 (.reg 15) 0)) ∧
    ((fresh .mode32).Ready (.vpextrbEvex (form 7 (.reg 7) 0)) ∧ (fresh .mode64).Ready (.vpextrbEvex (form 31 (.reg 15) 0))) ∧
    ((fresh .mode32).Ready (.vpextrdEvex (form 7 (.reg 7) 0)) ∧ (fresh .mode64).Ready (.vpextrdEvex (form 31 (.reg 15) 0))) ∧
    (fresh .mode64).Ready (.vpextrqEvex (form 31 (.reg 15) 0)) := by
  refine ⟨⟨?_, ?_⟩, ⟨?_, ?_⟩, ?_, ⟨?_, ?_⟩, ⟨?_, ?_⟩, ?_, ⟨?_, ?_⟩, ⟨?_, ?_⟩, ?_⟩ <;> exact fresh_ready (by decide)

/-- With an empty admission table, an empty code region and CR0.AM clear every store is let through. -/
theorem fresh_lets (m : Mode) (i : Instr) (a : Addr) (h : (fresh m).meetsCode ((fresh m).laOf i a) (elemOf i).bytes = false) :
    (fresh m).Lets i a := ⟨h, rfl, fun c => Bool.false_ne_true c.1⟩

/-- LegacyMemoryForms, VexMemoryForms, EvexMemoryForms: each instruction. -/
theorem witness_MemoryForms : (fresh .mode64).mem.wf = true ∧
    ((fresh .mode64).Ready (.pextrb false (form 7 (.mem (.base 0 .none)) 0)) ∧
      (fresh .mode64).Lets (.pextrb false (form 7 (.mem (.base 0 .none)) 0)) (.base 0 .none)) ∧
    ((fresh .mode32).Ready (.pextrd false (form 7 (.mem (.base 0 .none)) 0)) ∧
      (fresh .mode32).Lets (.pextrd false (form 7 (.mem (.base 0 .none)) 0)) (.base 0 .none)) ∧
    ((fresh .mode64).Ready (.pextrq true (form 15 (.mem (.disp32 8)) 0)) ∧
      (fresh .mode64).Lets (.pextrq true (form 15 (.mem (.disp32 8)) 0)) (.disp32 8)) ∧
    ((fresh .mode64).Ready (.vpextrbVex (form 7 (.mem (.base 0 .none)) 0)) ∧
      (fresh .mode64).Lets (.vpextrbVex (form 7 (.mem (.base 0 .none)) 0)) (.base 0 .none)) ∧
    ((fresh .mode32).Ready (.vpextrdVex (form 7 (.mem (.base 0 .none)) 0)) ∧
      (fresh .mode32).Lets (.vpextrdVex (form 7 (.mem (.base 0 .none)) 0)) (.base 0 .none)) ∧
    ((fresh .mode64).Ready (.vpextrqVex (form 7 (.mem (.base 0 .none)) 0)) ∧
      (fresh .mode64).Lets (.vpextrqVex (form 7 (.mem (.base 0 .none)) 0)) (.base 0 .none)) ∧
    ((fresh .mode64).Ready (.vpextrbEvex (form 31 (.mem (.base 0 .none)) 0)) ∧
      (fresh .mode64).Lets (.vpextrbEvex (form 31 (.mem (.base 0 .none)) 0)) (.base 0 .none)) ∧
    ((fresh .mode32).Ready (.vpextrdEvex (form 7 (.mem (.base 0 (.d8 1))) 0)) ∧
      (fresh .mode32).Lets (.vpextrdEvex (form 7 (.mem (.base 0 (.d8 1))) 0)) (.base 0 (.d8 1))) ∧
    ((fresh .mode64).Ready (.vpextrqEvex (form 31 (.mem (.base 0 .none)) 0)) ∧
      (fresh .mode64).Lets (.vpextrqEvex (form 31 (.mem (.base 0 .none)) 0)) (.base 0 .none)) := by
  refine ⟨rfl, ⟨?_, ?_⟩, ⟨?_, ?_⟩, ⟨?_, ?_⟩, ⟨?_, ?_⟩, ⟨?_, ?_⟩, ⟨?_, ?_⟩, ⟨?_, ?_⟩, ⟨?_, ?_⟩, ⟨?_, ?_⟩⟩ <;>
    first
    | exact fresh_ready (by decide)
    | exact fresh_lets _ _ _ (by decide)

/-! ## Witnesses: addresses, memory, admission -/

/-- EffectiveAddressArithmetic, LinearAddressIsBasePlusOffset, RipRelativeAddress: both modes; SegmentOfAnOperand. -/
theorem witness_addresses :
    (fresh .mode64).mode.admitted = true ∧ (fresh .mode32).mode.admitted = true ∧
    (fresh .mode64).mode = .mode64 ∧ (fresh .mode32).mode = .mode32 ∧
    segmentOf .mode64 none (.base 12 .none) ≠ .ss ∧ segmentOf .mode64 none (.base 4 .none) = .ss := by decide

/-- StoreIsLittleEndian: eight bytes across the top of the address space; CanonicalMemoryIsExtensional. -/
theorem witness_StoreIsLittleEndian :
    Memory.wf [(0, 1), (0xFFFFFFFFFFFFFFFF, 2)] = true ∧
    Memory.wf (memWrite .mode64 [] 0xFFFFFFFFFFFFFFFF 0x0201 2) = true ∧
    memWrite .mode64 [] 0xFFFFFFFFFFFFFFFF 0x0102 2 = [(0, 1), (0xFFFFFFFFFFFFFFFF, 2)] := by decide

/-- StackFaultOnlyThroughSS. -/
theorem witness_StackFaultOnlyThroughSS :
    State.admission { fresh .mode64 with admitTable := [denyWrite 0 0xFF .ss] } .write .ss 0xFF 0xFF 1 = some .ss ∧
    State.admission { fresh .mode64 with admitTable := [denyWrite 0 0xFF .ss] } .write .ds 0xFF 0xFF 1 = none := by decide

/-- EveryAdmissionPolicyHasATable. -/
theorem witness_EveryAdmissionPolicyHasATable :
    ∀ q : Request, (fun q : Request => if q.seg = .ss then some AdmitFault.ss else some .gp) q = some .ss → q.seg = .ss := by
  intro q h
  by_cases hs : q.seg = .ss
  · exact hs
  · simp [hs] at h

/-! ## Witnesses: faults and refusals -/

/-- DisabledClassIsInvalid: one of each class; TaskSwitchedRaisesNm. -/
theorem witness_DisabledClassIsInvalid :
    (Instr.pextrb false (form 1 (.reg 0) 5)).wf .mode64 = true ∧
    ¬ ({ fresh .mode64 with cfg := { (fresh .mode64).cfg with cr0Em := true } } : State).enables
      (.pextrb false (form 1 (.reg 0) 5)) ∧
    ¬ ({ fresh .mode64 with cfg := { (fresh .mode64).cfg with xcr0 := 3 } } : State).enables
      (.vpextrdVex (form 1 (.reg 0) 5)) ∧
    ¬ ({ fresh .mode64 with cfg := { (fresh .mode64).cfg with xcr0 := 7 } } : State).enables
      (.vpextrqEvex (form 1 (.reg 0) 5)) ∧
    ({ fresh .mode64 with cfg := { (fresh .mode64).cfg with cr0Ts := true } } : State).enables
      (.pextrb false (form 1 (.reg 0) 5)) := by
  refine ⟨by decide, fun h => absurd h.2.1 (by decide), fun h => absurd h.2.2 (by decide),
    fun h => absurd h.2.2.2.2 (by decide), ⟨rfl, rfl, rfl⟩⟩

/-- `pextrd [rbx], xmm0, 1` as a term. -/
def storeI : Instr := .pextrd false (form 0 (.mem (.base 3 .none)) 1)

/-- AlignmentCheckFaults: a dword store at 1001H. -/
theorem witness_AlignmentCheckFaults :
    (acOn (setReg 3 0x1001 (fresh .mode64))).Ready storeI ∧
    (acOn (setReg 3 0x1001 (fresh .mode64))).meetsCode
      ((acOn (setReg 3 0x1001 (fresh .mode64))).laOf storeI (.base 3 .none)) 4 = false ∧
    elemOf storeI ≠ .byte ∧
    (acOn (setReg 3 0x1001 (fresh .mode64))).acFaults
      ((acOn (setReg 3 0x1001 (fresh .mode64))).laOf storeI (.base 3 .none)).toNat 4 :=
  ⟨⟨by decide, ⟨rfl, rfl, rfl⟩, rfl⟩, by decide, by decide, ⟨rfl, by decide, rfl, by decide⟩⟩

/-- AdmitFaultIsRaised: the store at 5000H; and both faults of a register destination. -/
theorem witness_AdmitFaultIsRaised :
    (let s : State := { setReg 3 0x5000 (fresh .mode64) with admitTable := [denyWrite 0x5000 0x5FFF .gp] }
     s.Ready storeI ∧ s.meetsCode (s.laOf storeI (.base 3 .none)) 4 = false ∧
     s.admission .write (s.segOf storeI (.base 3 .none)) (s.eaOf storeI (.base 3 .none)) (s.laOf storeI (.base 3 .none)) 4
       = some .gp ∧ ¬ s.acFaults (s.laOf storeI (.base 3 .none)).toNat 4) ∧
    exec (.pextrb false (form 1 (.reg 0) 5)) { fresh .mode64 with cfg := { (fresh .mode64).cfg with cr0Ts := true } }
      = .fault .nm :=
  ⟨⟨⟨by decide, ⟨rfl, rfl, rfl⟩, rfl⟩, by decide, by decide, fun h => absurd h.1 (by decide)⟩,
    fault_of_faultOf (by decide)⟩

/-- StoreIntoCodeRefused: the last byte of a store on the first byte of the region, and the first on the last;
CodeRegionIsTheInterval. -/
theorem witness_StoreIntoCodeRefused :
    (let s := setReg 3 0x3FFFFD storeD
     s.Ready storeI ∧ 3 < (elemOf storeI).bytes ∧ s.endAddr.toNat < 2 ^ addrBits s.mode ∧
     s.codeStart.toNat ≤ 0x400000 ∧ 0x400000 < s.endAddr.toNat ∧
     ((s.laOf storeI (.base 3 .none)).toNat + 3) % 2 ^ addrBits s.mode = (s.baseVal .cs + 0x400000) % 2 ^ addrBits s.mode) ∧
    (let s := setReg 3 0x400005 storeD
     s.codeStart.toNat ≤ 0x400005 ∧ 0x400005 < s.endAddr.toNat ∧
     ((s.laOf storeI (.base 3 .none)).toNat + 0) % 2 ^ addrBits s.mode = (s.baseVal .cs + 0x400005) % 2 ^ addrBits s.mode) ∧
    storeD.inCode 0x400000 = true ∧ storeD.inCode 0x400005 = true ∧ storeD.inCode 0x3FFFFF = false ∧
    storeD.inCode 0x400006 = false :=
  ⟨⟨⟨by decide, ⟨rfl, rfl, rfl⟩, rfl⟩, by decide, by decide, by decide, by decide, by decide⟩,
    ⟨by decide, by decide, by decide⟩, by decide, by decide, by decide, by decide⟩

/-! ## Witnesses: the step -/

/-- Bytes stand at `rip`, as a check that evaluates. -/
def holds (s : State) (bs : List Byte) : Bool :=
  (List.range bs.length).all fun k =>
    (s.admission .fetch .cs (s.fetchEa k) (s.linear .cs (s.fetchEa k)) 1).isNone &&
      bs[k]? == some (s.mem.read (s.linear .cs (s.fetchEa k)).toNat)

theorem holdsAtRip_of_holds {s : State} {bs : List Byte} (h : holds s bs = true) : s.HoldsAtRip bs := by
  intro k hk
  have := List.all_eq_true.1 h k (List.mem_range.2 hk)
  simp only [Bool.and_eq_true, Option.isNone_iff_eq_none, beq_iff_eq, List.getElem?_eq_getElem hk, Option.some.injEq] at this
  exact ⟨this.1, this.2.symm⟩

/-- StepRunsTheDecodedInstruction. -/
theorem witness_StepRunsTheDecodedInstruction :
    storeD.HoldsAtRip [0x66, 0x0F, 0x3A, 0x16, 0x03, 0x01] ∧
    decode storeD.mode [0x66, 0x0F, 0x3A, 0x16, 0x03, 0x01] = .ok (storeI, []) :=
  ⟨holdsAtRip_of_holds (by decide), by decide⟩

/-- LoadedWordIsTheNextInstruction: from reset. -/
theorem witness_LoadedWordIsTheNextInstruction :
    State.reset.mem.wf = true ∧ State.reset.admitTable = [] ∧ State.reset.mode ≠ .mode32 ∧
    (decodeTableWord 32 0x00F3A14).isSome = true := by decide

/-- StepAnswersWhereTheDecoderStops: #UD, and a refusal. -/
theorem witness_StepAnswersWhereTheDecoderStops :
    (on .mode64 [0xC4, 0xE3, 0x7D, 0x16]).HoldsAtRip [0xC4, 0xE3, 0x7D, 0x16] ∧
    decode .mode64 [0xC4, 0xE3, 0x7D, 0x16] = .error .ud ∧
    (on .mode64 [0x90]).HoldsAtRip [0x90] ∧ decode .mode64 [0x90] = .error (.refuse .notInScope) :=
  ⟨holdsAtRip_of_holds (by decide), by decide, holdsAtRip_of_holds (by decide), by decide⟩

/-- FetchFaultIsRaised: the sixth byte is not admitted. -/
theorem witness_FetchFaultIsRaised :
    let s : State := { storeD with admitTable := [{ denyWrite 0x400005 0x400005 .gp with kind := .fetch }] }
    s.HoldsAtRip [0x66, 0x0F, 0x3A, 0x16, 0x03] ∧ decode .mode64 [0x66, 0x0F, 0x3A, 0x16, 0x03] = .error .more ∧
    s.admission .fetch .cs (s.fetchEa 5) (s.linear .cs (s.fetchEa 5)) 1 = some .gp :=
  ⟨holdsAtRip_of_holds (by decide), by decide, by decide⟩

/-- StepAdvancesRip, StepChangesOnlyTheDestination, StepKeepsInvariant, StepKeepsTheCode, MxcsrIsNeitherReadNorWritten,
OnlyTheAcFlagIsRead: a step with a register destination and one with a memory destination, each with an address in the
code region. -/
theorem witness_steps :
    ((on .mode32 [0x66, 0x0F, 0x3A, 0x16, 0xC8, 0x06]).Inv ∧
      (∃ t, step (on .mode32 [0x66, 0x0F, 0x3A, 0x16, 0xC8, 0x06]) = .next t) ∧
      (on .mode32 [0x66, 0x0F, 0x3A, 0x16, 0xC8, 0x06]).inCode 0x400005 = true) ∧
    (setReg 3 0x1000 storeD).Inv ∧ (∃ t, step (setReg 3 0x1000 storeD) = .next t) ∧
    (setReg 3 0x1000 storeD).inCode 0x400000 = true := by
  refine ⟨⟨⟨by decide, fun _ => by decide⟩, ?_, by decide⟩, ⟨by decide, fun h => absurd rfl h⟩, ?_, by decide⟩
  · obtain ⟨t, ht, _⟩ := next_of_ripOf (show ripOf (step (on .mode32 [0x66, 0x0F, 0x3A, 0x16, 0xC8, 0x06])) = some 0x400006 by decide)
    exact ⟨t, ht⟩
  · obtain ⟨t, ht, _⟩ := next_of_ripOf (show ripOf (step (setReg 3 0x1000 storeD)) = some 0x400006 by decide)
    exact ⟨t, ht⟩

/-- MxcsrIsNeitherReadNorWritten, StepAnswersWhereTheDecoderStops, StepRefusesOnlyForTheSpecsReasons: a step that faults and
one that is refused. -/
theorem witness_stops :
    step (on .mode64 [0xC4, 0xE3, 0x7D, 0x16, 0xCA, 0x00]) = .fault .ud ∧
    step (setReg 3 0x400002 storeD) = .refused (.reason .smc) :=
  ⟨fault_of_faultOf (by decide), refused_of_refusalOf (by decide)⟩

/-- OnlyTheAcFlagIsRead: every other bit inverted. -/
theorem witness_OnlyTheAcFlagIsRead :
    (0xFFFFFFFFFFFBFFFD : Word64).getLsbD 18 = (fresh .mode64).rflags.getLsbD 18 := by decide

/-- ClassesReadTheirOwnControlBits: for each class a configuration that differs in all the others' bits. -/
theorem witness_ClassesReadTheirOwnControlBits :
    let c := (fresh .mode64).cfg
    (let d : Cfg := { c with cr4Osxsave := false, xcr0 := 0, cpuid := ⟨true, false, false, false, false⟩ }
     d.cr0Ts = c.cr0Ts ∧ d.cr0Am = c.cr0Am ∧ d.cr0Em = c.cr0Em ∧ d.cr4Osfxsr = c.cr4Osfxsr ∧ d.cpuid.sse41 = c.cpuid.sse41) ∧
    (let d : Cfg := { c with cr0Em := true, cr4Osfxsr := false, xcr0 := 7, cpuid := ⟨false, true, false, false, false⟩ }
     d.cr0Ts = c.cr0Ts ∧ d.cr0Am = c.cr0Am ∧ d.cr4Osxsave = c.cr4Osxsave ∧
     d.xcr0.extractLsb' 1 2 = c.xcr0.extractLsb' 1 2 ∧ d.cpuid.avx = c.cpuid.avx) ∧
    (let d : Cfg := { c with cr0Em := true, cr4Osfxsr := false, xcr0 := 0xE6, cpuid := ⟨false, false, true, true, true⟩ }
     d.cr4Osxsave = c.cr4Osxsave ∧ d.xcr0.extractLsb' 1 2 = c.xcr0.extractLsb' 1 2 ∧
     d.xcr0.extractLsb' 5 3 = c.xcr0.extractLsb' 5 3 ∧ d.cpuid.avx512f = c.cpuid.avx512f ∧
     d.cpuid.avx512bw = c.cpuid.avx512bw ∧ d.cpuid.avx512dq = c.cpuid.avx512dq) := by decide

/-- OnlyTheSelectedElementMatters: byte 0 of xmm1, everything else different. -/
theorem witness_OnlyTheSelectedElementMatters :
    element 8 0 (State.xmmReg { fresh .mode64 with xmm := Vector.replicate 32 0xFF00 } 1) =
      element 8 0 ((fresh .mode64).xmmReg 1) := by decide

/-- UpperRegisterBitsAreNoStateInMode32: registers 8 to 15, the upper halves of 0 to 7 and the counter differ. -/
theorem witness_UpperRegisterBitsAreNoStateInMode32 :
    SameIn32 (fresh .mode32)
      { fresh .mode32 with
        gpr := Vector.ofFn fun k : Fin 16 => if k.val < 8 then { low := 0xFFFFFFFF, high := 5 } else { low := 1, high := 2 },
        freeCount := 9 } :=
  ⟨by decide, rfl, rfl, ⟨rfl, rfl, rfl, rfl, rfl, rfl, rfl, rfl, rfl, rfl⟩⟩

/-- OtherModesRefuse: each of the three modes. -/
theorem witness_OtherModesRefuse : ∀ m, (m = .realAddress ∨ m = .virtual8086 ∨ m = .code16) →
    (fresh m).mode ≠ .mode64 ∧ (fresh m).mode ≠ .mode32 := by
  rintro m (rfl | rfl | rfl) <;> decide

/-- Reset, and a loaded program, are launch states (70_reset_and_hazards.md R221; log 4, log 10). -/
theorem test_launch : State.reset.Launch ∧ storeD.Launch ∧ (on .mode32 [0x66, 0x0F, 0x3A, 0x16, 0xC8, 0x06]).Launch := by
  refine ⟨?_, ?_, ?_⟩ <;> (unfold State.Launch; decide)

/-- GoodRunIsAStraightLine, GoodRunKeepsConfigurationAndCode: a run of one instruction from `codeStart` that ends well, with
the premises on its region. -/
theorem witness_EndsWell : ∃ t, (setReg 3 0x1000 storeD).Inv ∧ EndsWell (setReg 3 0x1000 storeD) 1 t ∧
    Continues (setReg 3 0x1000 storeD) 0 (setReg 3 0x1000 storeD) ∧
    (setReg 3 0x1000 storeD).codeStart.toNat ≤ (setReg 3 0x1000 storeD).endAddr.toNat ∧
    (setReg 3 0x1000 storeD).endAddr.toNat < 2 ^ addrBits (setReg 3 0x1000 storeD).mode ∧
    14 * 1 < 2 ^ addrBits (setReg 3 0x1000 storeD).mode := by
  obtain ⟨t, ht, hr⟩ := next_of_ripOf (show ripOf (step (setReg 3 0x1000 storeD)) = some 0x400006 by decide)
  have hu := (step_next_untouched ht).1
  have he : t.atEnd := by
    unfold State.atEnd
    rw [hr, hu.mode, hu.endAddr]
    decide
  exact ⟨t, ⟨by decide, fun h => absurd rfl h⟩, ⟨by unfold State.Launch; decide, _, rfl, ht, he⟩, rfl, by decide, by decide, by decide⟩

/-- ProgramEndsAfterItsInstructions: `pextrb eax, xmm1, 5` and `vpextrd eax, xmm1, 2`, one after the other. -/
theorem witness_ProgramEndsAfterItsInstructions :
    let prog : List (List Byte × Instr) :=
      [([0x66, 0x0F, 0x3A, 0x14, 0xC8, 0x05], .pextrb false (form 1 (.reg 0) 5)),
       ([0xC4, 0xE3, 0x79, 0x16, 0xC8, 0x02], .vpextrdVex (form 1 (.reg 0) 2))]
    let s := on .mode32 (prog.map Prod.fst).flatten
    s.mem.wf = true ∧ s.Launch ∧ prog ≠ [] ∧ (∀ p ∈ prog, decode s.mode p.1 = .ok (p.2, [])) ∧
    s.HoldsProgram (prog.map Prod.fst).flatten := by
  refine ⟨by decide, by unfold State.Launch; decide, by decide, by decide, ⟨by decide, by decide, ?_⟩⟩
  have h : ∀ k : Fin 12, (on .mode32 [0x66, 0x0F, 0x3A, 0x14, 0xC8, 0x05, 0xC4, 0xE3, 0x79, 0x16, 0xC8, 0x02]).mem.read
      ((on .mode32 [0x66, 0x0F, 0x3A, 0x14, 0xC8, 0x05, 0xC4, 0xE3, 0x79, 0x16, 0xC8, 0x02]).linear .cs (0x400000 + BitVec.ofNat 64 k)).toNat =
      [(0x66 : Byte), 0x0F, 0x3A, 0x14, 0xC8, 0x05, 0xC4, 0xE3, 0x79, 0x16, 0xC8, 0x02][k] := by decide
  exact fun k hk => h ⟨k, hk⟩

end Sys2Proof.Tests
end

section
/-! SUPPORT. A logic for the decoder: what a parse answers, how many bytes it takes, that later bytes do not change its
answer, and how many bytes it can ask for, all in one predicate that is carried through each piece of the decoder once. -/

namespace Sys2Proof

/-! ## The predicate -/

/-- `Reads P n f bs`: on `bs` the parse `f` either answers some `a` having taken a number of bytes that `P a` allows, or
asks for more having been given fewer than `n` bytes, or stops; and no bytes added after `bs` change an answer or a stop
(20_memory.md R70: the decoder reads as many bytes as it needs). -/
def Reads {α : Type} (P : α → Nat → Prop) (n : Nat) (f : List Byte → Scan (α × List Byte)) (bs : List Byte) : Prop :=
  match f bs with
  | .ok (a, rest) => (∃ k, P a k ∧ bs.length = k + rest.length) ∧ ∀ later, f (bs ++ later) = .ok (a, rest ++ later)
  | .error .more => bs.length < n
  | .error .ud => ∀ later, f (bs ++ later) = .error .ud
  | .error (.refuse r) => ∀ later, f (bs ++ later) = .error (.refuse r)

section
variable {α β : Type} {P P' : α → Nat → Prop} {Q : β → Nat → Prop} {n n' : Nat}
  {f g : List Byte → Scan (α × List Byte)} {bs rest : List Byte} {a : α}

theorem Reads.of_ok (h : Reads P n f bs) (hf : f bs = .ok (a, rest)) :
    (∃ k, P a k ∧ bs.length = k + rest.length) ∧ ∀ later, f (bs ++ later) = .ok (a, rest ++ later) := by
  unfold Reads at h; rwa [hf] at h

theorem Reads.of_more (h : Reads P n f bs) (hf : f bs = .error .more) : bs.length < n := by
  unfold Reads at h; rwa [hf] at h

theorem Reads.of_stop (h : Reads P n f bs) {e : Stop} (he : e ≠ .more) (hf : f bs = .error e) (later : List Byte) :
    f (bs ++ later) = .error e := by
  unfold Reads at h
  rw [hf] at h
  cases e with
  | more => exact absurd rfl he
  | ud => exact h later
  | refuse r => exact h later

/-- The three ways to establish the predicate. -/
theorem Reads.intro (hok : ∀ a rest, f bs = .ok (a, rest) →
      (∃ k, P a k ∧ bs.length = k + rest.length) ∧ ∀ later, f (bs ++ later) = .ok (a, rest ++ later))
    (hmore : f bs = .error .more → bs.length < n)
    (hstop : ∀ e, e ≠ .more → f bs = .error e → ∀ later, f (bs ++ later) = .error e) : Reads P n f bs := by
  unfold Reads
  split
  · exact hok _ _ ‹_›
  · exact hmore ‹_›
  · exact hstop .ud (by simp) ‹_›
  · exact hstop (.refuse _) (by simp) ‹_›

/-- Weaker knowledge of the answer, and a larger bound. -/
theorem Reads.mono (h : Reads P n f bs) (hn : n ≤ n') (hP : ∀ a k, P a k → P' a k) : Reads P' n' f bs := by
  refine .intro (fun a rest hf => ?_) (fun hf => lt_of_lt_of_le (h.of_more hf) hn) (fun e he hf => h.of_stop he hf)
  obtain ⟨⟨k, hk, hl⟩, hlater⟩ := h.of_ok hf
  exact ⟨⟨k, hP a k hk, hl⟩, hlater⟩

/-- Answering without reading. -/
theorem Reads.ok (h : P a 0) : Reads P n (fun bs => .ok (a, bs)) bs :=
  ⟨⟨0, h, (Nat.zero_add _).symm⟩, fun _ => rfl⟩

theorem Reads.ud : Reads P n (fun _ => .error .ud) bs := fun _ => rfl

theorem Reads.refuse (r : RefusalReason) : Reads P n (fun _ => .error (.refuse r)) bs := fun _ => rfl

/-- A test of something other than the bytes to come. -/
theorem Reads.ite {c : Prop} [Decidable c] (hf : c → Reads P n f bs) (hg : ¬ c → Reads P n g bs) :
    Reads P n (fun bs => if c then f bs else g bs) bs := by
  by_cases h : c
  · simpa only [h, if_true] using hf h
  · simpa only [h, if_false] using hg h

/-- One parse after another: the second starts where the first one stopped, with what the first one took added. -/
theorem Reads.bind {f : List Byte → Scan (α × List Byte)} {g : α × List Byte → Scan (β × List Byte)}
    (hf : Reads P n' f bs) (hn : n' ≤ n)
    (hg : ∀ a k rest, f bs = .ok (a, rest) → P a k →
      Reads (fun b j => Q b (k + j)) (n - k) (fun bs => g (a, bs)) rest) :
    Reads Q n (fun bs => f bs >>= g) bs := by
  cases hfb : f bs with
  | error e =>
    have hfg : (f bs >>= g) = .error e := by rw [hfb]; rfl
    refine .intro (fun b rest h => ?_) (fun h => ?_) (fun e' he' h later => ?_) <;> rw [hfg] at h <;> cases h
    · exact lt_of_lt_of_le (hf.of_more hfb) hn
    · show (f (bs ++ later) >>= g) = _
      rw [hf.of_stop he' hfb]; rfl
  | ok x =>
    obtain ⟨a, rest⟩ := x
    obtain ⟨⟨k, hk, hl⟩, hlater⟩ := hf.of_ok hfb
    have hrest := hg a k rest hfb hk
    have hfg : (f bs >>= g) = g (a, rest) := by rw [hfb]; rfl
    have hfg' (later) : (f (bs ++ later) >>= g) = g (a, rest ++ later) := by rw [hlater]; rfl
    refine .intro (fun b rest' h => ?_) (fun h => ?_) (fun e' he' h later => ?_) <;> rw [hfg] at h
    · obtain ⟨⟨j, hj, hl'⟩, hlater'⟩ := hrest.of_ok h
      exact ⟨⟨k + j, hj, by omega⟩, fun later => (hfg' later).trans (hlater' later)⟩
    · have := hrest.of_more h
      omega
    · exact (hfg' later).trans (hrest.of_stop he' h later)

/-- A look ahead: `f` looks at the bytes to come and takes none of them. -/
def Peeks (n : Nat) (f : List Byte → Scan α) (bs : List Byte) : Prop :=
  Reads (fun _ k => k = 0) n (fun bs => f bs >>= fun a => .ok (a, bs)) bs

/-- A parse after a look ahead starts at the same byte. -/
theorem Reads.peek {f : List Byte → Scan α} {g : α → List Byte → Scan (β × List Byte)} (hf : Peeks n' f bs)
    (hn : n' ≤ n) (hg : ∀ a, f bs = .ok a → Reads Q n (g a) bs) : Reads Q n (fun bs => f bs >>= fun a => g a bs) bs := by
  have heq : (fun bs => f bs >>= fun a => g a bs) =
      fun bs => (f bs >>= fun a => Except.ok (a, bs)) >>= fun x => g x.1 x.2 := by
    funext bs; cases f bs <;> rfl
  rw [heq]
  refine .bind hf hn fun a k rest h hk => ?_
  cases hfb : f bs with
  | error e => rw [hfb] at h; cases h
  | ok a' =>
    rw [hfb] at h
    cases h
    subst hk
    simpa using hg _ hfb

end

/-! ## Bytes and dwords -/

theorem nextByte_reads (bs : List Byte) : Reads (fun _ k => k = 1) 1 nextByte bs := by
  cases bs with
  | nil => exact Nat.one_pos
  | cons b bs => exact ⟨⟨1, rfl, Nat.add_comm _ _⟩, fun _ => rfl⟩

theorem nextDword_reads (bs : List Byte) : Reads (fun _ k => k = 4) 4 nextDword bs := by
  match bs with
  | [] | [_] | [_, _] | [_, _, _] => simp [Reads, nextDword]
  | b0 :: b1 :: b2 :: b3 :: bs => exact ⟨⟨4, rfl, Nat.add_comm bs.length 4⟩, fun _ => rfl⟩

/-! ## Prefixes -/

/-- How many bytes the prefixes read so far are. -/
def Pfxs.len (p : Pfxs) : Nat :=
  p.seg.toList.length + p.o66.toNat + p.a67.toNat + p.lock.toNat + p.rep.toNat

theorem Pfxs.len_le_five (p : Pfxs) : p.len ≤ 5 := by
  have hseg : p.seg.toList.length ≤ 1 := by cases p.seg <;> simp
  have ho := Bool.toNat_le p.o66
  have ha := Bool.toNat_le p.a67
  have hl := Bool.toNat_le p.lock
  have hr := Bool.toNat_le p.rep
  unfold Pfxs.len
  omega

/-- What the loop takes counts once. -/
theorem Pfxs.len_add {p p' : Pfxs} {b : PfxByte} (h : p.add b = some p') : p'.len = p.len + 1 := by
  cases b <;> simp only [Pfxs.add] at h <;> split at h <;> cases h <;> simp_all [Pfxs.len] <;> omega

/-- R121's loop takes as many bytes as it adds prefixes. -/
theorem readPfxs_reads (p : Pfxs) (bs : List Byte) :
    Reads (fun p' k => k + p.len = p'.len) (6 - p.len) (readPfxs p) bs := by
  induction bs generalizing p with
  | nil =>
    have := p.len_le_five
    show 0 < 6 - p.len
    omega
  | cons b bs ih =>
    cases hb : pfxByte? b with
    | none =>
      simp only [Reads, readPfxs_stop p bs hb, List.cons_append]
      exact ⟨⟨0, Nat.zero_add _, (Nat.zero_add _).symm⟩, fun later => readPfxs_stop p _ hb⟩
    | some x =>
      cases hx : p.add x with
      | none =>
        simp only [Reads, readPfxs_dup bs hb hx, List.cons_append]
        exact fun later => readPfxs_dup _ hb hx
      | some p' =>
        have hlen := Pfxs.len_add hx
        have htake (bs) : readPfxs p (b :: bs) = readPfxs p' bs := readPfxs_take bs hb hx
        refine .intro (fun q rest h => ?_) (fun h => ?_) (fun e he h later => ?_) <;> rw [htake] at h
        · obtain ⟨⟨k, hk, hl⟩, hlater⟩ := (ih p').of_ok h
          refine ⟨⟨k + 1, by omega, by rw [List.length_cons]; omega⟩, fun later => ?_⟩
          rw [List.cons_append, htake]
          exact hlater later
        · have := (ih p').of_more h
          rw [List.length_cons]
          omega
        · rw [List.cons_append, htake]
          exact (ih p').of_stop he h later

/-- A REX byte is one byte, and in `Mode64` only (30_encoding.md R90). -/
theorem readRex_reads (m : Mode) (bs : List Byte) :
    Reads (fun rex k => k = rex.toList.length ∧ (rex.isSome = true → m = .mode64)) 2 (readRex m) bs := by
  match bs with
  | [] => exact Nat.two_pos
  | b :: bs =>
    by_cases hb : (m == .mode64 && isRex b) = true
    · match bs with
      | [] => simp [Reads, readRex, hb]
      | c :: bs =>
        by_cases hc : (isRex c || (pfxByte? c).isSome) = true
        · simp only [Reads, readRex, hb, hc, List.cons_append, if_true]
          exact fun _ => trivial
        · simp only [Reads, readRex, hb, hc, List.cons_append, if_true]
          simp only [Bool.and_eq_true, beq_iff_eq] at hb
          exact ⟨⟨1, ⟨rfl, fun _ => hb.1⟩, Nat.add_comm _ _⟩, fun _ => rfl⟩
    · simp only [Reads, readRex, hb, List.cons_append]
      exact ⟨⟨0, ⟨rfl, nofun⟩, (Nat.zero_add _).symm⟩, fun _ => rfl⟩

end Sys2Proof
end

section
/-! SUPPORT. The pieces of the decoder in that logic: the length each one takes, and that what it answers is well-formed
in the mode. -/

namespace Sys2Proof

/-! ## Register numbers -/

/-- The extension bits `x` and `b` are ones the mode has: any in `Mode64`, none elsewhere. -/
def Mode.allowsExt (m : Mode) (x b : Bool) : Prop := m = .mode64 ∨ (x = false ∧ b = false)

theorem gprNum_false_lt : ∀ f : BitVec 3, (gprNum false f).toNat < 8 := by decide

theorem allowsGpr_gprNum {m : Mode} {b : Bool} (h : m = .mode64 ∨ b = false) (f : BitVec 3) :
    m.allowsGpr (gprNum b f) = true := by
  rcases h with rfl | rfl
  · rfl
  · simp [Mode.allowsGpr, gprNum_false_lt f]

theorem allowsIndex_indexOf {m : Mode} {x : Bool} (h : m = .mode64 ∨ x = false) (f : BitVec 3) :
    m.allowsIndex (indexOf (gprNum x f)) = true := by
  unfold indexOf
  split
  · rfl
  · simpa [Mode.allowsIndex, allowsGpr_gprNum h]

theorem xmmNum_lt : ∀ (r' r : Bool) (f : BitVec 3), (BitVec.ofBool r' ++ BitVec.ofBool r ++ f).toNat < 32 ∧
    (r' = false → (BitVec.ofBool r' ++ BitVec.ofBool r ++ f).toNat < 16) ∧
    (r' = false → r = false → (BitVec.ofBool r' ++ BitVec.ofBool r ++ f).toNat < 8) := by decide

/-! ## Operands -/

theorem Disp.len_le_four (d : Disp) : d.len ≤ 4 := by cases d <;> simp [Disp.len]

theorem Dest.len_le_five (d : Dest) : d.len ≤ 5 := by
  match d with
  | .reg _ => exact Nat.zero_le 5
  | .mem (.base _ d) => have := d.len_le_four; simp only [Dest.len, Addr.len]; omega
  | .mem (.sib _ _ _ d) => have := d.len_le_four; simp only [Dest.len, Addr.len]; omega
  | .mem (.sibNoBase _ _ _) | .mem (.disp32 _) => simp [Dest.len, Addr.len]

theorem readDisp_reads (md : BitVec 2) (bs : List Byte) :
    Reads (fun d k => k = d.len ∧ (d = .none → md = 0)) 4 (readDisp md) bs := by
  unfold readDisp
  refine .ite (fun h0 => .ok ⟨rfl, fun _ => h0⟩) fun _ => .ite (fun _ => ?_) fun _ => ?_
  · exact .bind (nextByte_reads bs) (by omega) fun d k rest _ hk => .ok ⟨by simp [Disp.len, hk], nofun⟩
  · exact .bind (nextDword_reads bs) (by omega) fun d k rest _ hk => .ok ⟨by simp [Disp.len, hk], nofun⟩

/-- A base register is one that the displacement allows, where the code 101b without displacement has been sorted out
(30_encoding.md R108, R109). -/
theorem fitsBase_gprNum {d : Disp} {md : BitVec 2} {b : Bool} {f : BitVec 3} (hd : d = .none → md = 0)
    (h : ¬ (md = 0 ∧ f = 5)) : d.fitsBase (gprNum b f) = true := by
  cases d with
  | none => simpa [Disp.fitsBase, setWidth_gprNum] using fun hf => h ⟨hd rfl, hf⟩
  | d8 | d32 => rfl

theorem readAddr_reads (x b : Bool) (md : BitVec 2) (rm : BitVec 3) (bs : List Byte) :
    Reads (fun a k => k = a.len ∧ ∀ m : Mode, m.allowsExt x b → a.wf m = true) 5 (readAddr x b md rm) bs := by
  have hb {m : Mode} (hm : m.allowsExt x b) : m = .mode64 ∨ b = false := hm.imp_right And.right
  have hx {m : Mode} (hm : m.allowsExt x b) : m = .mode64 ∨ x = false := hm.imp_right And.left
  unfold readAddr
  refine .ite (fun h4 => ?_) fun h4 => .ite (fun h5 => ?_) fun h5 => ?_
  · refine .bind (nextByte_reads bs) (by omega) fun sib k rest _ hk => ?_
    subst hk
    refine .ite (fun _ => ?_) fun hbase => ?_
    · refine .bind (nextDword_reads rest) (by omega) fun d k _ _ hk => .ok ⟨by simp [Addr.len, hk], fun m hm => ?_⟩
      exact allowsIndex_indexOf (hx hm) _
    · refine .bind (readDisp_reads md rest) (by omega) fun d k _ _ ⟨hk, hd⟩ =>
        .ok ⟨by simp [Addr.len, hk], fun m hm => ?_⟩
      simp [Addr.wf, allowsGpr_gprNum (hb hm), allowsIndex_indexOf (hx hm), fitsBase_gprNum hd hbase]
  · exact .bind (nextDword_reads bs) (by omega) fun d k _ _ hk => .ok ⟨by simp [Addr.len, hk], fun _ _ => rfl⟩
  · refine .bind (readDisp_reads md bs) (by omega) fun d k _ _ ⟨hk, hd⟩ => .ok ⟨by simp [Addr.len, hk], fun m hm => ?_⟩
    simpa [Addr.wf, allowsGpr_gprNum (hb hm), setWidth_gprNum, fitsBase_gprNum hd h5] using h4

/-- An answer of `readDest`: well-formed in the mode, and without extension bits also in `Mode32` without 67H. -/
def Dest.ReadAs (m : Mode) (a67 x b : Bool) (d : Dest) : Prop :=
  (m.allowsExt x b → d.wf m a67 = true) ∧ (x = false → b = false → d.wf .mode32 false = true)

theorem readDest_reads {m : Mode} (hm : m.admitted = true) (a67 x b : Bool) (md : BitVec 2) (rm : BitVec 3)
    (bs : List Byte) :
    Reads (fun d k => k = d.len ∧ d.ReadAs m a67 x b) 5 (readDest m a67 x b md rm) bs := by
  unfold readDest
  refine .ite (fun _ => .ok ⟨rfl, fun h => ?_, fun _ h => ?_⟩) fun _ => .ite (fun _ => .refuse _) fun h67 => ?_
  · exact allowsGpr_gprNum (h.imp_right And.right) rm
  · exact allowsGpr_gprNum (.inr h) rm
  · refine .bind (readAddr_reads x b md rm bs) le_rfl fun a k _ _ ⟨hk, hwf⟩ => .ok ⟨hk, fun h => ?_, fun hx hb => ?_⟩
    · have hmode : (m == .mode64 || !a67) = true := by
        cases m <;> simp_all [Mode.admitted]
      simp [Dest.wf, hwf m h, hmode]
    · simp [Dest.wf, hwf .mode32 (.inr ⟨hx, hb⟩)]

/-- An answer of `readForm`: the prefixes that act on the operand as read, and operands that the mode has and, where no
extension bit is set, that need no REX byte. -/
structure Form.ReadAs (m : Mode) (p : Pfxs) (r' r x b : Bool) (f : Form) : Prop where
  seg : f.seg = p.seg
  a67 : f.a67 = p.a67
  wf32 : f.wf m 32 = true
  wf16 : r' = false → f.wf m 16 = true
  noRex : r' = false → r = false → x = false → b = false → f.needsNoRex = true

theorem readForm_reads {m : Mode} (hm : m.admitted = true) (p : Pfxs) {r' r x b : Bool}
    (hext : m = .mode32 → r' = false ∧ r = false ∧ x = false ∧ b = false) (bs : List Byte) :
    Reads (fun f k => k = f.dest.len + 2 ∧ f.ReadAs m p r' r x b) 7 (readForm m p r' r x b) bs := by
  have hcases : m = .mode64 ∨ (m ≠ .mode64 ∧ r' = false ∧ r = false ∧ x = false ∧ b = false) := by
    cases m <;> simp_all [Mode.admitted]
  have hallow : m.allowsExt x b := hcases.imp_right fun h => h.2.2.2
  unfold readForm
  refine .bind (nextByte_reads bs) (by omega) fun modrm k rest _ hk => ?_
  subst hk
  refine .bind (readDest_reads hm p.a67 x b _ _ rest) (by omega) fun d k rest _ ⟨hk, hwf, hno⟩ => ?_
  subst hk
  have hlen := d.len_le_five
  refine .bind (nextByte_reads rest) (by omega) fun imm k rest _ hk => .ok ⟨by subst hk; dsimp only; omega, ?_⟩
  obtain ⟨h32, h16, h8⟩ := xmmNum_lt r' r (modrm.extractLsb' 3 3)
  constructor
  case seg => rfl
  case a67 => rfl
  case wf32 =>
    rcases hcases with rfl | ⟨hne, hr', hr, -, -⟩
    · simpa [Form.wf, hm, hwf hallow] using h32
    · simpa [Form.wf, hm, hne, hwf hallow] using h8 hr' hr
  case wf16 =>
    intro hr'
    rcases hcases with rfl | ⟨hne, -, hr, -, -⟩
    · simpa [Form.wf, hm, hwf hallow] using h16 hr'
    · simpa [Form.wf, hm, hne, hwf hallow] using h8 hr' hr
  case noRex =>
    intro hr' hr hx hb
    simpa [Form.needsNoRex, hno hx hb] using h8 hr' hr

/-! ## The three classes -/

/-- An answer after `taken` bytes and `k` more: an instruction that the mode can encode, of as many bytes as were taken in
all. -/
def Instr.ReadAfter (m : Mode) (taken : Nat) (i : Instr) (k : Nat) : Prop := i.wf m = true ∧ taken + k = i.len

theorem selectLegacy_readAfter {m : Mode} {op : Byte} {w rex : Bool} {f : Form} {taken k : Nat} (hwf : f.wf m 16 = true)
    (hrex : f.rexWf m rex = true) (hw : w = true → rex = true) (hk : taken + k = f.len + 1 + rex.toNat + 3) :
    (selectLegacy m op w rex f).ReadAfter m taken k := by
  unfold selectLegacy
  split
  · exact ⟨by simp [Instr.wf, hwf, hrex], hk⟩
  split
  · rename_i h
    simp only [Bool.and_eq_true, beq_iff_eq] at h
    obtain ⟨rfl, hw1⟩ := h
    obtain rfl := hw hw1
    exact ⟨by simp [Instr.wf, hwf, hrex], hk⟩
  · exact ⟨by simp [Instr.wf, hwf, hrex], hk⟩

theorem selectVex_readAfter {m : Mode} {op : Byte} {w : Bool} {f : Form} {taken k : Nat} (hwf : f.wf m 16 = true)
    (hk : taken + k = f.len + 4) : (selectVex m op w f).ReadAfter m taken k := by
  unfold selectVex
  split
  · exact ⟨hwf, hk⟩
  split
  · rename_i h
    simp only [Bool.and_eq_true, beq_iff_eq] at h
    obtain ⟨rfl, -⟩ := h
    exact ⟨by simp [Instr.wf, hwf], hk⟩
  · exact ⟨hwf, hk⟩

theorem selectEvex_readAfter {m : Mode} {op : Byte} {w : Bool} {f : Form} {taken k : Nat} (hwf : f.wf m 32 = true)
    (hk : taken + k = f.len + 5) : (selectEvex m op w f).ReadAfter m taken k := by
  unfold selectEvex
  split
  · exact ⟨hwf, hk⟩
  split
  · rename_i h
    simp only [Bool.and_eq_true, beq_iff_eq] at h
    obtain ⟨rfl, -⟩ := h
    exact ⟨by simp [Instr.wf, hwf], hk⟩
  · exact ⟨hwf, hk⟩

section
variable {m : Mode} {p : Pfxs} {rex : Option Byte}

theorem decodeLegacy_reads (hm : m.admitted = true) (hrex : rex.isSome = true → m = .mode64) (bs : List Byte) :
    Reads (Instr.ReadAfter m (p.len + rex.toList.length + 1)) (14 - (p.len + rex.toList.length + 1))
      (decodeLegacy m p rex) bs := by
  have hp := p.len_le_five
  have hr : rex.toList.length = rex.isSome.toNat := by cases rex <;> rfl
  have hr1 := Bool.toNat_le rex.isSome
  unfold decodeLegacy
  refine .bind (nextByte_reads bs) (by omega) fun esc k rest _ hk => .ite (fun _ => .refuse _) fun _ => ?_
  subst hk
  refine .bind (nextByte_reads rest) (by omega) fun op k rest _ hk => .ite (fun _ => .refuse _) fun _ => ?_
  subst hk
  refine .ite (fun _ => .refuse _) fun ho => .ite (fun _ => .refuse _) fun hrep => .ite (fun _ => .ud) fun hlock => ?_
  have hlen : p.len = p.seg.toList.length + p.a67.toNat + 1 := by simp_all [Pfxs.len]; omega
  have hseg : p.seg.toList.length ≤ 1 := by cases p.seg <;> simp
  have ha67 := Bool.toNat_le p.a67
  have hext : m = .mode32 → false = false ∧ (rex.getD 0)[2] = false ∧ (rex.getD 0)[1] = false ∧
      (rex.getD 0)[0] = false := by
    intro h
    cases rex with
    | none => simp
    | some b => exact absurd (h.symm.trans (hrex rfl)) (by decide)
  refine .bind (readForm_reads hm p hext rest) (by omega) fun f k rest _ ⟨hk, hf⟩ => .ok ?_
  have hlen' : p.len + rex.toList.length + 1 + (1 + (1 + (k + 0))) = f.len + 1 + rex.isSome.toNat + 3 := by
    rw [Form.len, hf.seg, hf.a67]
    omega
  cases rex with
  | none => exact selectLegacy_readAfter (hf.wf16 rfl) (hf.noRex rfl (by simp) (by simp) (by simp)) (by simp) hlen'
  | some b => exact selectLegacy_readAfter (hf.wf16 rfl) (by simp [Form.rexWf, hrex]) (fun _ => rfl) hlen'

/-- What is left of the prefixes where none of them is refused in front of VEX and EVEX (30_encoding.md R95, R101). -/
theorem Pfxs.len_of_goodForVex (h : ¬ (rex.isSome || p.badForVex) = true) :
    rex = none ∧ p.len = p.seg.toList.length + p.a67.toNat ∧ p.len ≤ 2 := by
  have hseg : p.seg.toList.length ≤ 1 := by cases p.seg <;> simp
  have ha67 := Bool.toNat_le p.a67
  simp only [Bool.or_eq_true, Pfxs.badForVex, not_or, Bool.not_eq_true, Option.isSome_eq_false_iff,
    Option.isNone_iff_eq_none] at h
  obtain ⟨hrex, ⟨ho, hrep⟩, hlock⟩ := h
  have hlen : p.len = p.seg.toList.length + p.a67.toNat := by simp [Pfxs.len, ho, hrep, hlock]
  exact ⟨hrex, hlen, by omega⟩

/-- A byte whose top two bits are set, as the recognition in `Mode32` asks for (30_encoding.md R82). -/
theorem topBits_of_eq_three : ∀ b : Byte, b.extractLsb' 6 2 = 3#2 → b[7] = true ∧ b[6] = true := by decide

theorem decodeVex_reads (hm : m.admitted = true) (bs : List Byte)
    (hrec : m = .mode32 → ∀ b rest, bs = b :: rest → b.extractLsb' 6 2 = 3#2) :
    Reads (Instr.ReadAfter m (p.len + rex.toList.length + 1)) (14 - (p.len + rex.toList.length + 1))
      (decodeVex m p rex) bs := by
  have hp := p.len_le_five
  have hr : rex.toList.length ≤ 1 := by cases rex <;> simp
  unfold decodeVex
  refine .bind (nextByte_reads bs) (by omega) fun v1 k rest hv1 hk => ?_
  subst hk
  refine .bind (nextByte_reads rest) (by omega) fun v2 k rest _ hk => ?_
  subst hk
  refine .bind (nextByte_reads rest) (by omega) fun op k rest _ hk => .ite (fun _ => .refuse _) fun _ => ?_
  subst hk
  refine .ite (fun _ => .refuse _) fun hb => .ite (fun _ => .ud) fun hgood => .ite (fun _ => .ud) fun _ =>
    .ite (fun _ => .ud) fun _ => ?_
  obtain ⟨rfl, hlen, hlen2⟩ := Pfxs.len_of_goodForVex hgood
  have hext : m = .mode32 → false = false ∧ (!v1[7]) = false ∧ (!v1[6]) = false ∧ (!v1[5]) = false := by
    intro h
    cases bs with
    | nil => cases hv1
    | cons b bs =>
      cases hv1
      simpa [topBits_of_eq_three _ (hrec h _ _ rfl), h] using hb
  refine .bind (readForm_reads hm p hext rest) (by simp; omega) fun f k rest _ ⟨hk, hf⟩ => .ok ?_
  refine selectVex_readAfter (hf.wf16 rfl) ?_
  rw [Form.len, hf.seg, hf.a67, Option.toList_none, List.length_nil]
  omega

theorem evexXCheck_peeks (m : Mode) (p0 : Byte) (bs : List Byte) : Peeks 1 (evexXCheck m p0) bs := by
  unfold evexXCheck Peeks
  by_cases h : (m == .mode64 && !p0[6]) = true
  · simp only [h, if_true]
    cases bs with
    | nil => exact Nat.one_pos
    | cons b bs =>
      by_cases hb : b.extractLsb' 6 2 = 3#2
      · simp [Reads, hb, bind, Except.bind]
      · simp [Reads, hb, bind, Except.bind]
  · simp [Reads, h, bind, Except.bind]

theorem decodeEvex_reads (hm : m.admitted = true) (bs : List Byte)
    (hrec : m = .mode32 → ∀ b rest, bs = b :: rest → b.extractLsb' 6 2 = 3#2) :
    Reads (Instr.ReadAfter m (p.len + rex.toList.length + 1)) (14 - (p.len + rex.toList.length + 1))
      (decodeEvex m p rex) bs := by
  have hp := p.len_le_five
  have hr : rex.toList.length ≤ 1 := by cases rex <;> simp
  unfold decodeEvex
  refine .bind (nextByte_reads bs) (by omega) fun p0 k rest hp0 hk => ?_
  subst hk
  refine .bind (nextByte_reads rest) (by omega) fun p1 k rest _ hk => ?_
  subst hk
  refine .bind (nextByte_reads rest) (by omega) fun p2 k rest _ hk => ?_
  subst hk
  refine .bind (nextByte_reads rest) (by omega) fun op k rest _ hk => .ite (fun _ => .refuse _) fun _ => ?_
  subst hk
  refine .ite (fun _ => .refuse _) fun _ => .ite (fun _ => .refuse _) fun _ => .ite (fun _ => .refuse _) fun hb => ?_
  refine .peek (evexXCheck_peeks m p0 rest) (by omega) fun _ _ => ?_
  refine .ite (fun _ => .ud) fun hgood => .ite (fun _ => .ud) fun _ => .ite (fun _ => .ud) fun _ => ?_
  obtain ⟨rfl, hlen, hlen2⟩ := Pfxs.len_of_goodForVex hgood
  have hext : m = .mode32 → (!p0[4]) = false ∧ (!p0[7]) = false ∧ (!p0[6]) = false ∧ (!p0[5]) = false := by
    intro h
    cases bs with
    | nil => cases hp0
    | cons b bs =>
      cases hp0
      simpa [topBits_of_eq_three _ (hrec h _ _ rfl), h, and_comm] using hb
  refine .bind (readForm_reads hm p hext rest) (by simp; omega) fun f k rest _ ⟨hk, hf⟩ => .ok ?_
  refine selectEvex_readAfter hf.wf32 ?_
  rw [Form.len, hf.seg, hf.a67, Option.toList_none, List.length_nil]
  omega

theorem vexRecognised_peeks (m : Mode) (bs : List Byte) : Peeks 1 (vexRecognised m) bs := by
  unfold vexRecognised Peeks
  by_cases h : (m == .mode64) = true
  · simp [Reads, h, bind, Except.bind]
  · cases bs <;> simp [Reads, h, nextByte, bind, Except.bind]

/-- Recognition in `Mode32` says that the next byte has both top bits set. -/
theorem topBits_of_vexRecognised {b : Byte} {bs : List Byte} (h : vexRecognised .mode32 (b :: bs) = .ok true) :
    b.extractLsb' 6 2 = 3#2 := by
  simpa [vexRecognised, bind, Except.bind] using h

theorem decodeClass_reads (hm : m.admitted = true) (hrex : rex.isSome = true → m = .mode64) (bs : List Byte) :
    Reads (Instr.ReadAfter m (p.len + rex.toList.length)) (14 - (p.len + rex.toList.length))
      (decodeClass m p rex) bs := by
  have hp := p.len_le_five
  have hr : rex.toList.length ≤ 1 := by cases rex <;> simp
  have hshift {f : List Byte → Scan (Instr × List Byte)} {rest : List Byte}
      (h : Reads (Instr.ReadAfter m (p.len + rex.toList.length + 1)) (14 - (p.len + rex.toList.length + 1)) f rest) :
      Reads (fun i j => i.ReadAfter m (p.len + rex.toList.length) (1 + j)) (14 - (p.len + rex.toList.length) - 1) f rest :=
    h.mono (by omega) fun i k hi => ⟨hi.1, by rw [← hi.2]; omega⟩
  have hrec {rest : List Byte} (h : vexRecognised m rest = .ok true) (h32 : m = .mode32) (b : Byte) (tail : List Byte)
      (hb : rest = b :: tail) : b.extractLsb' 6 2 = 3#2 := by
    subst h32 hb
    exact topBits_of_vexRecognised h
  unfold decodeClass
  refine .bind (nextByte_reads bs) (by omega) fun b k rest _ hk => ?_
  subst hk
  refine .ite (fun _ => hshift (decodeLegacy_reads hm hrex rest)) fun _ => .ite (fun _ => ?_) fun _ =>
    .ite (fun _ => ?_) fun _ => .refuse _
  · refine .peek (vexRecognised_peeks m rest) (by omega) fun v hv => .ite (fun h => ?_) fun _ => .refuse _
    exact hshift (decodeVex_reads hm rest (hrec (h ▸ hv)))
  · refine .peek (vexRecognised_peeks m rest) (by omega) fun v hv => .ite (fun h => ?_) fun _ => .refuse _
    exact hshift (decodeEvex_reads hm rest (hrec (h ▸ hv)))

end

/-! ## The decoder -/

/-- THE DECODER, in one statement: an answer is an instruction that the mode can encode, of as many bytes as were taken; at
most fourteen bytes are asked for; later bytes change neither an answer nor a stop. -/
theorem decode_reads (m : Mode) (bs : List Byte) : Reads (Instr.ReadAfter m 0) 14 (decode m) bs := by
  unfold decode
  refine .ite (fun hm => ?_) fun _ => .refuse _
  refine .bind (readPfxs_reads {} bs) (by omega) fun p k rest _ hk => ?_
  have hp := p.len_le_five
  have hk : k = p.len := by simpa [Pfxs.len] using hk
  subst hk
  refine .bind (readRex_reads m rest) (by omega) fun rex k rest _ ⟨hk, hrex⟩ => ?_
  subst hk
  exact (decodeClass_reads hm hrex rest).mono (by omega) fun i k hi => ⟨hi.1, by rw [← hi.2]; omega⟩

/-- What the decoder answers is an instruction of the mode, of the length it has taken. -/
theorem wf_of_decode {m : Mode} {bs rest : List Byte} {i : Instr} (h : decode m bs = .ok (i, rest)) :
    i.wf m = true ∧ bs.length = i.len + rest.length := by
  obtain ⟨⟨k, ⟨hwf, hk⟩, hl⟩, -⟩ := (decode_reads m bs).of_ok h
  exact ⟨hwf, by omega⟩

/-- Later bytes do not change an answer. -/
theorem decode_append_of_ok {m : Mode} {bs rest : List Byte} {i : Instr} (h : decode m bs = .ok (i, rest))
    (later : List Byte) : decode m (bs ++ later) = .ok (i, rest ++ later) :=
  ((decode_reads m bs).of_ok h).2 later

/-- Later bytes do not change a stop. -/
theorem decode_append_of_stop {m : Mode} {bs : List Byte} {e : Stop} (he : e ≠ .more) (h : decode m bs = .error e)
    (later : List Byte) : decode m (bs ++ later) = .error e :=
  (decode_reads m bs).of_stop he h later

/-- The decoder asks for no fifteenth byte. -/
theorem length_lt_of_decode_more {m : Mode} {bs : List Byte} (h : decode m bs = .error .more) : bs.length < 14 :=
  (decode_reads m bs).of_more h

/-- Every instruction has 6 to 14 bytes (30_encoding.md R114). -/
theorem Instr.len_bounds (i : Instr) : 6 ≤ i.len ∧ i.len ≤ 14 := by
  have hseg : i.form.seg.toList.length ≤ 1 := by cases i.form.seg <;> simp
  have ha67 := Bool.toNat_le i.form.a67
  have hdest := i.form.dest.len_le_five
  cases i with
  | pextrb rex | pextrd rex | pextrq rex =>
    have hrex := Bool.toNat_le rex
    simp only [Instr.form, Instr.len, Form.len] at *
    omega
  | vpextrbVex | vpextrdVex | vpextrqVex | vpextrbEvex | vpextrdEvex | vpextrqEvex =>
    simp only [Instr.form, Instr.len, Form.len] at *
    omega

end Sys2Proof
end

section
/-! SUPPORT. Addresses in CS as numbers: the code region, the byte at an offset, and the bytes a step fetches. -/

namespace Sys2Proof.Machine

/-! ## Linear addresses and the code region -/

theorem addrBits_eq (m : Mode) : addrBits m = 64 ∨ addrBits m = 32 := by
  unfold addrBits
  split
  · exact .inl rfl
  · exact .inr rfl

/-- A linear address as a number (20_memory.md R56). -/
theorem linear_toNat (s : State) (seg : Seg) (ea : Word64) :
    (s.linear seg ea).toNat = (s.baseVal seg + ea.toNat) % 2 ^ addrBits s.mode := by
  rw [State.linear, wrapAddr_toNat, State.baseVal, BitVec.toNat_add]
  rcases addrBits_eq s.mode with h | h <;> rw [h] <;> omega

/-- The offset in CS of a byte to be fetched as a number. -/
theorem fetchEa_toNat (s : State) (k : Nat) : (s.fetchEa k).toNat = (s.rip.toNat + k) % 2 ^ addrBits s.mode := by
  rw [State.fetchEa, wrapAddr_toNat, BitVec.toNat_add, BitVec.toNat_ofNat]
  rcases addrBits_eq s.mode with h | h <;> rw [h] <;> omega

/-- A difference of addresses, brought to the width of the mode. -/
theorem wrapAddr_sub_toNat (m : Mode) (a b : Word64) :
    (wrapAddr m (a - b)).toNat = (a.toNat + (2 ^ 64 - b.toNat)) % 2 ^ addrBits m := by
  have := b.isLt
  rw [wrapAddr_toNat, BitVec.toNat_sub]
  rcases addrBits_eq m with h | h <;> rw [h] <;> omega

/-- The code region on numbers: how far an address lies above `codeStart` in CS, against the region's size. -/
theorem inCode_iff_toNat (s : State) (la : Word64) : s.inCode la = true ↔
    (la.toNat + (2 ^ 64 - s.baseVal .cs) + (2 ^ 64 - s.codeStart.toNat)) % 2 ^ addrBits s.mode <
      (s.endAddr.toNat + (2 ^ 64 - s.codeStart.toNat)) % 2 ^ addrBits s.mode := by
  have hla : (wrapAddr s.mode (la - s.segBase .cs - s.codeStart)).toNat =
      (la.toNat + (2 ^ 64 - s.baseVal .cs) + (2 ^ 64 - s.codeStart.toNat)) % 2 ^ addrBits s.mode := by
    have h1 := (s.segBase .cs).isLt
    have h2 := s.codeStart.isLt
    rw [wrapAddr_sub_toNat, BitVec.toNat_sub, State.baseVal]
    rcases addrBits_eq s.mode with h | h <;> rw [h] <;> omega
  rw [State.inCode, decide_eq_true_eq, BitVec.lt_def, hla, wrapAddr_sub_toNat]

/-- Where the region does not wrap it is the interval of R9, moved by the CS base (20_memory.md R68). -/
theorem inCode_iff_exists_offset {s : State} {la : Word64} (hla : la.toNat < 2 ^ addrBits s.mode)
    (hend : s.endAddr.toNat < 2 ^ addrBits s.mode) (hle : s.codeStart.toNat ≤ s.endAddr.toNat) :
    s.inCode la = true ↔ ∃ off : Nat, s.codeStart.toNat ≤ off ∧ off < s.endAddr.toNat ∧
      la.toNat = (s.baseVal .cs + off) % 2 ^ addrBits s.mode := by
  have hbase : s.baseVal .cs < 2 ^ addrBits s.mode := Nat.mod_lt _ (Nat.two_pow_pos _)
  rw [inCode_iff_toNat]
  generalize s.baseVal .cs = base at *
  generalize s.codeStart.toNat = lo at *
  generalize s.endAddr.toNat = hi at *
  generalize la.toNat = a at *
  have hw := addrBits_eq s.mode
  generalize addrBits s.mode = w at *
  constructor
  · intro h
    refine ⟨lo + (a + (2 ^ 64 - base) + (2 ^ 64 - lo)) % 2 ^ w, ?_⟩
    rcases hw with rfl | rfl <;> omega
  · rintro ⟨off, hlo, hhi, rfl⟩
    rcases hw with rfl | rfl <;> omega

/-- The region is the interval `[codeStart, endAddr)`. -/
theorem inCode_of_offset {s : State} {la : Word64} {off : Nat} (hend : s.endAddr.toNat < 2 ^ addrBits s.mode)
    (hlo : s.codeStart.toNat ≤ off) (hhi : off < s.endAddr.toNat)
    (hla : la.toNat = (s.baseVal .cs + off) % 2 ^ addrBits s.mode) : s.inCode la = true :=
  (inCode_iff_exists_offset (hla ▸ Nat.mod_lt _ (Nat.two_pow_pos _)) hend (by omega)).2 ⟨off, hlo, hhi, hla⟩

/-- Settles O39: the region on numbers is the interval, moved by the CS base. -/
theorem codeRegionIsTheInterval : Obligations.CodeRegionIsTheInterval :=
  fun _ _ _ hla hend hle => inCode_iff_exists_offset hla hend hle

/-! ## The byte at an offset in CS -/

/-- The byte of memory at an offset in CS. -/
def State.codeByte (s : State) (off : Nat) : Byte := s.mem.read ((s.baseVal .cs + off) % 2 ^ addrBits s.mode)

/-- The byte that fetching and `HoldsAtRip` speak of. -/
theorem read_linear_fetchEa (s : State) (k : Nat) :
    s.mem.read (s.linear .cs (s.fetchEa k)).toNat = s.codeByte (s.rip.toNat + k) := by
  rw [linear_toNat, fetchEa_toNat, Nat.add_mod_mod]
  rfl

/-- The byte that `HoldsProgram` speaks of. -/
theorem read_linear_codeStart (s : State) (k : Nat) :
    s.mem.read (s.linear .cs (s.codeStart + BitVec.ofNat 64 k)).toNat = s.codeByte (s.codeStart.toNat + k) := by
  rw [linear_toNat, State.codeByte, BitVec.toNat_add, BitVec.toNat_ofNat]
  congr 1
  rcases addrBits_eq s.mode with h | h <;> rw [h] <;> omega

/-! ## What a step fetches -/

/-- The bytes a step has before it decodes. -/
def State.fetched (s : State) : List Byte := (fetchBytes s Config.maxLen 0).1

theorem fetchEa_ofNat (s : State) (j : Nat) : wrapAddr s.mode (s.rip + BitVec.ofNat 64 j) = s.fetchEa j := rfl

theorem ofNat_add_one (j : Nat) : (BitVec.ofNat 64 j + 1 : Word64) = BitVec.ofNat 64 (j + 1) := by
  apply BitVec.eq_of_toNat_eq
  simp [BitVec.toNat_add]

/-- Each fetched byte is the one in memory. -/
theorem getElem_fetchBytes (s : State) (n j k : Nat) (hk : k < (fetchBytes s n (BitVec.ofNat 64 j)).1.length) :
    (fetchBytes s n (BitVec.ofNat 64 j)).1[k] = s.codeByte (s.rip.toNat + (j + k)) := by
  induction n generalizing j k with
  | zero => exact absurd hk (Nat.not_lt_zero k)
  | succ n ih =>
    cases ha : s.admission .fetch .cs (s.fetchEa j) (s.linear .cs (s.fetchEa j)) 1 with
    | some x =>
      rw [fetchBytes_refused n ha] at hk
      exact absurd hk (Nat.not_lt_zero k)
    | none =>
      have hcons := congrArg Prod.fst (fetchBytes_admitted n ha)
      rw [ofNat_add_one] at hcons
      cases k with
      | zero => simp only [hcons, List.getElem_cons_zero, fetchEa_ofNat, read_linear_fetchEa, Nat.add_zero]
      | succ k =>
        simp only [hcons, List.length_cons, Nat.add_lt_add_iff_right] at hk
        simp only [hcons, List.getElem_cons_succ, ih (j + 1) k hk]
        congr 2
        omega

theorem getElem_fetched (s : State) (k : Nat) (hk : k < s.fetched.length) : s.fetched[k] = s.codeByte (s.rip.toNat + k) := by
  have h := getElem_fetchBytes s Config.maxLen 0 k hk
  rwa [Nat.zero_add] at h

/-- All bytes that are admitted are fetched. -/
theorem le_length_fetchBytes (s : State) (n j k : Nat) (hk : k ≤ n)
    (hadm : ∀ l, l < k → s.admission .fetch .cs (s.fetchEa (j + l)) (s.linear .cs (s.fetchEa (j + l))) 1 = none) :
    k ≤ (fetchBytes s n (BitVec.ofNat 64 j)).1.length := by
  induction n generalizing j k with
  | zero => omega
  | succ n ih =>
    cases k with
    | zero => exact Nat.zero_le _
    | succ k =>
      have hj := hadm 0 (Nat.succ_pos k)
      rw [Nat.add_zero] at hj
      rw [fetchBytes_admitted n hj, ofNat_add_one]
      refine Nat.succ_le_succ (ih (j + 1) k (by omega) fun l hl => ?_)
      rw [show j + 1 + l = j + (l + 1) by omega]
      exact hadm (l + 1) (by omega)

/-- Bytes that stand at `rip` and are admitted are fetched, up to the longest instruction. -/
theorem min_le_length_fetched {s : State} {bs : List Byte} (h : s.HoldsAtRip bs) :
    min bs.length Config.maxLen ≤ s.fetched.length := by
  refine le_length_fetchBytes s Config.maxLen 0 _ (Nat.min_le_right _ _) fun l hl => ?_
  rw [Nat.zero_add]
  exact (h l (lt_of_lt_of_le hl (Nat.min_le_left _ _))).1

/-- Two lists that agree where both have an element: one begins with the other. -/
theorem prefix_or_prefix_of_getElem {α : Type} {as bs : List α}
    (h : ∀ k (ha : k < as.length) (hb : k < bs.length), as[k] = bs[k]) : as <+: bs ∨ bs <+: as := by
  simp only [List.prefix_iff_getElem]
  rcases Nat.le_total as.length bs.length with hle | hle
  · exact .inl ⟨hle, fun k hk => h k hk (by omega)⟩
  · exact .inr ⟨hle, fun k hk => (h k (by omega) hk).symm⟩

/-- What is fetched, and the bytes that memory holds at `rip`: one begins with the other. -/
theorem fetched_prefix_or_prefix {s : State} {bs : List Byte}
    (h : ∀ k (hk : k < bs.length), s.codeByte (s.rip.toNat + k) = bs[k]) : s.fetched <+: bs ∨ bs <+: s.fetched :=
  prefix_or_prefix_of_getElem fun k hk hb => (getElem_fetched s k hk).trans (h k hb)

/-! ## The decoder on bytes that begin alike -/

/-- Two instructions decoded from bytes of which one begins with the other are the same. -/
theorem decode_instr_unique {m : Mode} {as bs ra rb : List Byte} {i j : Instr} (h : as <+: bs ∨ bs <+: as)
    (ha : decode m as = .ok (i, ra)) (hb : decode m bs = .ok (j, rb)) : i = j := by
  rcases h with ⟨later, rfl⟩ | ⟨later, rfl⟩
  · rw [decode_append_of_ok ha] at hb
    cases hb; rfl
  · rw [decode_append_of_ok hb] at ha
    cases ha; rfl

/-- A stop on some bytes is a stop on bytes that begin with them, and on an initial piece of them that is long enough for
the decoder not to ask for more. -/
theorem decode_stop_transfer {m : Mode} {as bs : List Byte} {e : Stop} (h : as <+: bs ∨ bs <+: as)
    (hlen : min bs.length 14 ≤ as.length) (he : e ≠ .more) (hb : decode m bs = .error e) : decode m as = .error e := by
  rcases h with ⟨later, rfl⟩ | ⟨later, rfl⟩
  · cases ha : decode m as with
    | ok x =>
      rw [decode_append_of_ok ha] at hb
      cases hb
    | error e' =>
      by_cases hmore : e' = .more
      · subst hmore
        have := length_lt_of_decode_more ha
        have hlater : later = [] := List.length_eq_zero_iff.1 (by rw [List.length_append] at hlen; omega)
        rw [hlater, List.append_nil] at hb
        exact ha.symm.trans hb
      · exact (decode_append_of_stop hmore ha later).symm.trans hb
  · exact decode_append_of_stop he hb later

/-- What a fetch answers where the decoder stops on the fetched bytes. -/
theorem fetchInstr_ud {s : State} (hm : s.mode.admitted = true) (h : decode s.mode s.fetched = .error .ud) :
    fetchInstr s = .raise .ud := by
  rw [State.fetched] at h
  simp only [fetchInstr, hm, Bool.not_true, Bool.false_eq_true, if_false, h]

theorem fetchInstr_refuse {s : State} {r : RefusalReason} (hm : s.mode.admitted = true)
    (h : decode s.mode s.fetched = .error (.refuse r)) : fetchInstr s = .refuse r := by
  rw [State.fetched] at h
  simp only [fetchInstr, hm, Bool.not_true, Bool.false_eq_true, if_false, h]

/-- Bytes at `rip` on which the decoder stops make it stop on what is fetched. -/
theorem decode_fetched_of_stop {s : State} {bs : List Byte} {e : Stop} (h : s.HoldsAtRip bs) (he : e ≠ .more)
    (hd : decode s.mode bs = .error e) : decode s.mode s.fetched = .error e := by
  have hlen := min_le_length_fetched h
  have hmax : Config.maxLen = 15 := rfl
  refine decode_stop_transfer (fetched_prefix_or_prefix fun k hk => ?_) (by omega) he hd
  rw [← read_linear_fetchEa]
  exact (h k hk).2

/-- Settles O42: what is fetched begins like the bytes at `rip`, and is long enough for the decoder to stop in the same
way. -/
theorem stepAnswersWhereTheDecoderStops : Obligations.StepAnswersWhereTheDecoderStops := by
  refine fun s bs hm hbs => ⟨fun hd => ?_, fun r hd => ?_⟩
  · rw [step, fetchInstr_ud hm (decode_fetched_of_stop hbs (by simp) hd)]
    rfl
  · rw [step, fetchInstr_refuse hm (decode_fetched_of_stop hbs (by simp) hd)]
    rfl

/-! ## Refusals -/

/-- What a store can be refused for. -/
theorem storeElem_refused {e : Elem} {n8 len : Nat} {f : Form} {a : Addr} {v : Word64} {s : State} {r : Refusal}
    (h : storeElem e n8 len f a v s = .refused r) : r = .reason .smc := by
  simp only [storeElem] at h
  split at h
  · cases h; rfl
  split at h
  · cases h
  split at h <;> cases h

/-- What a meaning can be refused for: a reason of R118, or a term that the mode cannot encode. -/
theorem exec_refused {i : Instr} {s : State} {r : Refusal} (h : exec i s = .refused r) :
    (∃ x, r = .reason x) ∨ i.wf s.mode = false := by
  rw [exec_eq, runExtract] at h
  split at h
  · cases h; exact .inl ⟨_, rfl⟩
  split at h
  · rename_i hwf; exact .inr (by simpa using hwf)
  split at h
  · cases h
  split at h
  · cases h
  rw [execExtract] at h
  split at h
  · cases h
  · exact .inl ⟨_, storeElem_refused h⟩

/-- An instruction that was fetched is one that the mode can encode. -/
theorem wf_of_fetchInstr {s : State} {i : Instr} (h : fetchInstr s = .instr i) : i.wf s.mode = true := by
  obtain ⟨-, rest, hd⟩ := fetchInstr_instr h
  exact (wf_of_decode hd).1

/-- Settles O55: what the decoder answers is well-formed, and only then a meaning refuses for no reason of R118. -/
theorem stepRefusesOnlyForTheSpecsReasons : Obligations.StepRefusesOnlyForTheSpecsReasons := by
  intro s r h
  rw [step] at h
  split at h
  · rename_i i hi
    rcases exec_refused h with hr | hwf
    · exact hr
    · rw [wf_of_fetchInstr hi] at hwf
      cases hwf
  · cases h
  · cases h; exact ⟨_, rfl⟩

end Sys2Proof.Machine
end

section
/-! SUPPORT. What every completed step keeps, and runs: where the instruction pointer stands, what the run has fetched, and
how it ends. -/

namespace Sys2Proof.Machine

/-! ## What a completed step keeps -/

/-- A completed step leaves memory alone, or stores bytes none of which lies in the code region (20_memory.md R68). -/
theorem step_next_mem {s t : State} (h : step s = .next t) :
    t.mem = s.mem ∨ ∃ la v n, s.meetsCode la n = false ∧ t.mem = memWrite s.mode s.mem la v n := by
  obtain ⟨i, -, hx⟩ := step_next h
  obtain ⟨-, ⟨r, -, rfl⟩ | ⟨a, -, hlets, rfl⟩⟩ := exec_next hx
  · exact .inl (by simp)
  · exact .inr ⟨_, _, _, hlets.code, rfl⟩

/-- The invariant is kept by every step. -/
theorem step_keeps_inv {s t : State} (hinv : s.Inv) (h : step s = .next t) : t.Inv := by
  obtain ⟨hun, i, -, hrip⟩ := step_next_untouched h
  constructor
  case mem =>
    rcases step_next_mem h with hm | ⟨la, v, n, -, hm⟩
    · rw [hm]; exact hinv.mem
    · rw [hm]; exact wf_memWrite _ _ _ _ _ hinv.mem
  case rip =>
    intro hmode
    rw [hun.mode] at hmode
    rw [hrip, ripNext_toNat, addrBits, if_neg hmode]
    exact Nat.mod_lt _ (Nat.two_pow_pos _)

/-- A byte that a store writes is checked against the code region. -/
theorem ne_byteAddr_of_inCode {s : State} {la a : Word64} {n k : Nat} (hmeets : s.meetsCode la n = false)
    (ha : s.inCode a = true) (hk : k < n) : a.toNat ≠ byteAddr s.mode la k := by
  intro he
  have hw : a = wrapAddr s.mode (la + BitVec.ofNat 64 k) := BitVec.eq_of_toNat_eq he
  have hout := List.any_eq_false.1 hmeets k (List.mem_range.2 hk)
  rw [← hw] at hout
  exact hout ha

/-- No step changes a byte of the code region. -/
theorem step_keeps_code {s t : State} (hinv : s.Inv) (h : step s = .next t) (a : Word64) (ha : s.inCode a = true) :
    t.mem.read a.toNat = s.mem.read a.toNat := by
  rcases step_next_mem h with hm | ⟨la, v, n, hcode, hm⟩
  · rw [hm]
  · rw [hm]
    exact read_memWrite_other _ _ _ _ _ _ hinv.mem fun k hk => ne_byteAddr_of_inCode hcode ha hk

/-- The instruction pointer after a completed step, as a number (10_state.md R26). -/
theorem step_next_rip {s t : State} {i : Instr} (hi : fetchInstr s = .instr i) (h : step s = .next t) :
    t.rip.toNat = (s.rip.toNat + i.len) % 2 ^ addrBits s.mode := by
  obtain ⟨-, j, hj, hrip⟩ := step_next_untouched h
  rw [hi] at hj
  cases hj
  rw [hrip, ripNext_toNat]

/-- The CS base depends on fields that no form writes. -/
theorem baseVal_of_untouched {s t : State} (h : Untouched s t) (seg : Seg) : t.baseVal seg = s.baseVal seg := by
  unfold State.baseVal State.segBase
  rw [h.mode, h.segbase]

/-- What a step, and so a run, keeps: the configuration, the invariant and the code. -/
structure Kept (s t : State) : Prop where
  rest : Untouched s t
  inv  : t.Inv
  code : ∀ a : Word64, s.inCode a = true → t.mem.read a.toNat = s.mem.read a.toNat

theorem Kept.refl {s : State} (h : s.Inv) : Kept s s := ⟨untouched_refl s, h, fun _ _ => rfl⟩

theorem Kept.trans {s t u : State} (h : Kept s t) (k : Kept t u) : Kept s u where
  rest := untouched_trans h.rest k.rest
  inv := k.inv
  code a ha := (k.code a ((inCode_of_untouched h.rest a).trans ha)).trans (h.code a ha)

theorem kept_of_step {s t : State} (hinv : s.Inv) (h : step s = .next t) : Kept s t :=
  ⟨(step_next_untouched h).1, step_keeps_inv hinv h, step_keeps_code hinv h⟩

theorem kept_of_continues {s u : State} {k : Nat} (hinv : s.Inv) (h : Continues s k u) : Kept s u := by
  induction k generalizing s with
  | zero => cases h; exact .refl hinv
  | succ k ih =>
    obtain ⟨v, hv, -, hu⟩ := h
    have hkept := kept_of_step hinv hv
    exact hkept.trans (ih hkept.inv hu)

/-- The bytes of a region that does not wrap are kept, offset by offset. -/
theorem Kept.codeByte {s t : State} (h : Kept s t) (hend : s.endAddr.toNat < 2 ^ addrBits s.mode) {off : Nat}
    (hlo : s.codeStart.toNat ≤ off) (hhi : off < s.endAddr.toNat) : t.codeByte off = s.codeByte off := by
  have hlt : (s.baseVal .cs + off) % 2 ^ addrBits s.mode < 2 ^ 64 := by
    rcases addrBits_eq s.mode with hw | hw <;> rw [hw] <;> omega
  have hnat : (BitVec.ofNat 64 ((s.baseVal .cs + off) % 2 ^ addrBits s.mode)).toNat =
      (s.baseVal .cs + off) % 2 ^ addrBits s.mode := by
    rw [BitVec.toNat_ofNat, Nat.mod_eq_of_lt hlt]
  have hread := h.code _ (inCode_of_offset hend hlo hhi hnat)
  rw [hnat] at hread
  rw [State.codeByte, baseVal_of_untouched h.rest, h.rest.mode, hread, State.codeByte]

/-! ## Runs -/

/-- Two runs of as many steps are one. -/
theorem continues_unique {s u v : State} {k : Nat} (hu : Continues s k u) (hv : Continues s k v) : u = v := by
  induction k generalizing s with
  | zero => cases hu; cases hv; rfl
  | succ k ih =>
    obtain ⟨a, ha, -, hu⟩ := hu
    obtain ⟨b, hb, -, hv⟩ := hv
    rw [ha] at hb
    cases hb
    exact ih hu hv

/-- A run goes on from each of its states. -/
theorem continues_split {s v : State} {j k : Nat} (h : Continues s (j + k) v) : ∃ u, Continues s j u ∧ Continues u k v := by
  induction j generalizing s with
  | zero => exact ⟨s, rfl, by rwa [Nat.zero_add] at h⟩
  | succ j ih =>
    rw [Nat.succ_add] at h
    obtain ⟨a, ha, he, h⟩ := h
    obtain ⟨u, hu, huv⟩ := ih h
    exact ⟨u, ⟨a, ha, he, hu⟩, huv⟩

/-- The instruction pointer after a list of instructions, from an `rip` of the mode's width. -/
theorem runsThrough_rip {s t : State} {is : List Instr} (hs : s.rip.toNat < 2 ^ addrBits s.mode)
    (h : RunsThrough s is t) : t.rip.toNat = (s.rip.toNat + (is.map Instr.len).sum) % 2 ^ addrBits s.mode := by
  induction is generalizing s with
  | nil => cases h; exact (Nat.mod_eq_of_lt hs).symm
  | cons i is ih =>
    obtain ⟨u, hi, hu, h⟩ := h
    have hrip := step_next_rip hi hu
    have hmode := (step_next_untouched hu).1.mode
    rw [ih (by rw [hrip, hmode]; exact Nat.mod_lt _ (Nat.two_pow_pos _)) h, hmode, hrip, Nat.mod_add_mod, List.map_cons,
      List.sum_cons, Nat.add_assoc]

/-- A launch state's `rip` has the mode's width. -/
theorem launch_rip_lt {s : State} (h : s.Launch) : s.rip.toNat < 2 ^ addrBits s.mode := by
  rw [launch_rip_toNat h]
  exact Nat.mod_lt _ (Nat.two_pow_pos _)

/-- At the end `rip` is `endAddr`, both as numbers of the mode's width. -/
theorem atEnd_iff_toNat (s : State) : s.atEnd ↔ s.rip.toNat = s.endAddr.toNat % 2 ^ addrBits s.mode := by
  rw [State.atEnd, ← wrapAddr_toNat, BitVec.toNat_inj]

/-- A run that goes on, and one step more. -/
theorem runsThrough_of_continues_step {s u t : State} {k : Nat} (h : Continues s k u) (hu : step u = .next t) :
    ∃ is : List Instr, is.length = k + 1 ∧ RunsThrough s is t := by
  obtain ⟨is, hlen, hrun⟩ := continues_runsThrough h
  obtain ⟨i, hi, -⟩ := step_next hu
  exact ⟨is ++ [i], by simp [hlen], runsThrough_snoc hrun hi hu⟩

theorem runsThrough_append {s u t : State} {is js : List Instr} (h : RunsThrough s is u) (k : RunsThrough u js t) :
    RunsThrough s (is ++ js) t := by
  induction is generalizing s with
  | nil => cases h; exact k
  | cons i is ih =>
    obtain ⟨v, hi, hv, h⟩ := h
    exact ⟨v, hi, hv, ih h⟩

theorem untouched_of_runsThrough {s t : State} {is : List Instr} (h : RunsThrough s is t) : Untouched s t := by
  induction is generalizing s with
  | nil => cases h; exact untouched_refl _
  | cons i is ih =>
    obtain ⟨u, -, hu, h⟩ := h
    exact untouched_trans (step_next_untouched hu).1 (ih h)

/-- Settles O57: the instructions fetched, one per step; each adds its length to `rip`. -/
theorem goodRunIsAStraightLine : Obligations.GoodRunIsAStraightLine := by
  intro s t k h
  cases k with
  | zero => exact h.elim
  | succ k =>
    obtain ⟨hlaunch, u, hu, ht, hend⟩ := h
    obtain ⟨is, hlen, hrun⟩ := runsThrough_of_continues_step hu ht
    have hun := untouched_of_runsThrough hrun
    refine ⟨is, hlen, hrun, fun i _ => i.len_bounds, ?_, ?_⟩
    · rw [runsThrough_rip (launch_rip_lt hlaunch) hrun, launch_rip_toNat hlaunch, Nat.mod_add_mod]
    · rw [(atEnd_iff_toNat t).1 hend, hun.endAddr, hun.mode]

/-! ## Where a run with a good end fetches -/

theorem sum_len_le (is : List Instr) : (is.map Instr.len).sum ≤ 14 * is.length := by
  induction is with
  | nil => simp
  | cons i is ih =>
    have := i.len_bounds
    simp only [List.map_cons, List.sum_cons, List.length_cons]
    omega

/-- The run through one of its states: the instructions before it, the one fetched there, and those after it. -/
theorem runsThrough_around {s u v t : State} {j k : Nat} {i : Instr} (hu : Continues s j u) (hv : Continues s k v)
    (hjk : j ≤ k) (ht : step v = .next t) (hi : fetchInstr u = .instr i) :
    ∃ before after : List Instr, RunsThrough s before u ∧ RunsThrough s (before ++ i :: after) t ∧
      (before ++ i :: after).length = k + 1 := by
  obtain ⟨d, rfl⟩ := Nat.exists_eq_add_of_le hjk
  obtain ⟨u', hu', hrest⟩ := continues_split hv
  obtain rfl := continues_unique hu hu'
  obtain ⟨before, hlen, hbefore⟩ := continues_runsThrough hu
  obtain ⟨here, hlen', hhere⟩ := runsThrough_of_continues_step hrest ht
  cases here with
  | nil => cases hlen'
  | cons i' after =>
    obtain ⟨_, hi', -, -⟩ := id hhere
    rw [hi] at hi'
    cases hi'
    refine ⟨before, after, hbefore, runsThrough_append hbefore hhere, ?_⟩
    rw [List.length_append, hlen, hlen', Nat.add_assoc]

/-- A run whose lengths do not fill the address space, from `codeStart` to `endAddr` above it, goes from one to the other
without wrapping. -/
theorem codeStart_add_sum {s t : State} {is : List Instr} (hlaunch : s.Launch) (hrun : RunsThrough s is t)
    (hend : t.atEnd) (hle : s.codeStart.toNat ≤ s.endAddr.toNat) (hwidth : s.endAddr.toNat < 2 ^ addrBits s.mode)
    (hsize : 14 * is.length < 2 ^ addrBits s.mode) :
    s.codeStart.toNat + (is.map Instr.len).sum = s.endAddr.toNat := by
  have hun := untouched_of_runsThrough hrun
  have hsum := sum_len_le is
  have hrip := runsThrough_rip (launch_rip_lt hlaunch) hrun
  rw [(atEnd_iff_toNat t).1 hend, hun.endAddr, hun.mode, launch_rip_toNat hlaunch, Nat.mod_add_mod,
    Nat.mod_eq_of_lt hwidth] at hrip
  have hw := addrBits_eq s.mode
  generalize addrBits s.mode = w at *
  rcases hw with rfl | rfl <;> omega

/-- Every byte that a run with a good end fetches lies in the code region (20_memory.md R68). -/
theorem fetch_inCode_of_goodRun {s u v t : State} {j k : Nat} {i : Instr} (hlaunch : s.Launch)
    (hu : Continues s j u) (hv : Continues s k v) (hjk : j ≤ k) (ht : step v = .next t) (hend : t.atEnd)
    (hle : s.codeStart.toNat ≤ s.endAddr.toNat) (hwidth : s.endAddr.toNat < 2 ^ addrBits s.mode)
    (hsize : 14 * (k + 1) < 2 ^ addrBits s.mode) (hi : fetchInstr u = .instr i) {n : Nat} (hn : n < i.len) :
    s.inCode (u.linear .cs (u.fetchEa n)) = true := by
  obtain ⟨before, after, hbefore, hrun, hlen⟩ := runsThrough_around hu hv hjk ht hi
  have hsum := codeStart_add_sum hlaunch hrun hend hle hwidth (hlen ▸ hsize)
  simp only [List.map_append, List.map_cons, List.sum_append, List.sum_cons] at hsum
  have hun := untouched_of_runsThrough hbefore
  have hrip := runsThrough_rip (launch_rip_lt hlaunch) hbefore
  rw [launch_rip_toNat hlaunch, Nat.mod_add_mod] at hrip
  refine inCode_of_offset (off := s.codeStart.toNat + (before.map Instr.len).sum + n) hwidth (by omega) (by omega) ?_
  rw [linear_toNat, fetchEa_toNat, baseVal_of_untouched hun, hun.mode, hrip, Nat.mod_add_mod, Nat.add_mod_mod]

/-- Settles O58: a run keeps what its steps keep, and the lengths of what it fetches add up to the region. -/
theorem goodRunKeepsConfigurationAndCode : Obligations.GoodRunKeepsConfigurationAndCode := by
  intro s t k hinv h
  cases k with
  | zero => exact h.elim
  | succ k =>
    obtain ⟨hlaunch, v, hv, ht, hend⟩ := h
    have hkept := kept_of_continues hinv hv
    have hkept' := hkept.trans (kept_of_step hkept.inv ht)
    refine ⟨hkept'.rest, hkept'.inv, hkept'.code, fun j u hj hu => ?_⟩
    have hu' := kept_of_continues hinv hu
    exact ⟨hu'.rest, hu'.code, fun hle hwidth hsize i hi n hn =>
      fetch_inCode_of_goodRun hlaunch hu hv (Nat.lt_succ_iff.1 hj) ht hend hle hwidth hsize hi hn⟩

/-! ## A program from `codeStart` to `endAddr` -/

/-- What is left to run of a program: the bytes `bs` stand in CS from `rip` on, inside the code region, and reach to
`endAddr` without wrapping. -/
structure State.HoldsRest (s : State) (bs : List Byte) : Prop where
  inv   : s.Inv
  start : s.codeStart.toNat ≤ s.rip.toNat
  size  : s.rip.toNat + bs.length = s.endAddr.toNat
  width : s.endAddr.toNat < 2 ^ addrBits s.mode
  bytes : ∀ k (h : k < bs.length), s.codeByte (s.rip.toNat + k) = bs[k]

/-- A launch state with a program in canonical memory has all of it left to run. -/
theorem holdsRest_of_launch {s : State} {bs : List Byte} (hmem : s.mem.wf = true) (hlaunch : s.Launch)
    (h : s.HoldsProgram bs) : s.HoldsRest bs := by
  have hlt : s.codeStart.toNat < 2 ^ addrBits s.mode := by
    have := h.size
    have := h.width
    omega
  have hrip : s.rip.toNat = s.codeStart.toNat := by rw [launch_rip_toNat hlaunch, Nat.mod_eq_of_lt hlt]
  constructor
  case inv =>
    refine ⟨hmem, fun hmode => ?_⟩
    rw [hrip]
    rwa [addrBits, if_neg hmode] at hlt
  case start => rw [hrip]
  case size => rw [hrip, h.size]
  case width => exact h.width
  case bytes =>
    intro k hk
    rw [hrip, ← read_linear_codeStart]
    exact h.bytes k hk

/-- A step that completes on a program runs its first instruction. -/
theorem fetchInstr_of_holdsRest {s t : State} {bs later : List Byte} {i : Instr} (h : s.HoldsRest (bs ++ later))
    (hd : decode s.mode bs = .ok (i, [])) (ht : step s = .next t) : fetchInstr s = .instr i := by
  obtain ⟨j, hj, -⟩ := step_next ht
  obtain ⟨-, rest, hfetched⟩ := fetchInstr_instr hj
  have hprefix : s.fetched <+: bs ∨ bs <+: s.fetched := by
    refine fetched_prefix_or_prefix fun k hk => ?_
    rw [h.bytes k (by rw [List.length_append]; omega), List.getElem_append_left hk]
  rw [hj, decode_instr_unique hprefix hfetched hd]

/-- After a step that completes on a program, the instructions after the first are left; the program is at its end where
none are. -/
theorem holdsRest_step {s t : State} {bs later : List Byte} {i : Instr} (h : s.HoldsRest (bs ++ later))
    (hd : decode s.mode bs = .ok (i, [])) (ht : step s = .next t) :
    t.mode = s.mode ∧ t.HoldsRest later ∧ (t.atEnd ↔ later = []) := by
  have hkept := kept_of_step h.inv ht
  obtain ⟨hrest, hinv, -⟩ := id hkept
  have hlen : bs.length = i.len := (wf_of_decode hd).2
  have hsize := h.size
  have hwidth := h.width
  have hstart := h.start
  rw [List.length_append, hlen] at hsize
  have hrip : t.rip.toNat = s.rip.toNat + i.len := by
    rw [step_next_rip (fetchInstr_of_holdsRest h hd ht) ht, Nat.mod_eq_of_lt (by omega)]
  refine ⟨hrest.mode, ⟨hinv, ?_, ?_, ?_, fun k hk => ?_⟩, ?_⟩
  · rw [hrip, hrest.codeStart]; omega
  · rw [hrip, hrest.endAddr]; omega
  · rwa [hrest.endAddr, hrest.mode]
  · have hbyte := h.bytes (bs.length + k) (by rw [List.length_append]; omega)
    rw [List.getElem_append_right (by omega)] at hbyte
    rw [hrip, hkept.codeByte hwidth (by omega) (by omega), Nat.add_assoc, ← hlen, hbyte]
    simp
  · rw [atEnd_iff_toNat, hrip, hrest.endAddr, hrest.mode, Nat.mod_eq_of_lt hwidth, ← List.length_eq_zero_iff]
    omega

/-- How a run through what is left of a program ends: after its last instruction at `endAddr`, or before that in a state in
which no step completes. -/
def State.EndsOn (s : State) (is : List Instr) : Prop :=
  (∃ n u t, is.length = n + 1 ∧ Continues s n u ∧ step u = .next t ∧ t.atEnd ∧ RunsThrough s is t) ∨
  (∃ k t, k < is.length ∧ Continues s k t ∧ (∀ t', step t ≠ .next t') ∧ RunsThrough s (is.take k) t)

/-- No step completes. -/
theorem endsOn_of_stop {s : State} {i : Instr} {is : List Instr} (h : ∀ t, step s ≠ .next t) : s.EndsOn (i :: is) :=
  .inr ⟨0, s, Nat.succ_pos _, rfl, h, rfl⟩

/-- The only instruction completes. -/
theorem endsOn_singleton {s t : State} {i : Instr} (hi : fetchInstr s = .instr i) (ht : step s = .next t)
    (hend : t.atEnd) : s.EndsOn [i] :=
  .inl ⟨0, s, t, rfl, rfl, ht, hend, t, hi, ht, rfl⟩

/-- The first of several instructions completes. -/
theorem endsOn_cons {s t : State} {i : Instr} {is : List Instr} (hi : fetchInstr s = .instr i) (ht : step s = .next t)
    (hend : ¬ t.atEnd) (h : t.EndsOn is) : s.EndsOn (i :: is) := by
  rcases h with ⟨n, u, v, hlen, hu, hv, hvend, hrun⟩ | ⟨k, u, hk, hu, hstop, hrun⟩
  · exact .inl ⟨n + 1, u, v, by rw [List.length_cons, hlen], ⟨t, ht, hend, hu⟩, hv, hvend, t, hi, ht, hrun⟩
  · exact .inr ⟨k + 1, u, Nat.succ_lt_succ hk, ⟨t, ht, hend, hu⟩, hstop, t, hi, ht, hrun⟩

/-- A run through what is left of a program, instruction by instruction. -/
theorem endsOn_of_holdsRest (p : List Byte × Instr) (prog : List (List Byte × Instr)) (s : State)
    (hdec : ∀ q ∈ p :: prog, decode s.mode q.1 = .ok (q.2, [])) (h : s.HoldsRest ((p :: prog).map Prod.fst).flatten) :
    s.EndsOn ((p :: prog).map Prod.snd) := by
  induction prog generalizing s p with
  | nil =>
    by_cases hstep : ∃ t, step s = .next t
    · obtain ⟨t, ht⟩ := hstep
      have hp := hdec p (List.mem_cons_self ..)
      obtain ⟨-, -, hend⟩ := holdsRest_step h hp ht
      exact endsOn_singleton (fetchInstr_of_holdsRest h hp ht) ht (hend.2 rfl)
    · exact endsOn_of_stop (not_exists.1 hstep)
  | cons q prog ih =>
    by_cases hstep : ∃ t, step s = .next t
    · obtain ⟨t, ht⟩ := hstep
      have hp := hdec p (List.mem_cons_self ..)
      obtain ⟨hmode, hrest, hend⟩ := holdsRest_step h hp ht
      have hq := (wf_of_decode (hdec q (by simp))).2
      have hlen := q.2.len_bounds
      refine endsOn_cons (fetchInstr_of_holdsRest h hp ht) ht (fun he => ?_) (ih q t (fun x hx => ?_) hrest)
      · have hempty := congrArg List.length (hend.1 he)
        simp only [List.map_cons, List.flatten_cons, List.length_append, List.length_nil] at hempty hq
        omega
      · rw [hmode]
        exact hdec x (List.mem_cons_of_mem _ hx)
    · exact endsOn_of_stop (not_exists.1 hstep)

/-- Settles O60: the run through the whole program, from the launch state. -/
theorem programEndsAfterItsInstructions : Obligations.ProgramEndsAfterItsInstructions := by
  intro s prog hmem hlaunch hne hdec hprog
  cases prog with
  | nil => exact absurd rfl hne
  | cons p prog =>
    have hends := endsOn_of_holdsRest p prog s hdec (holdsRest_of_launch hmem hlaunch hprog)
    rcases hends with ⟨n, u, t, hlen, hu, ht, hend, hrun⟩ | ⟨k, t, hk, ht, hstop, hrun⟩
    · rw [List.length_map] at hlen
      exact .inl ⟨t, hlen ▸ ⟨hlaunch, u, hu, ht, hend⟩, hrun⟩
    · exact .inr ⟨k, t, by rwa [List.length_map] at hk, ⟨hlaunch, ht, hstop⟩, by rwa [List.map_take]⟩

end Sys2Proof.Machine
end

section
/-! SUPPORT. The state by itself: the canonical memory form, reset, linear addresses; and what one step does to it. -/

namespace Sys2Proof.Machine

/-! ## The canonical memory form -/

theorem wfFrom_cons {lo a : Nat} {b : Byte} {rest : Memory} : Memory.wfFrom lo ((a, b) :: rest) = true ↔
    lo ≤ a ∧ a < 2 ^ 64 ∧ b ≠ Memory.unlisted ∧ Memory.wfFrom (a + 1) rest = true := by
  simp [Memory.wfFrom, and_assoc]

@[simp] theorem read_cons_self (a : Nat) (b : Byte) (rest : Memory) : Memory.read ((a, b) :: rest) a = b := by
  simp [Memory.read]

theorem read_cons_of_ne {a x : Nat} (b : Byte) (rest : Memory) (h : x ≠ a) :
    Memory.read ((a, b) :: rest) x = Memory.read rest x := by
  simp [Memory.read, h]

/-- Below the place from which a memory is canonical nothing is listed. -/
theorem read_eq_unlisted_of_lt {m : Memory} {lo x : Nat} (h : Memory.wfFrom lo m = true) (hx : x < lo) :
    m.read x = Memory.unlisted := by
  induction m generalizing lo with
  | nil => rfl
  | cons c rest ih =>
    obtain ⟨a, b⟩ := c
    obtain ⟨hlo, -, -, hrest⟩ := wfFrom_cons.1 h
    rw [read_cons_of_ne b rest (by omega)]
    exact ih hrest (by omega)

/-- In a canonical memory no byte that reads as listed lies below the first entry. -/
theorem head_le_of_read_ne {lo a x : Nat} {b : Byte} {rest : Memory} (h : Memory.wfFrom lo ((a, b) :: rest) = true)
    (hx : Memory.read ((a, b) :: rest) x ≠ Memory.unlisted) : a ≤ x := by
  obtain ⟨-, ha, hb, hrest⟩ := wfFrom_cons.1 h
  exact not_lt.1 fun hlt => hx (read_eq_unlisted_of_lt (wfFrom_cons.2 ⟨le_refl a, ha, hb, hrest⟩) hlt)

/-- A canonical memory with an entry does not read like the empty one. -/
theorem not_reads_empty {lo a : Nat} {b : Byte} {rest : Memory} (h : Memory.wfFrom lo ((a, b) :: rest) = true) :
    ¬ ∀ x, Memory.read ((a, b) :: rest) x = Memory.read [] x := by
  intro he
  have hread := he a
  rw [read_cons_self] at hread
  exact (wfFrom_cons.1 h).2.2.1 hread

/-- Canonical memories that read alike begin with the same entry, and go on alike. -/
theorem reads_alike_cons {lo a₁ a₂ : Nat} {b₁ b₂ : Byte} {rest₁ rest₂ : Memory}
    (h₁ : Memory.wfFrom lo ((a₁, b₁) :: rest₁) = true) (h₂ : Memory.wfFrom lo ((a₂, b₂) :: rest₂) = true)
    (he : ∀ x, Memory.read ((a₁, b₁) :: rest₁) x = Memory.read ((a₂, b₂) :: rest₂) x) :
    a₁ = a₂ ∧ b₁ = b₂ ∧ ∀ x, rest₁.read x = rest₂.read x := by
  obtain ⟨-, -, hb₁, hrest₁⟩ := wfFrom_cons.1 h₁
  obtain ⟨-, -, hb₂, hrest₂⟩ := wfFrom_cons.1 h₂
  have hle : a₁ ≤ a₂ := head_le_of_read_ne h₁ (by rwa [he, read_cons_self])
  have hge : a₂ ≤ a₁ := head_le_of_read_ne h₂ (by rwa [← he, read_cons_self])
  obtain rfl := Nat.le_antisymm hle hge
  refine ⟨rfl, by simpa using he a₁, fun x => ?_⟩
  by_cases hx : x = a₁
  · subst hx
    rw [read_eq_unlisted_of_lt hrest₁ (Nat.lt_succ_self x), read_eq_unlisted_of_lt hrest₂ (Nat.lt_succ_self x)]
  · simpa [read_cons_of_ne, hx] using he x

theorem eq_of_reads_alike {m₁ m₂ : Memory} {lo : Nat} (h₁ : Memory.wfFrom lo m₁ = true)
    (h₂ : Memory.wfFrom lo m₂ = true) (he : ∀ x, m₁.read x = m₂.read x) : m₁ = m₂ := by
  induction m₁ generalizing lo m₂ with
  | nil =>
    cases m₂ with
    | nil => rfl
    | cons c₂ rest₂ => exact absurd (fun x => (he x).symm) (not_reads_empty h₂)
  | cons c₁ rest₁ ih =>
    cases m₂ with
    | nil => exact absurd he (not_reads_empty h₁)
    | cons c₂ rest₂ =>
      obtain ⟨ha, hb, hrest⟩ := reads_alike_cons h₁ h₂ he
      obtain ⟨-, -, -, hw₁⟩ := wfFrom_cons.1 h₁
      obtain ⟨-, -, -, hw₂⟩ := wfFrom_cons.1 h₂
      rw [Prod.ext ha hb, ih hw₁ (by rwa [ha]) hrest]

/-- Settles O30: entry by entry, the first entries of the two memories being the same. -/
theorem canonicalMemoryIsExtensional : Obligations.CanonicalMemoryIsExtensional :=
  fun _ _ h₁ h₂ he => eq_of_reads_alike h₁ h₂ he

/-! ## Reset -/

theorem reset_gprRead (q : GprNum) : State.reset.gprRead q = 0 := by
  simp [State.gprRead, State.reset]

theorem reset_xmmReg (q : XmmNum) : State.reset.xmmReg q = 0 := by
  simp [State.xmmReg, State.reset]

/-- Settles O47: reset memory lists nothing, and `rip` is FFF0H. -/
theorem resetHasInvariant : Obligations.ResetHasInvariant :=
  ⟨wf_reset_memory, fun _ => by decide⟩

/-- Settles O56: the registers by their rules, every other field by its value in `State.reset`. -/
theorem resetValues : Obligations.ResetValues :=
  ⟨rfl, rfl, rfl, rfl, rfl, fun q _ => reset_gprRead q, rfl, rfl, rfl, rfl, rfl, rfl, reset_xmmReg, rfl, rfl⟩

/-! ## Linear addresses -/

theorem segBase_mode64 {s : State} (h : s.mode = .mode64) :
    s.segBase .es = 0 ∧ s.segBase .cs = 0 ∧ s.segBase .ss = 0 ∧ s.segBase .ds = 0 := by
  simp [State.segBase, h]

theorem segBase_of_ne_mode64 {s : State} (h : s.mode ≠ .mode64) : s.segBase .es = s.segbase.es ∧
    s.segBase .cs = s.segbase.cs ∧ s.segBase .ss = s.segbase.ss ∧ s.segBase .ds = s.segbase.ds := by
  simp [State.segBase, h]

/-- Settles O27: the linear address on numbers, and the segment bases of each mode. -/
theorem linearAddressIsBasePlusOffset : Obligations.LinearAddressIsBasePlusOffset := by
  intro s ea _
  refine ⟨fun seg => ?_, segBase_mode64, fun h => segBase_of_ne_mode64 (by simp [h]), rfl, rfl⟩
  rw [linear_toNat, State.baseVal, Nat.mod_add_mod]

/-! ## The decoder's answers, and one step -/

/-- Settles O2: part of what the decoder's logic says of an answer. -/
theorem decodedIsWellFormed : Obligations.DecodedIsWellFormed :=
  fun _ _ _ _ h => (wf_of_decode h).1

/-- Settles O46: memory is written by stores only, which keep its form, and `rip` is brought to the mode's width. -/
theorem stepKeepsInvariant : Obligations.StepKeepsInvariant :=
  fun _ _ hinv h => step_keeps_inv hinv h

/-- Settles O44: the instruction that was fetched, whose length `rip` moves by. -/
theorem stepAdvancesRip : Obligations.StepAdvancesRip := by
  intro s t h
  obtain ⟨i, hi, -⟩ := step_next h
  obtain ⟨hmin, hmax⟩ := i.len_bounds
  exact ⟨i, hi, hmin, hmax, step_next_rip hi h⟩

end Sys2Proof.Machine
end

section
/-! SUPPORT. What a step reads: two states that agree on it answer in the same way, with the same write where they
complete. From it, which fields and bits no step reads. -/

namespace Sys2Proof.Machine

/-! ## Agreeing on what is read -/

/-- Two states that agree on everything a meaning reads beside the source register and its class's enabling condition: of
the general registers what the mode has (10_state.md R22, R23), of the flags and CR0 the alignment condition and TS. -/
structure ReadsAlike (s t : State) : Prop where
  mode       : t.mode = s.mode
  regs       : ∀ q, s.mode.allowsGpr q = true → t.gprRead q = s.gprRead q
  rip        : t.rip = s.rip
  mem        : t.mem = s.mem
  segbase    : t.segbase = s.segbase
  ts         : t.cfg.cr0Ts = s.cfg.cr0Ts
  alignment  : t.alignmentCheck = s.alignmentCheck
  cpl        : t.cpl = s.cpl
  admitTable : t.admitTable = s.admitTable
  codeStart  : t.codeStart = s.codeStart
  endAddr    : t.endAddr = s.endAddr

/-- How two steps answer in the same way: the same fault or refusal, or the same write of a register or of memory, each
made on its own state. -/
inductive SameAnswer (s t : State) :
    Host.Outcome State Fault Refusal → Host.Outcome State Fault Refusal → Prop where
  | fault (x : Fault) : SameAnswer s t (.fault x) (.fault x)
  | refused (x : Refusal) : SameAnswer s t (.refused x) (.refused x)
  | register (r : GprNum) (v : Word64) (len : Nat) :
      SameAnswer s t (.next ((s.writeGpr r v).advance len)) (.next ((t.writeGpr r v).advance len))
  | memory (la v : Word64) (n len : Nat) :
      SameAnswer s t (.next ((s.store la v n).advance len)) (.next ((t.store la v n).advance len))

section
variable {s t : State}

/-! ## Addresses and checks -/

theorem ReadsAlike.segBase (h : ReadsAlike s t) (seg : Seg) : t.segBase seg = s.segBase seg := by
  unfold State.segBase
  rw [h.mode, h.segbase]

theorem ReadsAlike.linear (h : ReadsAlike s t) (seg : Seg) (ea : Word64) : t.linear seg ea = s.linear seg ea := by
  rw [State.linear, State.linear, h.mode, h.segBase]

theorem ReadsAlike.admission (h : ReadsAlike s t) (kind : Access) (seg : Seg) (ea la : Word64) (n : Nat) :
    t.admission kind seg ea la n = s.admission kind seg ea la n := by
  unfold State.admission
  rw [h.cpl, h.admitTable, h.mode]

theorem ReadsAlike.inCode (h : ReadsAlike s t) (la : Word64) : t.inCode la = s.inCode la := by
  rw [State.inCode, State.inCode, h.mode, h.segBase, h.codeStart, h.endAddr]

theorem ReadsAlike.meetsCode (h : ReadsAlike s t) (la : Word64) (n : Nat) : t.meetsCode la n = s.meetsCode la n := by
  simp only [State.meetsCode, h.inCode, h.mode]

theorem ReadsAlike.misaligned (h : ReadsAlike s t) (la : Word64) (n : Nat) : t.misaligned la n = s.misaligned la n := by
  rw [State.misaligned, State.misaligned, h.alignment]

theorem ReadsAlike.indexCell (h : ReadsAlike s t) {ix : Option GprNum} (hix : s.mode.allowsIndex ix = true) :
    t.indexCell ix = s.indexCell ix := by
  cases ix with
  | none => rfl
  | some r =>
    simp only [Mode.allowsIndex, Bool.and_eq_true] at hix
    exact h.regs r hix.2

/-- An effective address reads registers that the addressing form names, which are registers of the mode. -/
theorem ReadsAlike.effectiveAddr (h : ReadsAlike s t) {a : Addr} (ha : a.wf s.mode = true) (a67 : Bool) (n len : Nat) :
    t.effectiveAddr a67 n len a = s.effectiveAddr a67 n len a := by
  cases a with
  | base b d =>
    simp only [Addr.wf, Bool.and_eq_true] at ha
    obtain ⟨⟨hb, -⟩, -⟩ := ha
    simp only [State.effectiveAddr, h.mode, h.regs b hb]
  | sib b ix sc d =>
    simp only [Addr.wf, Bool.and_eq_true] at ha
    obtain ⟨⟨hb, hix⟩, -⟩ := ha
    simp only [State.effectiveAddr, h.mode, h.regs b hb, h.indexCell hix]
  | sibNoBase ix sc d => simp only [State.effectiveAddr, h.mode, h.indexCell ha]
  | disp32 d => simp only [State.effectiveAddr, h.mode, h.rip]

/-- The enabling condition of a class reads the configuration. -/
theorem classOn_eq_of_cfg (h : t.cfg = s.cfg) (i : Instr) : classOn t i = classOn s i := by
  cases i <;>
    simp only [classOn, State.legacyEnabled, State.vexEnabled, State.evexEnabled, State.xcr0Avx, State.xcr0Avx512, h]

/-! ## The meanings -/

theorem addr_wf_of_instr_wf {m : Mode} {i : Instr} {a : Addr} (h : i.wf m = true) (hd : i.form.dest = .mem a) :
    a.wf m = true := by
  have hdest : i.form.dest.wf m i.form.a67 = true := by
    cases i <;> simp only [Instr.wf, Form.wf, Bool.and_eq_true] at h <;> simp [Instr.form, h]
  rw [hd, Dest.wf, Bool.and_eq_true] at hdest
  exact hdest.1

theorem ReadsAlike.storeElem (h : ReadsAlike s t) {a : Addr} (ha : a.wf s.mode = true) (e : Elem) (n8 len : Nat)
    (f : Form) (v : Word64) : SameAnswer s t (storeElem e n8 len f a v s) (storeElem e n8 len f a v t) := by
  simp only [Machine.storeElem, h.effectiveAddr ha, h.mode, h.linear, h.meetsCode, h.admission, h.misaligned]
  split
  · exact .refused _
  split
  · exact .fault _
  split
  · exact .fault _
  · exact .memory ..

/-- A meaning answers in the same way where its class is enabled alike and its source has the same selected element. -/
theorem ReadsAlike.exec (h : ReadsAlike s t) {i : Instr} (hon : classOn t i = classOn s i)
    (hsrc : extract (elemOf i) (t.xmmReg i.form.src) i.form.imm8 = extract (elemOf i) (s.xmmReg i.form.src) i.form.imm8) :
    SameAnswer s t (exec i s) (exec i t) := by
  simp only [exec_eq, runExtract, h.mode, hon, h.ts]
  split
  · exact .refused _
  split
  · exact .refused _
  split
  · exact .fault _
  split
  · exact .fault _
  rename_i hwf _ _
  simp only [execExtract, hsrc]
  split
  · exact .register ..
  · rename_i a hd
    exact h.storeElem (addr_wf_of_instr_wf (by simpa using hwf) hd) ..

/-! ## The step -/

theorem ReadsAlike.fetchBytes (h : ReadsAlike s t) (n : Nat) (off : Word64) : fetchBytes t n off = fetchBytes s n off := by
  induction n generalizing off with
  | zero => rfl
  | succ n ih => simp only [Machine.fetchBytes, h.mode, h.rip, h.linear, h.admission, h.mem, ih]

theorem ReadsAlike.fetchInstr (h : ReadsAlike s t) : fetchInstr t = fetchInstr s := by
  simp only [Machine.fetchInstr, h.mode, h.fetchBytes]

/-- WHAT A STEP READS: states that agree on what a meaning reads, on the configuration and on the vector registers step in
the same way. -/
theorem ReadsAlike.step (h : ReadsAlike s t) (hcfg : t.cfg = s.cfg) (hxmm : t.xmm = s.xmm) :
    SameAnswer s t (step s) (step t) := by
  simp only [Machine.step, h.fetchInstr]
  split
  · exact h.exec (classOn_eq_of_cfg hcfg _) (by simp only [State.xmmReg, hxmm])
  · exact .fault _
  · exact .refused _

/-! ## A change that no step reads -/

/-- A change of the state that the writes pass over is passed on to the answer. -/
theorem SameAnswer.eq_onNext {g : State → State} {o p : Host.Outcome State Fault Refusal} (h : SameAnswer s (g s) o p)
    (hreg : ∀ r v len, ((g s).writeGpr r v).advance len = g ((s.writeGpr r v).advance len))
    (hmem : ∀ la v n len, ((g s).store la v n).advance len = g ((s.store la v n).advance len)) : p = onNext g o := by
  cases h with
  | fault => rfl
  | refused => rfl
  | register r v len => exact congrArg _ (hreg r v len)
  | memory la v n len => exact congrArg _ (hmem la v n len)

end

/-- No exception of the model is a SIMD floating-point exception (10_state.md R28). -/
theorem vector_ne_19 (x : Fault) : x.vector ≠ 19 := by cases x <;> simp [Fault.vector]

theorem readsAlike_mxcsr (s : State) (x : Word32) : ReadsAlike s { s with mxcsr := x } :=
  ⟨rfl, fun _ _ => rfl, rfl, rfl, rfl, rfl, rfl, rfl, rfl, rfl, rfl⟩

/-- Of `rflags` the alignment condition reads bit 18 (10_state.md R27, R29). -/
theorem readsAlike_rflags {s : State} {x : Word64} (h : x.getLsbD 18 = s.rflags.getLsbD 18) :
    ReadsAlike s { s with rflags := x } := by
  have hac : State.acFlag { s with rflags := x } = s.acFlag := h
  have halign : State.alignmentCheck { s with rflags := x } = s.alignmentCheck := by
    rw [State.alignmentCheck, State.alignmentCheck, hac]
  exact ⟨rfl, fun _ _ => rfl, rfl, rfl, rfl, rfl, halign, rfl, rfl, rfl, rfl⟩

theorem writeGpr_with_mxcsr (s : State) (x : Word32) (r : GprNum) (v : Word64) :
    State.writeGpr { s with mxcsr := x } r v = { s.writeGpr r v with mxcsr := x } := by
  unfold State.writeGpr
  split <;> rfl

theorem writeGpr_with_rflags (s : State) (x : Word64) (r : GprNum) (v : Word64) :
    State.writeGpr { s with rflags := x } r v = { s.writeGpr r v with rflags := x } := by
  unfold State.writeGpr
  split <;> rfl

/-- Settles O49: a step does not read `mxcsr`, no form writes it, and no fault of the model has vector 19. -/
theorem mxcsrIsNeitherReadNorWritten : Obligations.MxcsrIsNeitherReadNorWritten := by
  refine ⟨fun s x => ?_, fun s t h => (step_next_untouched h).1.mxcsr, fun _ x _ => vector_ne_19 x⟩
  refine ((readsAlike_mxcsr s x).step rfl rfl).eq_onNext (g := fun t => { t with mxcsr := x }) (fun r v len => ?_)
    fun _ _ _ _ => rfl
  rw [writeGpr_with_mxcsr]
  rfl

/-- Settles O50: no form writes `rflags`, and a step reads of it the alignment condition's bit only. -/
theorem onlyTheAcFlagIsRead : Obligations.OnlyTheAcFlagIsRead := by
  refine ⟨fun s t h => (step_next_untouched h).1.rflags, fun s x hx => ?_⟩
  refine ((readsAlike_rflags hx).step rfl rfl).eq_onNext (g := fun t => { t with rflags := x }) (fun r v len => ?_)
    fun _ _ _ _ => rfl
  rw [writeGpr_with_rflags]
  rfl

/-! ## `Mode32` -/

section
variable {s t : State}

theorem SameIn32.gprRead (h : SameIn32 s t) {q : GprNum} (hq : q.toNat < 8) : t.gprRead q = s.gprRead q :=
  BitVec.eq_of_toNat_eq (h.regs q hq)

/-- What is state in `Mode32` is all that a step reads there. -/
theorem SameIn32.readsAlike (hm : s.mode = .mode32) (h : SameIn32 s t) : ReadsAlike s t where
  mode := h.rest.mode
  regs q hq := h.gprRead (by simpa [hm, Mode.allowsGpr] using hq)
  rip := h.rip
  mem := h.mem
  segbase := h.rest.segbase
  ts := by rw [h.rest.cfg]
  alignment := by
    unfold State.alignmentCheck State.acFlag
    rw [h.rest.cfg, h.rest.rflags, h.rest.cpl]
  cpl := h.rest.cpl
  admitTable := h.rest.admitTable
  codeStart := h.rest.codeStart
  endAddr := h.rest.endAddr

theorem SameIn32.ripNext (h : SameIn32 s t) (len : Nat) : t.ripNext len = s.ripNext len := by
  rw [State.ripNext, State.ripNext, h.rip, h.rest.mode]

theorem untouched_symm (h : Untouched s t) : Untouched t s :=
  ⟨h.mode.symm, h.xmm.symm, h.rflags.symm, h.mxcsr.symm, h.segbase.symm, h.cfg.symm, h.cpl.symm, h.admitTable.symm,
    h.codeStart.symm, h.endAddr.symm⟩

/-- Updates that leave the other fields alone leave two states that agree on them in agreement. -/
theorem untouched_of_both {s' t' : State} (h : Untouched s t) (hs : Untouched s s') (ht : Untouched t t') :
    Untouched s' t' :=
  untouched_trans (untouched_symm hs) (untouched_trans h ht)

/-- The same register write keeps two states alike: the register written reads as the low half of the value in both. -/
theorem SameIn32.writeGpr (hm : s.mode = .mode32) (h : SameIn32 s t) (r : GprNum) (v : Word64) (len : Nat) :
    SameIn32 ((s.writeGpr r v).advance len) ((t.writeGpr r v).advance len) where
  regs q hq := by
    have hs : s.mode ≠ .mode64 := by simp [hm]
    have ht : t.mode ≠ .mode64 := by rwa [h.rest.mode]
    unfold State.gprVal
    by_cases hqr : q = r
    · subst hqr
      simp only [advance_gprRead, writeGpr_read_mode32 s v q hs, writeGpr_read_mode32 t v q ht]
    · simp only [advance_gprRead, writeGpr_read_ne s v r hqr, writeGpr_read_ne t v r hqr, h.gprRead hq]
  mem := by simpa using h.mem
  rip := by simpa using h.ripNext len
  rest := untouched_of_both h.rest (untouched_writeGpr s r v len) (untouched_writeGpr t r v len)

theorem SameIn32.store (h : SameIn32 s t) (la v : Word64) (n len : Nat) :
    SameIn32 ((s.store la v n).advance len) ((t.store la v n).advance len) where
  regs := h.regs
  mem := by simp only [advance_mem, store_mem, h.mem, h.rest.mode]
  rip := by simpa using h.ripNext len
  rest := untouched_of_both h.rest (untouched_store s la v n len) (untouched_store t la v n len)

/-- The same answer on states that are alike in `Mode32` leaves them alike. -/
theorem SameAnswer.sameOutcomeIn32 {o p : Host.Outcome State Fault Refusal} (h : SameAnswer s t o p)
    (hm : s.mode = .mode32) (hs : SameIn32 s t) : SameOutcomeIn32 o p := by
  cases h with
  | fault => exact rfl
  | refused => exact rfl
  | register r v len => exact hs.writeGpr hm r v len
  | memory la v n len => exact hs.store la v n len

end

/-- Settles O53: a step reads nothing that is no state in `Mode32`, and the same write keeps the states alike. -/
theorem upperRegisterBitsAreNoStateInMode32 : Obligations.UpperRegisterBitsAreNoStateInMode32 :=
  fun _ _ hm h => ((h.readsAlike hm).step h.rest.cfg h.rest.xmm).sameOutcomeIn32 hm h

end Sys2Proof.Machine
end

section
/-! SUPPORT. Stores: the element that is stored, the bytes it is stored to, and reading them back. -/

namespace Sys2Proof.Machine

/-! ## The stored element -/

/-- The element index is the immediate modulo the number of elements (40_extract_common.md R130, R132). -/
theorem sel_eq_mod (e : Elem) (imm : Byte) : e.sel imm = imm.toNat % (128 / e.bits) := by
  cases e <;> simp [Elem.sel, Elem.bits]

/-- How many elements a source has. -/
def Elem.count : Elem → Nat
  | .byte => 16
  | .dword => 4
  | .qword => 2

theorem count_eq_div (e : Elem) : e.count = 128 / e.bits := by cases e <;> rfl

theorem bits_le_64 (e : Elem) : e.bits ≤ 64 := by cases e <;> decide

theorem bytes_le_8 (e : Elem) : e.bytes ≤ 8 := by cases e <;> decide

/-- What is extracted is the selected element (40_extract_common.md R130). -/
theorem extract_toNat (e : Elem) (x : Xmm) (imm : Byte) :
    (extract e x imm).toNat = element e.bits (imm.toNat % (128 / e.bits)) x := by
  have hlt : x.toNat / 2 ^ (e.bits * e.sel imm) % 2 ^ e.bits < 2 ^ 64 :=
    lt_of_lt_of_le (Nat.mod_lt _ (Nat.two_pow_pos _)) (Nat.pow_le_pow_right Nat.two_pos (bits_le_64 e))
  rw [extract, BitVec.toNat_setWidth, BitVec.toNat_setWidth, BitVec.toNat_ushiftRight, Nat.shiftRight_eq_div_pow,
    Nat.mul_comm, Nat.mod_eq_of_lt hlt, sel_eq_mod, element]

/-! ## `MemWrite` and `MemRead` -/

/-- The bytes of an access of at most eight bytes hold what was stored to them (20_memory.md R52). -/
theorem read_memWrite_of_lt {md : Mode} {mem : Memory} {la v : Word64} {n k : Nat} (hmem : mem.wf = true) (hn : n ≤ 8)
    (hk : k < n) : (memWrite md mem la v n).read (byteAddr md la k) = v.extractLsb' (8 * k) 8 :=
  read_memWrite_byte md mem la v n k hmem hk (byteAddr_inj md la n (by omega))

/-- Bit by bit, a value is read back from bytes that hold it. -/
theorem getLsbD_memRead {md : Mode} {mem : Memory} {la v : Word64} {n : Nat}
    (h : ∀ k, k < n → mem.read (byteAddr md la k) = v.extractLsb' (8 * k) 8) (i : Nat) :
    (memRead md mem la n).getLsbD i = (decide (i < 8 * n) && v.getLsbD i) := by
  induction n with
  | zero => simp [memRead]
  | succ n ih =>
    rw [memRead, h n (Nat.lt_succ_self n), BitVec.getLsbD_or, ih fun k hk => h k (Nat.lt_succ_of_lt hk),
      BitVec.getLsbD_shiftLeft, BitVec.getLsbD_setWidth, BitVec.getLsbD_extractLsb']
    by_cases hlow : i < 8 * n
    · simp [hlow, show i < 8 * (n + 1) by omega]
    · by_cases hi : i < 64
      · simp [hlow, hi, show 8 * n + (i - 8 * n) = i by omega, show i - 8 * n < 64 by omega,
          show (i - 8 * n < 8) = (i < 8 * (n + 1)) by apply propext; omega]
      · simp [hi, BitVec.getLsbD_of_ge v i (by omega)]

/-- A value is read back from bytes that hold it. -/
theorem memRead_toNat {md : Mode} {mem : Memory} {la v : Word64} {n : Nat}
    (h : ∀ k, k < n → mem.read (byteAddr md la k) = v.extractLsb' (8 * k) 8) :
    (memRead md mem la n).toNat = v.toNat % 2 ^ (8 * n) := by
  apply Nat.eq_of_testBit_eq
  intro i
  rw [Nat.testBit_mod_two_pow, BitVec.testBit_toNat, BitVec.testBit_toNat, getLsbD_memRead h]

/-- Settles O29: the stored bytes have different addresses, so each keeps its value and is read back. -/
theorem storeIsLittleEndian : Obligations.StoreIsLittleEndian := by
  intro m mem la v n hmem hn
  refine ⟨fun k hk => ?_, fun a ha => ?_, memRead_toNat fun k hk => read_memWrite_of_lt hmem hn hk⟩
  · rw [← byteAddr_toNat]
    exact read_memWrite_of_lt hmem hn hk
  · exact read_memWrite_other m mem la v n a hmem fun k hk => by rw [byteAddr_toNat]; exact ha k hk

/-- Settles O48: a step stores to bytes that it has checked against the code region. -/
theorem stepKeepsTheCode : Obligations.StepKeepsTheCode :=
  fun _ _ hinv h a ha => step_keeps_code hinv h a ha

/-! ## The memory forms -/

/-- What a store that is let through leaves behind (40_extract_common.md R135, R139). -/
theorem memoryWritten_store {s : State} (hmem : s.mem.wf = true) (la v : Word64) {n : Nat} (hn : n ≤ 8) (len : Nat) :
    MemoryWritten s ((s.store la v n).advance len) la.toNat n v.toNat len where
  value k hk := by
    rw [advance_mem, store_mem, ← byteAddr_toNat, read_memWrite_of_lt hmem hn hk, BitVec.extractLsb'_toNat,
      Nat.shiftRight_eq_div_pow]
  other a ha := read_memWrite_other s.mode s.mem la v n a hmem fun k hk => by rw [byteAddr_toNat]; exact ha k hk
  regs _ _ := rfl
  rip := ripNext_toNat s len
  rest := untouched_store s la v n len

/-- A READY INSTRUCTION WITH A MEMORY DESTINATION COMPLETES when its store is let through, and stores its element. -/
theorem exec_memoryWritten {i : Instr} {s : State} {a : Addr} (hmem : s.mem.wf = true) (hready : s.Ready i)
    (hdest : i.form.dest = .mem a) (hlets : s.Lets i a) :
    ∃ t, exec i s = .next t ∧ MemoryWritten s t (s.laOf i a).toNat (elemOf i).bytes
      (element (elemOf i).bits (i.form.imm8.toNat % (elemOf i).count) (s.xmmReg i.form.src)) i.len := by
  refine ⟨_, exec_mem_lets hready hdest hlets, ?_⟩
  rw [count_eq_div, ← extract_toNat]
  exact memoryWritten_store hmem _ _ (bytes_le_8 _) _

/-- Settles O22: each of the three instructions is ready. -/
theorem legacyMemoryForms : Obligations.LegacyMemoryForms := by
  intro rex f s a hdest hmem hsse hem hfxsr hts
  exact ⟨fun hwf => exec_memoryWritten hmem ⟨hwf, ⟨hsse, hem, hfxsr⟩, hts⟩ hdest,
    fun hwf => exec_memoryWritten hmem ⟨hwf, ⟨hsse, hem, hfxsr⟩, hts⟩ hdest,
    fun hwf => exec_memoryWritten hmem ⟨hwf, ⟨hsse, hem, hfxsr⟩, hts⟩ hdest⟩

/-- Settles O23: each of the three instructions is ready. -/
theorem vexMemoryForms : Obligations.VexMemoryForms := by
  intro f s a hdest hmem havx hxsave hxcr hts
  exact ⟨fun hwf => exec_memoryWritten hmem ⟨hwf, ⟨havx, hxsave, hxcr⟩, hts⟩ hdest,
    fun hwf => exec_memoryWritten hmem ⟨hwf, ⟨havx, hxsave, hxcr⟩, hts⟩ hdest,
    fun hwf => exec_memoryWritten hmem ⟨hwf, ⟨havx, hxsave, hxcr⟩, hts⟩ hdest⟩

/-- Settles O24: each of the three instructions is ready, with its own feature flag and its own factor of a one-byte
displacement. -/
theorem evexMemoryForms : Obligations.EvexMemoryForms := by
  intro f s a hdest hmem hf hxsave hxcr hxcr512 hts
  exact ⟨fun hbw hwf => exec_memoryWritten hmem ⟨hwf, ⟨hf, hbw, hxsave, hxcr, hxcr512⟩, hts⟩ hdest,
    fun hdq hwf => exec_memoryWritten hmem ⟨hwf, ⟨hf, hdq, hxsave, hxcr, hxcr512⟩, hts⟩ hdest,
    fun hdq hwf => exec_memoryWritten hmem ⟨hwf, ⟨hf, hdq, hxsave, hxcr, hxcr512⟩, hts⟩ hdest⟩

end Sys2Proof.Machine
end

section
/-! SUPPORT. Where a memory destination's store does not complete: the segment it goes through, the admission table, and
what each check before the store answers. -/

namespace Sys2Proof.Machine

/-! ## The segment of an operand -/

/-- The default segment is SS exactly for base register 4 or 5, with or without a SIB byte (20_memory.md R57). -/
theorem defaultSeg_eq_ss_iff (a : Addr) : defaultSeg a = .ss ↔
    (∃ b d, a = .base b d ∧ (b = 4 ∨ b = 5)) ∨ (∃ b ix sc d, a = .sib b ix sc d ∧ (b = 4 ∨ b = 5)) := by
  cases a with
  | base | sib => simp [defaultSeg, or_iff_not_imp_left]
  | sibNoBase | disp32 => simp [defaultSeg]

/-- The default segment is SS or DS. -/
theorem defaultSeg_eq_ds_of_ne_ss {a : Addr} (h : defaultSeg a ≠ .ss) : defaultSeg a = .ds := by
  cases a with
  | base | sib => simp only [defaultSeg] at h ⊢; split <;> simp_all
  | sibNoBase | disp32 => rfl

/-- Settles O28: the default segment by addressing form, and which overrides act by mode. -/
theorem segmentOfAnOperand : Obligations.SegmentOfAnOperand := by
  intro a o
  refine ⟨fun _ => defaultSeg_eq_ss_iff a, fun _ h => defaultSeg_eq_ds_of_ne_ss h, ?_, ?_⟩
  · simp [segmentOf, overrideActs]
  · simp [segmentOf, overrideActs]

/-! ## The admission table -/

/-- An entry answers #SS only to requests that it covers through SS. -/
theorem seg_of_covers_ss {e : AdmitEntry} {q : Request} (hc : e.covers q = true) (ha : e.answer = some .ss) :
    q.seg = .ss := by
  simp only [AdmitEntry.covers, ha, Bool.and_eq_true] at hc
  simpa using hc.2

/-- A table answers #SS only to requests through SS (20_memory.md R62). -/
theorem seg_of_answer_ss {table : AdmitTable} {q : Request} (h : AdmitTable.answer table q = some .ss) :
    q.seg = .ss := by
  induction table with
  | nil => cases h
  | cons e rest ih =>
    rw [AdmitTable.answer] at h
    split at h
    · exact seg_of_covers_ss ‹_› h
    · exact ih h

theorem toFault_eq_ss_iff {m : Mode} {q : Request} {x : AdmitFault} : x.toFault m q = .ss ↔ x = .ss := by
  cases x <;> simp [AdmitFault.toFault]

/-- Settles O31: the exception is #SS only where the table answers so. -/
theorem stackFaultOnlyThroughSS : Obligations.StackFaultOnlyThroughSS := by
  intro s kind seg ea la n h
  obtain ⟨x, hx, hss⟩ := Option.map_eq_some_iff.1 h
  rw [toFault_eq_ss_iff.1 hss] at hx
  exact seg_of_answer_ss hx

/-- The fault that `Admit` names is never the alignment check's (60_exceptions.md R191, R192). -/
theorem admission_ne_ac {s : State} {kind : Access} {seg : Seg} {ea la : Word64} {n : Nat} :
    s.admission kind seg ea la n ≠ some .ac := by
  intro h
  obtain ⟨x, -, hac⟩ := Option.map_eq_some_iff.1 h
  cases x <;> cases hac

/-! ## A table for every policy -/

/-- The entry that answers one request as the policy does. -/
def policyEntry (policy : Request → Option AdmitFault) (q : Request) : AdmitEntry where
  kind := q.kind
  seg := some q.seg
  eaLo := q.ea
  eaHi := q.ea
  laLo := q.la
  laHi := q.la
  n := some q.n
  cpl := some q.cpl
  answer := policy q

/-- Within R62's obligation on the policy, the box of that entry is the one request. -/
theorem policyEntry_covers_iff {policy : Request → Option AdmitFault} {p : Request}
    (hp : policy p = some .ss → p.seg = .ss) (q : Request) : (policyEntry policy p).covers q = true ↔ q = p := by
  have hss : ¬ policy p = some .ss ∨ p.seg = .ss := not_or_of_imp hp
  constructor
  · intro h
    simp only [AdmitEntry.covers, policyEntry, Option.all_some, Bool.and_eq_true, beq_iff_eq] at h
    obtain ⟨⟨⟨⟨⟨⟨⟨⟨hkind, hseg⟩, hea⟩, hea'⟩, hla⟩, hla'⟩, hn⟩, hcpl⟩, -⟩ := h
    cases p
    cases q
    simp only [Request.mk.injEq]
    exact ⟨hkind.symm, hseg.symm, BitVec.le_antisymm (of_decide_eq_true hea') (of_decide_eq_true hea),
      BitVec.le_antisymm (of_decide_eq_true hla') (of_decide_eq_true hla), hn.symm, hcpl.symm⟩
  · rintro rfl
    simpa [AdmitEntry.covers, policyEntry] using hss

/-- The table of those entries answers each of the requests it was made from as the policy does. -/
theorem answer_map_policyEntry {policy : Request → Option AdmitFault} (hss : ∀ q, policy q = some .ss → q.seg = .ss)
    {qs : List Request} {q : Request} (hq : q ∈ qs) : AdmitTable.answer (qs.map (policyEntry policy)) q = policy q := by
  induction qs with
  | nil => cases hq
  | cons p qs ih =>
    rw [List.map_cons, AdmitTable.answer]
    by_cases hqp : q = p
    · subst hqp
      rw [if_pos ((policyEntry_covers_iff (hss q) q).2 rfl)]
      rfl
    · rw [if_neg (mt (policyEntry_covers_iff (hss p) q).1 hqp)]
      exact ih ((List.mem_cons.1 hq).resolve_left hqp)

/-- Every value of a width. -/
def allBitVecs (w : Nat) : List (BitVec w) := (List.finRange (2 ^ w)).map BitVec.ofFin

theorem mem_allBitVecs {w : Nat} (x : BitVec w) : x ∈ allBitVecs w :=
  List.mem_map.2 ⟨x.toFin, List.mem_finRange _, rfl⟩

/-- Every segment. -/
def allSegs : List Seg := [.es, .cs, .ss, .ds, .fs, .gs]

theorem mem_allSegs (seg : Seg) : seg ∈ allSegs := by cases seg <;> decide

/-- Every request of an access of at most `n` bytes whose two addresses are listed. -/
def requestsOver (addrs : List Word64) (n : Nat) : List Request :=
  [Access.fetch, Access.write].flatMap fun kind => allSegs.flatMap fun seg => addrs.flatMap fun ea =>
    addrs.flatMap fun la => (List.range (n + 1)).flatMap fun size => (allBitVecs 2).map fun cpl =>
      { kind := kind, seg := seg, ea := ea, la := la, n := size, cpl := cpl }

theorem mem_requestsOver {addrs : List Word64} {n : Nat} {q : Request} (hea : q.ea ∈ addrs) (hla : q.la ∈ addrs)
    (hn : q.n ≤ n) : q ∈ requestsOver addrs n := by
  have hkind : q.kind ∈ [Access.fetch, Access.write] := by cases q.kind <;> decide
  exact List.mem_flatMap.2 ⟨q.kind, hkind, List.mem_flatMap.2 ⟨q.seg, mem_allSegs _, List.mem_flatMap.2 ⟨q.ea, hea,
    List.mem_flatMap.2 ⟨q.la, hla, List.mem_flatMap.2 ⟨q.n, List.mem_range.2 (Nat.lt_succ_of_le hn),
    List.mem_map.2 ⟨q.cpl, mem_allBitVecs _, rfl⟩⟩⟩⟩⟩⟩

/-- Settles O32: the table with one entry for each of the finitely many requests of at most 15 bytes. -/
theorem everyAdmissionPolicyHasATable : Obligations.EveryAdmissionPolicyHasATable :=
  fun policy hss => ⟨(requestsOver (allBitVecs 64) 15).map (policyEntry policy), fun _ hq =>
    answer_map_policyEntry hss (mem_requestsOver (mem_allBitVecs _) (mem_allBitVecs _) hq)⟩

/-! ## What the checks before the store answer -/

section
variable {i : Instr} {s : State} {a : Addr}

/-- The checks that a ready instruction's store meets, in their order and at its own addresses
(40_extract_common.md R143). -/
theorem exec_mem_eq_checks (hready : s.Ready i) (hdest : i.form.dest = .mem a) :
    exec i s = if s.meetsCode (s.laOf i a) (elemOf i).bytes then refuse .smc else
      (s.admission .write (s.segOf i a) (s.eaOf i a) (s.laOf i a) (elemOf i).bytes).elim
        (if s.misaligned (s.laOf i a) (elemOf i).bytes then takeException .ac else
          .next ((s.store (s.laOf i a) (extract (elemOf i) (s.xmmReg i.form.src) i.form.imm8) (elemOf i).bytes).advance
            i.len)) takeException := by
  rw [exec_mem hready hdest]
  simp only [storeElem, State.laOf, State.segOf, State.eaOf]
  congr 1
  cases s.admission .write _ _ _ _ with
  | some x => rfl
  | none => rfl

/-- A store that meets the code region is refused (20_memory.md R68). -/
theorem exec_mem_smc (hready : s.Ready i) (hdest : i.form.dest = .mem a)
    (hcode : s.meetsCode (s.laOf i a) (elemOf i).bytes = true) : exec i s = .refused (.reason .smc) := by
  rw [exec_mem_eq_checks hready hdest, hcode]
  rfl

/-- A store that `Admit` does not let through raises the fault it names (60_exceptions.md R191). -/
theorem exec_mem_admission {x : Fault} (hready : s.Ready i) (hdest : i.form.dest = .mem a)
    (hcode : s.meetsCode (s.laOf i a) (elemOf i).bytes = false)
    (hadm : s.admission .write (s.segOf i a) (s.eaOf i a) (s.laOf i a) (elemOf i).bytes = some x) :
    exec i s = .fault x := by
  rw [exec_mem_eq_checks hready hdest, hcode, hadm]
  rfl

/-- A store that is let through so far but for its alignment raises #AC (60_exceptions.md R192). -/
theorem exec_mem_ac (hready : s.Ready i) (hdest : i.form.dest = .mem a)
    (hcode : s.meetsCode (s.laOf i a) (elemOf i).bytes = false)
    (hadm : s.admission .write (s.segOf i a) (s.eaOf i a) (s.laOf i a) (elemOf i).bytes = none)
    (hac : s.acFaults (s.laOf i a).toNat (elemOf i).bytes) : exec i s = .fault .ac := by
  rw [exec_mem_eq_checks hready hdest, hcode, hadm, (misaligned_iff s (s.laOf i a) (elemOf i)).2 hac]
  rfl

/-- What a store can raise: what `Admit` names, or #AC where the alignment check applies. -/
theorem storeElem_fault {e : Elem} {n8 len : Nat} {f : Form} {v : Word64} {x : Fault}
    (h : storeElem e n8 len f a v s = .fault x) :
    (∃ seg ea la, s.admission .write seg ea la e.bytes = some x) ∨
      (x = .ac ∧ ∃ la : Word64, s.acFaults la.toNat e.bytes) := by
  simp only [storeElem] at h
  split at h
  · cases h
  split at h
  · cases h
    exact .inl ⟨_, _, _, ‹_›⟩
  split at h
  · rename_i hmis
    cases h
    exact .inr ⟨rfl, _, (misaligned_iff _ _ _).1 hmis⟩
  · cases h

/-- What a meaning can raise: #UD or #NM, or with a memory destination what its store raises. -/
theorem exec_fault {x : Fault} (h : exec i s = .fault x) : (x = .ud ∨ x = .nm) ∨
    ∃ a v, i.form.dest = .mem a ∧ storeElem (elemOf i) (disp8N i) i.len i.form a v s = .fault x := by
  rw [exec_eq, runExtract] at h
  split at h
  · cases h
  split at h
  · cases h
  split at h
  · cases h; exact .inl (.inl rfl)
  split at h
  · cases h; exact .inl (.inr rfl)
  rw [execExtract] at h
  split at h
  · cases h
  · exact .inr ⟨_, _, ‹_›, h⟩

end

theorem not_acFaults_byte (s : State) (la : Nat) : ¬ s.acFaults la Elem.byte.bytes :=
  fun ⟨_, _, _, h⟩ => h (Nat.mod_one la)

/-- A byte form raises no #AC: one byte is always aligned (20_memory.md R55). -/
theorem exec_byte_ne_ac {i : Instr} {s : State} (hbyte : elemOf i = .byte) : exec i s ≠ .fault .ac := by
  intro h
  rcases exec_fault h with (h | h) | ⟨a, v, -, hstore⟩
  · cases h
  · cases h
  · rcases storeElem_fault hstore with ⟨_, _, _, hadm⟩ | ⟨-, la, hac⟩
    · exact admission_ne_ac hadm
    · rw [hbyte] at hac
      exact not_acFaults_byte s _ hac

/-- Settles O35: the alignment check is the last before the store, and a byte is always aligned. -/
theorem alignmentCheckFaults : Obligations.AlignmentCheckFaults :=
  ⟨fun _ _ _ hready hdest hcode hadm _ hac => exec_mem_ac hready hdest hcode hadm hac,
    fun _ _ hbyte => exec_byte_ne_ac hbyte, rfl⟩

/-- Settles O36: the fault of a store is the one that `Admit` names, and a register destination meets no check of a
store. -/
theorem admitFaultIsRaised : Obligations.AdmitFaultIsRaised := by
  refine ⟨fun i s a x hready hdest hcode hadm => ?_, fun i s r x hdest h => ?_⟩
  · have hx := exec_mem_admission hready hdest hcode hadm
    exact ⟨⟨x, hx⟩, fun _ => hx⟩
  · rcases exec_fault h with hx | ⟨a, v, hmem, -⟩
    · exact hx
    · rw [hdest] at hmem
      cases hmem

/-- A store meets the code region where one of its bytes lies in it. -/
theorem meetsCode_of_inCode {s : State} {la : Word64} {n k : Nat} (hk : k < n)
    (h : s.inCode (wrapAddr s.mode (la + BitVec.ofNat 64 k)) = true) : s.meetsCode la n = true :=
  List.any_eq_true.2 ⟨k, List.mem_range.2 hk, h⟩

/-- Settles O38: the byte in question lies in the region, and the store is checked against the region first. -/
theorem storeIntoCodeRefused : Obligations.StoreIntoCodeRefused := by
  intro i s a k off hready hdest hk hend hlo hhi heq
  refine exec_mem_smc hready hdest (meetsCode_of_inCode hk (inCode_of_offset hend hlo hhi ?_))
  rw [← heq]
  exact byteAddr_toNat s.mode (s.laOf i a) k

end Sys2Proof.Machine
end

section
/-! SUPPORT. Fetch and decode as a step does them: the bytes at `rip` that are admitted, and the first that is not. -/

namespace Sys2Proof.Machine

/-- Settles O4: later bytes change neither an answer nor a stop. -/
theorem decodeReadsOnlyWhatItNeeds : Obligations.DecodeReadsOnlyWhatItNeeds :=
  fun _ _ later => ⟨fun _ _ h => decode_append_of_ok h later, fun _ he h => decode_append_of_stop he h later⟩

/-- Settles O5: the decoder asks for more on fewer than 14 bytes only. -/
theorem decodeNeedsAtMostFourteenBytes : Obligations.DecodeNeedsAtMostFourteenBytes :=
  fun _ _ hlen h => absurd (length_lt_of_decode_more h) (Nat.not_lt.2 hlen)

/-! ## A step whose bytes are there -/

/-- What a fetch answers where the fetched bytes decode. -/
theorem fetchInstr_of_decode {s : State} {i : Instr} {rest : List Byte} (hm : s.mode.admitted = true)
    (h : decode s.mode s.fetched = .ok (i, rest)) : fetchInstr s = .instr i := by
  rw [State.fetched] at h
  simp only [fetchInstr, hm, Bool.not_true, Bool.false_eq_true, if_false, h]

/-- Bytes at `rip`, no more than the longest instruction, are the first that are fetched. -/
theorem prefix_fetched {s : State} {bs : List Byte} (h : s.HoldsAtRip bs) (hlen : bs.length ≤ Config.maxLen) :
    bs <+: s.fetched := by
  have hmin := min_le_length_fetched h
  rw [Nat.min_eq_left hlen] at hmin
  rcases fetched_prefix_or_prefix fun k hk => (read_linear_fetchEa s k).symm.trans (h k hk).2 with hp | hp
  · rw [hp.eq_of_length_le hmin]
  · exact hp

/-- Settles O40: what is fetched begins with the bytes at `rip`, so it decodes to the same instruction. -/
theorem stepRunsTheDecodedInstruction : Obligations.StepRunsTheDecodedInstruction := by
  intro s i bs hbs hd
  obtain ⟨hwf, hlen⟩ := wf_of_decode hd
  obtain ⟨-, hmax⟩ := i.len_bounds
  have hle : bs.length ≤ Config.maxLen := by
    rw [hlen, List.length_nil, Config.maxLen]
    omega
  obtain ⟨later, hlater⟩ := prefix_fetched hbs hle
  have hfetched := decode_append_of_ok hd later
  rw [hlater] at hfetched
  rw [step, fetchInstr_of_decode (admitted_of_wf hwf) hfetched]

/-! ## A step that lacks a byte -/

/-- The fetch ends at the first byte that `Admit` does not let through, with the fault it names. -/
theorem fetchBytes_of_refused {s : State} {n j k : Nat} {x : Fault} (hk : k < n)
    (hadm : ∀ l, l < k → s.admission .fetch .cs (s.fetchEa (j + l)) (s.linear .cs (s.fetchEa (j + l))) 1 = none)
    (hx : s.admission .fetch .cs (s.fetchEa (j + k)) (s.linear .cs (s.fetchEa (j + k))) 1 = some x) :
    (fetchBytes s n (BitVec.ofNat 64 j)).1.length = k ∧ (fetchBytes s n (BitVec.ofNat 64 j)).2 = some x := by
  induction k generalizing n j with
  | zero =>
    obtain ⟨n, rfl⟩ := Nat.exists_eq_succ_of_ne_zero (by omega : n ≠ 0)
    rw [Nat.add_zero] at hx
    rw [fetchBytes_refused n hx]
    exact ⟨rfl, rfl⟩
  | succ k ih =>
    obtain ⟨n, rfl⟩ := Nat.exists_eq_succ_of_ne_zero (by omega : n ≠ 0)
    have hshift (l : Nat) : j + 1 + l = j + (l + 1) := by omega
    have hrest := ih (n := n) (j := j + 1) (by omega) (fun l hl => by rw [hshift]; exact hadm (l + 1) (by omega))
      (by rw [hshift]; exact hx)
    have hj := hadm 0 (Nat.succ_pos k)
    rw [Nat.add_zero] at hj
    rw [fetchBytes_admitted n hj, ofNat_add_one]
    exact ⟨congrArg (· + 1) hrest.1, hrest.2⟩

/-- What a fetch answers where the decoder asks for a byte that was not let through. -/
theorem fetchInstr_of_more {s : State} {x : Fault} (hm : s.mode.admitted = true)
    (h : decode s.mode s.fetched = .error .more) (hx : (fetchBytes s Config.maxLen 0).2 = some x) :
    fetchInstr s = .raise x := by
  rw [State.fetched] at h
  simp only [fetchInstr, hm, Bool.not_true, Bool.false_eq_true, if_false, h, hx, Option.getD_some]

/-- Settles O43: exactly the bytes before the one that is not let through are fetched, and the decoder needs more. -/
theorem fetchFaultIsRaised : Obligations.FetchFaultIsRaised := by
  intro s bs x hm hbs hd hx
  have hlt : bs.length < Config.maxLen := lt_trans (length_lt_of_decode_more hd) (by decide)
  obtain ⟨hlen, hfault⟩ := fetchBytes_of_refused (j := 0) hlt (fun l hl => by rw [Nat.zero_add]; exact (hbs l hl).1)
    (by rw [Nat.zero_add]; exact hx)
  have hfetched : bs = s.fetched := (prefix_fetched hbs hlt.le).eq_of_length hlen.symm
  rw [hfetched] at hd
  rw [step, fetchInstr_of_more hm hd hfault]
  rfl

end Sys2Proof.Machine
end

section
/-! SUPPORT. What stands in front of the opcode: R121's loop over a list of legacy prefixes in one step, what it
refuses, that the order of the prefixes is of no account, and the REX byte after them. -/

namespace Sys2Proof

/-! ## Parses in sequence -/

section
variable {α β : Type}

@[simp] theorem scan_ok_bind (a : α) (f : α → Scan β) : ((.ok a : Scan α) >>= f) = f a := rfl

@[simp] theorem scan_error_bind (e : Stop) (f : α → Scan β) : ((.error e : Scan α) >>= f) = .error e := rfl

theorem scan_bind_eq_ok {x : Scan α} {f : α → Scan β} {b : β} :
    (x >>= f) = .ok b ↔ ∃ a, x = .ok a ∧ f a = .ok b := by
  cases x <;> simp

end

theorem nextByte_eq_ok {b : Byte} {bs rest : List Byte} : nextByte bs = .ok (b, rest) ↔ bs = b :: rest := by
  cases bs <;> simp [nextByte]

/-! ## A byte of the loop -/

/-- The bytes of each kind (30_encoding.md R83). -/
def PfxByte.bytes : PfxByte → List Byte
  | .segment s => [segByte s]
  | .opSize => [0x66]
  | .addrSize => [0x67]
  | .lock => [0xF0]
  | .rep => [0xF2, 0xF3]

theorem pfxByte?_eq_some_iff {b : Byte} {k : PfxByte} : pfxByte? b = some k ↔ b ∈ k.bytes := by
  revert b
  cases k with
  | segment s => cases s <;> decide
  | opSize | addrSize | lock | rep => decide

/-- The variable of R121's loop that a byte of this kind sets: one for all segment overrides, and (log 13) one for F2H
and F3H. -/
def PfxByte.slot : PfxByte → PfxByte
  | .segment _ => .segment .es
  | .opSize => .opSize
  | .addrSize => .addrSize
  | .lock => .lock
  | .rep => .rep

/-- The variable for this kind has been set. -/
def Pfxs.has (p : Pfxs) : PfxByte → Bool
  | .segment _ => p.seg.isSome
  | .opSize => p.o66
  | .addrSize => p.a67
  | .lock => p.lock
  | .rep => p.rep

/-- The variable for this kind, set. -/
def Pfxs.set (p : Pfxs) : PfxByte → Pfxs
  | .segment s => { p with seg := some s }
  | .opSize => { p with o66 := true }
  | .addrSize => { p with a67 := true }
  | .lock => { p with lock := true }
  | .rep => { p with rep := true }

theorem Pfxs.has_empty (k : PfxByte) : ({} : Pfxs).has k = false := by cases k <;> rfl

/-- R121's loop on one byte: refused where its variable has been set, else the variable is set. -/
theorem Pfxs.add_eq (p : Pfxs) (k : PfxByte) : p.add k = if p.has k then none else some (p.set k) := by
  cases k <;> rfl

theorem Pfxs.has_set (p : Pfxs) (j k : PfxByte) : (p.set k).has j = (decide (k.slot = j.slot) || p.has j) := by
  cases k <;> cases j <;> simp [Pfxs.set, Pfxs.has, PfxByte.slot]

theorem Pfxs.set_comm {j k : PfxByte} (h : j.slot ≠ k.slot) (p : Pfxs) : (p.set j).set k = (p.set k).set j := by
  cases j <;> cases k <;> simp_all [Pfxs.set, PfxByte.slot]

theorem Pfxs.has_of_slot_eq {j k : PfxByte} (h : j.slot = k.slot) (p : Pfxs) : p.has j = p.has k := by
  cases j <;> cases k <;> simp_all [Pfxs.has, PfxByte.slot]

theorem Pfxs.add_of_free {p : Pfxs} {k : PfxByte} (h : p.has k = false) : p.add k = some (p.set k) := by
  simp [p.add_eq, h]

/-- Two prefixes can stand in either order (30_encoding.md R83). -/
theorem Pfxs.add_comm (p : Pfxs) (j k : PfxByte) : (p.add j).bind (·.add k) = (p.add k).bind (·.add j) := by
  by_cases h : j.slot = k.slot
  · cases hj : p.has j <;> simp [Pfxs.add_eq, Pfxs.has_set, h, hj, ← Pfxs.has_of_slot_eq h]
  · cases hj : p.has j <;> cases hk : p.has k <;>
      simp [Pfxs.add_eq, Pfxs.has_set, h, Ne.symm h, hj, hk, p.set_comm h]

/-! ## A list of prefixes -/

/-- One byte more in R121's loop; `none` where it is none of R83's, or refused. -/
def Pfxs.addByte (p : Pfxs) (b : Byte) : Option Pfxs := (pfxByte? b).bind p.add

/-- A list of bytes more; `none` where one of them is none of R83's, or refused. -/
def Pfxs.addAll (p : Pfxs) : List Byte → Option Pfxs
  | [] => some p
  | b :: bs => (p.addByte b).bind fun p' => p'.addAll bs

theorem Pfxs.addByte_eq {b : Byte} {k : PfxByte} (p : Pfxs) (h : pfxByte? b = some k) : p.addByte b = p.add k := by
  rw [Pfxs.addByte, h, Option.bind_some]

theorem Pfxs.addByte_comm (p : Pfxs) (a b : Byte) :
    (p.addByte a).bind (·.addByte b) = (p.addByte b).bind (·.addByte a) := by
  cases ha : pfxByte? a with
  | none => simp [Pfxs.addByte, ha]
  | some j =>
    cases hb : pfxByte? b with
    | none => simp [Pfxs.addByte, hb]
    | some k => simpa [Pfxs.addByte, ha, hb] using p.add_comm j k

theorem Pfxs.addAll_append (p : Pfxs) (l l' : List Byte) : p.addAll (l ++ l') = (p.addAll l).bind (·.addAll l') := by
  induction l generalizing p with
  | nil => rfl
  | cons b l ih => simp only [List.cons_append, Pfxs.addAll, ih, Option.bind_assoc]

/-- The order of the prefixes is of no account. -/
theorem Pfxs.addAll_perm {l l' : List Byte} (h : l.Perm l') (p : Pfxs) : p.addAll l = p.addAll l' := by
  induction h generalizing p with
  | nil => rfl
  | cons b _ ih => simp only [Pfxs.addAll, ih]
  | swap a b l => simp only [Pfxs.addAll, ← Option.bind_assoc, p.addByte_comm]
  | trans _ _ ih ih' => exact (ih p).trans (ih' p)

/-- R121's loop over a list of prefixes, with any bytes after them. -/
theorem readPfxs_append {l : List Byte} (hl : ∀ b ∈ l, (pfxByte? b).isSome = true) (p : Pfxs) (suf : List Byte) :
    readPfxs p (l ++ suf) = (p.addAll l).elim (.error (.refuse .dupPrefix)) (readPfxs · suf) := by
  induction l generalizing p with
  | nil => rfl
  | cons b l ih =>
    obtain ⟨k, hk⟩ := Option.isSome_iff_exists.1 (hl b List.mem_cons_self)
    rw [Pfxs.addAll, p.addByte_eq hk]
    cases hadd : p.add k with
    | none => exact readPfxs_dup _ hk hadd
    | some p' => exact (readPfxs_take _ hk hadd).trans (ih (fun c hc => hl c (List.mem_cons_of_mem b hc)) p')

/-- The bytes the loop has taken are prefixes, and the next byte is none. -/
theorem readPfxs_eq_ok {p q : Pfxs} {bs rest : List Byte} (h : readPfxs p bs = .ok (q, rest)) :
    ∃ l b tail, bs = l ++ rest ∧ p.addAll l = some q ∧ rest = b :: tail ∧ pfxByte? b = none := by
  induction bs generalizing p with
  | nil => cases h
  | cons b bs ih =>
    cases hb : pfxByte? b with
    | none =>
      rw [readPfxs_stop p bs hb] at h
      cases h
      exact ⟨[], b, bs, rfl, rfl, rfl, hb⟩
    | some k =>
      cases hk : p.add k with
      | none => rw [readPfxs_dup bs hb hk] at h; cases h
      | some p' =>
        rw [readPfxs_take bs hb hk] at h
        obtain ⟨l, c, tail, rfl, hl, hrest, hc⟩ := ih h
        exact ⟨b :: l, c, tail, rfl, by rw [Pfxs.addAll, p.addByte_eq hb, hk]; exact hl, hrest, hc⟩

theorem isSome_pfxByte?_of_addAll {l : List Byte} {p q : Pfxs} (h : p.addAll l = some q) :
    ∀ b ∈ l, (pfxByte? b).isSome = true := by
  induction l generalizing p with
  | nil => nofun
  | cons b l ih =>
    obtain ⟨p', hp', hl⟩ := Option.bind_eq_some_iff.1 h
    obtain ⟨k, hk, -⟩ := Option.bind_eq_some_iff.1 hp'
    intro c hc
    rcases List.mem_cons.1 hc with rfl | hc
    · rw [hk]; rfl
    · exact ih hl c hc

theorem readPfxs_append_of_some {l : List Byte} {p q : Pfxs} (h : p.addAll l = some q) (suf : List Byte) :
    readPfxs p (l ++ suf) = readPfxs q suf := by
  rw [readPfxs_append (isSome_pfxByte?_of_addAll h), h, Option.elim_some]

/-- One more among the prefixes that the loop takes, at any place: it is taken too, where its variable has not been
set by another one. -/
theorem readPfxs_insert {p q : Pfxs} {l suf rest : List Byte} {c : Byte} {k : PfxByte}
    (hl : ∀ b ∈ l, (pfxByte? b).isSome = true) (h : readPfxs p (l ++ suf) = .ok (q, rest)) (hc : pfxByte? c = some k)
    (hk : q.has k = false) : readPfxs p (l ++ c :: suf) = .ok (q.set k, rest) := by
  rw [readPfxs_append hl] at h
  cases hp : p.addAll l with
  | none => rw [hp] at h; cases h
  | some p' =>
    rw [hp] at h
    obtain ⟨l', b, tail, rfl, hl', rfl, hb⟩ := readPfxs_eq_ok h
    have hall : p.addAll (l ++ c :: l') = some (q.set k) := by
      have hperm : (l ++ c :: l').Perm (l ++ l' ++ [c]) := by
        rw [List.append_assoc]
        exact List.Perm.append_left l (List.perm_append_singleton c l').symm
      rw [Pfxs.addAll_perm hperm, Pfxs.addAll_append, Pfxs.addAll_append, hp]
      simp [hl', Pfxs.addAll, q.addByte_eq hc, Pfxs.add_of_free hk]
    have happ := readPfxs_append_of_some hall (b :: tail)
    rw [List.append_assoc, List.cons_append] at happ
    rw [happ, readPfxs_stop _ tail hb]

/-! ## Which lists of prefixes are accepted -/

/-- The variable that a byte sets. -/
def slotOf (b : Byte) : Option PfxByte := (pfxByte? b).map PfxByte.slot

theorem segByte_inj {s t : Seg} (h : segByte s = segByte t) : s = t := by
  simpa [pfxByte?_segByte] using congrArg pfxByte? h

theorem slotOf_segByte (s : Seg) : slotOf (segByte s) = some (.segment .es) := by rw [slotOf, pfxByte?_segByte]; rfl

/-- What has been set after a list of prefixes. -/
theorem Pfxs.has_of_addAll {l : List Byte} {p q : Pfxs} (h : p.addAll l = some q) (j : PfxByte) :
    q.has j = true ↔ p.has j = true ∨ ∃ b ∈ l, slotOf b = some j.slot := by
  induction l generalizing p with
  | nil => cases h; simp
  | cons b l ih =>
    obtain ⟨p', hp', hl⟩ := Option.bind_eq_some_iff.1 h
    obtain ⟨k, hk, hadd⟩ := Option.bind_eq_some_iff.1 hp'
    have hset : p' = p.set k := by
      rw [p.add_eq] at hadd
      split at hadd <;> simp_all
    rw [ih hl, hset, Pfxs.has_set]
    simp [slotOf, hk, or_assoc, or_left_comm]

/-- R121's loop takes a list of prefixes where no two of them, and none of them and an earlier one, set one variable. -/
theorem Pfxs.addAll_isSome_iff {l : List Byte} (hl : ∀ b ∈ l, (pfxByte? b).isSome = true) (p : Pfxs) :
    (p.addAll l).isSome = true ↔
      (∀ b ∈ l, ∀ k, pfxByte? b = some k → p.has k = false) ∧ l.Pairwise fun a b => slotOf a ≠ slotOf b := by
  induction l generalizing p with
  | nil => simp [Pfxs.addAll]
  | cons b l ih =>
    obtain ⟨k, hk⟩ := Option.isSome_iff_exists.1 (hl b List.mem_cons_self)
    have hrest := ih fun c hc => hl c (List.mem_cons_of_mem b hc)
    rw [Pfxs.addAll, p.addByte_eq hk, p.add_eq]
    cases hfree : p.has k with
    | true => simp [hk, hfree]
    | false =>
      simp only [Bool.false_eq_true, if_false, Option.bind_some, hrest, List.pairwise_cons, List.forall_mem_cons, hk,
        Option.some.injEq, forall_eq', hfree, true_and, Pfxs.has_set, Bool.or_eq_false_iff, decide_eq_false_iff_not]
      constructor
      · rintro ⟨hnew, hpw⟩
        refine ⟨fun c hc j hj => (hnew c hc j hj).2, fun c hc => ?_, hpw⟩
        obtain ⟨j, hj⟩ := Option.isSome_iff_exists.1 (hl c (List.mem_cons_of_mem b hc))
        simpa [slotOf, hk, hj] using (hnew c hc j hj).1
      · rintro ⟨hold, hnew, hpw⟩
        refine ⟨fun c hc j hj => ⟨?_, hold c hc j hj⟩, hpw⟩
        simpa [slotOf, hk, hj] using hnew c hc

/-- Two of R83's bytes set one variable: they are the same byte, two segment overrides, or F2H and F3H. -/
theorem eq_or_of_slotOf_eq {a b : Byte} (ha : (pfxByte? a).isSome = true) (h : slotOf a = slotOf b) :
    a = b ∨ (∃ s t, a = segByte s ∧ b = segByte t) ∨ (a = 0xF2 ∧ b = 0xF3) ∨ (a = 0xF3 ∧ b = 0xF2) := by
  obtain ⟨j, hj⟩ := Option.isSome_iff_exists.1 ha
  rw [slotOf, hj, Option.map_some] at h
  obtain ⟨k, hk, hslot⟩ := Option.map_eq_some_iff.1 h.symm
  have ha := pfxByte?_eq_some_iff.1 hj
  have hb := pfxByte?_eq_some_iff.1 hk
  cases j with
  | segment s =>
    cases k with
    | segment t => exact .inr (.inl ⟨s, t, by simpa [PfxByte.bytes] using ha, by simpa [PfxByte.bytes] using hb⟩)
    | opSize | addrSize | lock | rep => cases hslot
  | opSize | addrSize | lock | rep =>
    cases k <;> cases hslot
    simp only [PfxByte.bytes, List.mem_cons, List.not_mem_nil, or_false] at ha hb
    grind

/-- The lists of prefixes that R121's loop takes are those that R89 (and log 13) accepts. -/
theorem acceptedPrefixes_iff {l : List Byte} (hl : ∀ b ∈ l, (pfxByte? b).isSome = true) :
    Machine.AcceptedPrefixes l ↔ (({} : Pfxs).addAll l).isSome = true := by
  rw [Pfxs.addAll_isSome_iff hl]
  constructor
  · intro h
    refine ⟨fun _ _ k _ => Pfxs.has_empty k, h.once.imp_of_mem fun ha hb hne heq => ?_⟩
    rcases eq_or_of_slotOf_eq (hl _ ha) heq with rfl | ⟨s, t, rfl, rfl⟩ | ⟨rfl, rfl⟩ | ⟨rfl, rfl⟩
    · exact hne rfl
    · exact hne (by rw [h.segment s t ha hb])
    · exact h.rep ⟨ha, hb⟩
    · exact h.rep ⟨hb, ha⟩
  · rintro ⟨-, hpw⟩
    have : Std.Symm fun a b : Byte => slotOf a ≠ slotOf b := ⟨fun _ _ => Ne.symm⟩
    have hne {a b : Byte} (ha : a ∈ l) (hb : b ∈ l) (hab : a ≠ b) : slotOf a ≠ slotOf b := hpw.forall ha hb hab
    constructor
    case bytes => exact hl
    case once => exact hpw.imp fun h heq => h (congrArg slotOf heq)
    case segment =>
      intro s t hs ht
      by_contra hst
      exact hne hs ht (fun heq => hst (segByte_inj heq)) ((slotOf_segByte s).trans (slotOf_segByte t).symm)
    case rep => exact fun ⟨h2, h3⟩ => hne h2 h3 (by decide) (by decide)

theorem slotOf_eq_some_iff {b : Byte} {j : PfxByte} (hj : ∀ s, j ≠ .segment s) :
    slotOf b = some j.slot ↔ b ∈ j.bytes := by
  rw [← pfxByte?_eq_some_iff, slotOf, Option.map_eq_some_iff]
  refine ⟨?_, fun h => ⟨j, h, rfl⟩⟩
  rintro ⟨k, hk, hslot⟩
  rw [hk]
  cases j with
  | segment s => exact absurd rfl (hj s)
  | opSize | addrSize | lock | rep => cases k <;> simp_all [PfxByte.slot]

/-- What R121's loop knows after a list of prefixes. -/
theorem Pfxs.has_iff_mem {l : List Byte} {q : Pfxs} (h : ({} : Pfxs).addAll l = some q) {j : PfxByte}
    (hj : ∀ s, j ≠ .segment s) : q.has j = true ↔ ∃ b ∈ l, b ∈ j.bytes := by
  simp [Pfxs.has_of_addAll h, Pfxs.has_empty, slotOf_eq_some_iff hj]

section
variable {l : List Byte} {q : Pfxs}

theorem Pfxs.o66_iff_mem (h : ({} : Pfxs).addAll l = some q) : q.o66 = true ↔ 0x66 ∈ l :=
  (Pfxs.has_iff_mem h (j := .opSize) nofun).trans (by simp [PfxByte.bytes])

theorem Pfxs.a67_iff_mem (h : ({} : Pfxs).addAll l = some q) : q.a67 = true ↔ 0x67 ∈ l :=
  (Pfxs.has_iff_mem h (j := .addrSize) nofun).trans (by simp [PfxByte.bytes])

theorem Pfxs.lock_iff_mem (h : ({} : Pfxs).addAll l = some q) : q.lock = true ↔ 0xF0 ∈ l :=
  (Pfxs.has_iff_mem h (j := .lock) nofun).trans (by simp [PfxByte.bytes])

theorem Pfxs.rep_iff_mem (h : ({} : Pfxs).addAll l = some q) : q.rep = true ↔ 0xF2 ∈ l ∨ 0xF3 ∈ l :=
  (Pfxs.has_iff_mem h (j := .rep) nofun).trans (by simp [PfxByte.bytes, and_or_left, exists_or])

end

/-- A segment override and 67H, as R121's loop takes them. -/
theorem Pfxs.addAll_operand (seg : Option Seg) (a67 : Bool) :
    ({} : Pfxs).addAll ((seg.map segByte).toList ++ (if a67 then [(0x67 : Byte)] else [])) =
      some { seg := seg, a67 := a67 } := by
  have h67 : pfxByte? 103#8 = some .addrSize := by decide
  cases seg <;> cases a67 <;>
    simp [Pfxs.addAll, Pfxs.addByte, pfxByte?_segByte, h67, Pfxs.add]

/-! ## The REX byte, and the decoder behind the prefixes -/

theorem isRex_iff {b : Byte} : isRex b = true ↔ b.extractLsb' 4 4 = 4#4 := beq_iff_eq

theorem pfxByte?_of_isRex : ∀ b : Byte, isRex b = true → pfxByte? b = none := by decide

/-- The byte is at the opcode position: it is none of R83's prefixes, and in `Mode64` no REX byte. -/
structure Mode.OpcodeByte (m : Mode) (b : Byte) : Prop where
  noPfx : pfxByte? b = none
  noRex : m = .mode64 → isRex b = false

/-- The bytes that begin a class (30_encoding.md R82) are at the opcode position. -/
theorem Mode.opcodeByte_of_class (m : Mode) {b : Byte} (h : b = 0x0F ∨ b = 0xC4 ∨ b = 0x62) : m.OpcodeByte b := by
  rcases h with rfl | rfl | rfl <;> exact ⟨by decide, fun _ => by decide⟩

theorem Mode.opcodeByte_0F (m : Mode) : m.OpcodeByte 0x0F := m.opcodeByte_of_class (.inl rfl)

theorem Mode.opcodeByte_C4 (m : Mode) : m.OpcodeByte 0xC4 := m.opcodeByte_of_class (.inr (.inl rfl))

theorem Mode.opcodeByte_62 (m : Mode) : m.OpcodeByte 0x62 := m.opcodeByte_of_class (.inr (.inr rfl))

/-- A REX byte or none, as the mode has it (30_encoding.md R90). -/
def Mode.AllowsRex (m : Mode) (rex : Option Byte) : Prop := ∀ c, rex = some c → m = .mode64 ∧ isRex c = true

theorem Mode.allowsRex_none (m : Mode) : m.AllowsRex none := nofun

theorem Mode.allowsRex_some {r : Byte} (h : isRex r = true) : Mode.AllowsRex .mode64 (some r) := by
  intro c hc
  cases hc
  exact ⟨rfl, h⟩

theorem readRex_stop {m : Mode} {b : Byte} (hb : m.OpcodeByte b) (bs : List Byte) :
    readRex m (b :: bs) = .ok (none, b :: bs) := by
  have h : (m == .mode64 && isRex b) = false := by
    rw [Bool.and_eq_false_imp]
    exact fun h => hb.noRex (beq_iff_eq.1 h)
  simp [readRex, h]

theorem readRex_take {c b : Byte} (hc : isRex c = true) (hb : Mode.OpcodeByte .mode64 b) (bs : List Byte) :
    readRex .mode64 (c :: b :: bs) = .ok (some c, b :: bs) := by
  simp [readRex, hc, hb.noPfx, hb.noRex rfl]

/-- A REX byte that does not stand before the opcode (30_encoding.md R91). -/
theorem readRex_notLast {c d : Byte} (hc : isRex c = true) (hd : (pfxByte? d).isSome = true ∨ isRex d = true)
    (bs : List Byte) : readRex .mode64 (c :: d :: bs) = .error (.refuse .rexNotLast) := by
  have h : (isRex d || (pfxByte? d).isSome) = true := by rw [Bool.or_eq_true]; exact hd.symm
  simp [readRex, hc, h]

theorem readPfxs_rex {m : Mode} {rex : Option Byte} {b : Byte} (hrex : m.AllowsRex rex) (hb : pfxByte? b = none)
    (p : Pfxs) (bs : List Byte) : readPfxs p (rex.toList ++ b :: bs) = .ok (p, rex.toList ++ b :: bs) := by
  cases rex with
  | none => exact readPfxs_stop p bs hb
  | some c => exact readPfxs_stop p _ (pfxByte?_of_isRex c (hrex c rfl).2)

/-- The decoder behind the prefixes. -/
theorem decode_of_readPfxs {m : Mode} (hm : m.admitted = true) {bs tail : List Byte} {p : Pfxs}
    (h : readPfxs {} bs = .ok (p, tail)) : decode m bs = readRex m tail >>= fun x => decodeClass m p x.1 x.2 := by
  simp only [decode, hm, if_true, h, scan_ok_bind]

/-- THE DECODER BEHIND PREFIXES AND REX: prefixes that R121's loop takes, a REX byte or none, and the class. -/
theorem decode_of_addAll {m : Mode} (hm : m.admitted = true) {l : List Byte} {p : Pfxs} {rex : Option Byte} {b : Byte}
    (hl : ({} : Pfxs).addAll l = some p) (hrex : m.AllowsRex rex) (hb : m.OpcodeByte b) (bs : List Byte) :
    decode m (l ++ rex.toList ++ b :: bs) = decodeClass m p rex (b :: bs) := by
  have hpfx : readPfxs {} (l ++ rex.toList ++ b :: bs) = .ok (p, rex.toList ++ b :: bs) := by
    rw [List.append_assoc, readPfxs_append_of_some hl, readPfxs_rex hrex hb.noPfx]
  rw [decode_of_readPfxs hm hpfx]
  cases rex with
  | none => simp [readRex_stop hb]
  | some c =>
    obtain ⟨rfl, hc⟩ := hrex c rfl
    simp [readRex_take hc hb]

/-- The same without REX byte. -/
theorem decode_of_addAll_noRex {m : Mode} (hm : m.admitted = true) {l : List Byte} {p : Pfxs} {b : Byte}
    (hl : ({} : Pfxs).addAll l = some p) (hb : m.OpcodeByte b) (bs : List Byte) :
    decode m (l ++ b :: bs) = decodeClass m p none (b :: bs) := by
  simpa using decode_of_addAll hm hl m.allowsRex_none hb bs

/-- Prefixes that R121's loop does not take are refused with `dup_prefix` (30_encoding.md R89). -/
theorem decode_dup {m : Mode} (hm : m.admitted = true) {l : List Byte} (hl : ∀ b ∈ l, (pfxByte? b).isSome = true)
    (h : ({} : Pfxs).addAll l = none) (suf : List Byte) : decode m (l ++ suf) = .error (.refuse .dupPrefix) := by
  simp [decode, hm, readPfxs_append hl, h]

/-- Prefix bytes before bytes that decode are prefixes that R121's loop takes. -/
theorem addAll_of_decode {m : Mode} {l suf rest : List Byte} {i : Instr} (hl : ∀ b ∈ l, (pfxByte? b).isSome = true)
    (h : decode m (l ++ suf) = .ok (i, rest)) : ∃ p, ({} : Pfxs).addAll l = some p := by
  cases hp : ({} : Pfxs).addAll l with
  | some p => exact ⟨p, rfl⟩
  | none =>
    rw [decode_dup (Machine.admitted_of_wf (wf_of_decode h).1) hl hp] at h
    cases h

/-- Bytes that decode: prefixes, REX byte or none, and a class. -/
theorem decode_eq_ok {m : Mode} {bs rest : List Byte} {i : Instr} (h : decode m bs = .ok (i, rest)) :
    m.admitted = true ∧ ∃ p tail rex tail', readPfxs {} bs = .ok (p, tail) ∧ readRex m tail = .ok (rex, tail') ∧
      decodeClass m p rex tail' = .ok (i, rest) := by
  have hm := Machine.admitted_of_wf (wf_of_decode h).1
  simp only [decode, hm, if_true, scan_bind_eq_ok, Prod.exists] at h
  obtain ⟨p, tail, hpfx, rex, tail', hrex, hclass⟩ := h
  exact ⟨hm, p, tail, rex, tail', hpfx, hrex, hclass⟩

/-- One more among the prefixes of bytes that decode: the class reads the same bytes, with one variable more set. -/
theorem decode_insert {m : Mode} {l suf rest : List Byte} {i : Instr} (hl : ∀ b ∈ l, (pfxByte? b).isSome = true)
    (h : decode m (l ++ suf) = .ok (i, rest)) :
    ∃ p rex tail, decodeClass m p rex tail = .ok (i, rest) ∧
      ∀ c k, pfxByte? c = some k → p.has k = false → decode m (l ++ c :: suf) = decodeClass m (p.set k) rex tail := by
  obtain ⟨hm, p, tail, rex, tail', hpfx, hrex, hclass⟩ := decode_eq_ok h
  refine ⟨p, rex, tail', hclass, fun c k hc hk => ?_⟩
  rw [decode_of_readPfxs hm (readPfxs_insert hl hpfx hc hk), hrex, scan_ok_bind]

end Sys2Proof
end

section
/-! SUPPORT. The three classes behind the prefixes: when each of them answers an instruction, and the tests of R121 that
stop it, one lemma per test in R121's order. -/

namespace Sys2Proof

variable {m : Mode} {p : Pfxs} {rex : Option Byte} {bs rest : List Byte} {i : Instr}

/-! ## The tail of R121 -/

theorem readForm_eq_ok_iff {r' r x b : Bool} {f : Form} : readForm m p r' r x b bs = .ok (f, rest) ↔
    ∃ modrm tail dest imm8, bs = modrm :: tail ∧
      readDest m p.a67 x b (modrm.extractLsb' 6 2) (modrm.extractLsb' 0 3) tail = .ok (dest, imm8 :: rest) ∧
      f = { seg := p.seg, a67 := p.a67, src := BitVec.ofBool r' ++ BitVec.ofBool r ++ modrm.extractLsb' 3 3,
            dest := dest, imm8 := imm8 } := by
  simp only [readForm, scan_bind_eq_ok, Prod.exists, nextByte_eq_ok, Except.ok.injEq, Prod.mk.injEq]
  constructor
  · rintro ⟨modrm, tail, rfl, dest, _, hdest, imm8, _, rfl, rfl, rfl⟩
    exact ⟨modrm, tail, dest, imm8, rfl, hdest, rfl⟩
  · rintro ⟨modrm, tail, dest, imm8, rfl, hdest, rfl⟩
    exact ⟨modrm, tail, rfl, dest, _, hdest, imm8, _, rfl, rfl, rfl⟩

/-- 67H has no effect on a register destination (30_encoding.md R88). -/
theorem readDest_reg {a67 x b : Bool} {md : BitVec 2} {rm : BitVec 3} {r : GprNum}
    (h : readDest m a67 x b md rm bs = .ok (.reg r, rest)) (a67' : Bool) :
    readDest m a67' x b md rm bs = .ok (.reg r, rest) := by
  unfold readDest at h ⊢
  split at h
  · rename_i hmod
    rw [if_pos hmod, h]
  split at h
  · cases h
  · simp [scan_bind_eq_ok] at h

/-- 67H and a memory destination in `Mode32` (30_encoding.md R88). -/
theorem readForm_addr16 {r' r x b : Bool} {modrm : Byte} (ha67 : p.a67 = true) (hmod : modrm.extractLsb' 6 2 ≠ 3#2) :
    readForm .mode32 p r' r x b (modrm :: bs) = .error (.refuse .addr16) := by
  simp [readForm, readDest, hmod, ha67]

theorem isExtractOp_iff {op : Byte} : isExtractOp op = true ↔ op = 0x14 ∨ op = 0x16 := by
  simp [isExtractOp]

theorem isExtractOp_eq_false {op : Byte} (h14 : op ≠ 0x14) (h16 : op ≠ 0x16) : isExtractOp op = false :=
  eq_false_of_ne_true fun h => (isExtractOp_iff.1 h).elim h14 h16

theorem isExtractOp_14 : isExtractOp 0x14 = true := rfl

theorem isExtractOp_16 : isExtractOp 0x16 = true := rfl

/-! ## The legacy class -/

section
variable {op : Byte}

theorem decodeLegacy_not3A {esc : Byte} (h : esc ≠ 0x3A) :
    decodeLegacy m p rex (esc :: bs) = .error (.refuse .notInScope) := by
  simpa [decodeLegacy] using fun he => absurd he h

/-- Another opcode, or no mandatory 66H (30_encoding.md R84, R93). -/
theorem decodeLegacy_notInScope (h : isExtractOp op = false ∨ p.o66 = false) :
    decodeLegacy m p rex (0x3A :: op :: bs) = .error (.refuse .notInScope) := by
  rcases h with h | h <;> simp [decodeLegacy, h]

theorem decodeLegacy_rep (hop : isExtractOp op = true) (ho : p.o66 = true) (hrep : p.rep = true) :
    decodeLegacy m p rex (0x3A :: op :: bs) = .error (.refuse .repPrefix) := by
  simp [decodeLegacy, hop, ho, hrep]

theorem decodeLegacy_lock (hop : isExtractOp op = true) (ho : p.o66 = true) (hrep : p.rep = false)
    (hlock : p.lock = true) :
    decodeLegacy m p rex (0x3A :: op :: bs) = .error .ud := by
  simp [decodeLegacy, hop, ho, hrep, hlock]

/-- What the legacy class reads when every test of it passes. -/
theorem decodeLegacy_reads_form (hop : isExtractOp op = true) (ho : p.o66 = true) (hrep : p.rep = false)
    (hlock : p.lock = false) : decodeLegacy m p rex (0x3A :: op :: bs) =
      readForm m p false (rex.getD 0)[2] (rex.getD 0)[1] (rex.getD 0)[0] bs >>= fun x =>
        .ok (selectLegacy m op (rex.getD 0)[3] rex.isSome x.1, x.2) := by
  simp [decodeLegacy, hop, ho, hrep, hlock]

theorem decodeLegacy_eq_ok_iff : decodeLegacy m p rex bs = .ok (i, rest) ↔ ∃ op tail f, bs = 0x3A :: op :: tail ∧
    isExtractOp op = true ∧ p.o66 = true ∧ p.rep = false ∧ p.lock = false ∧
    readForm m p false (rex.getD 0)[2] (rex.getD 0)[1] (rex.getD 0)[0] tail = .ok (f, rest) ∧
    i = selectLegacy m op (rex.getD 0)[3] rex.isSome f := by
  constructor
  · intro h
    match bs with
    | [] => cases h
    | esc :: tail =>
      obtain rfl : esc = 0x3A :=
        by_contra fun hn => nomatch (decodeLegacy_not3A hn).symm.trans h
      match tail with
      | [] => cases h
      | op :: tail =>
        obtain ⟨hop, ho⟩ : isExtractOp op = true ∧ p.o66 = true :=
          by_contra fun hn => nomatch (decodeLegacy_notInScope (by grind)).symm.trans h
        have hrep : p.rep = false :=
          by_contra fun hn => nomatch (decodeLegacy_rep hop ho (eq_true_of_ne_false hn)).symm.trans h
        have hlock : p.lock = false :=
          by_contra fun hn => nomatch (decodeLegacy_lock hop ho hrep (eq_true_of_ne_false hn)).symm.trans h
        rw [decodeLegacy_reads_form hop ho hrep hlock] at h
        simp only [scan_bind_eq_ok, Prod.exists, Except.ok.injEq, Prod.mk.injEq] at h
        obtain ⟨f, _, hf, rfl, rfl⟩ := h
        exact ⟨op, tail, f, rfl, hop, ho, hrep, hlock, hf, rfl⟩
  · rintro ⟨op, tail, f, rfl, hop, ho, hrep, hlock, hf, rfl⟩
    rw [decodeLegacy_reads_form hop ho hrep hlock, hf, scan_ok_bind]

end

/-! ## The VEX class -/

section
variable {v1 v2 op : Byte}

/-- Map 0F3A, pp = 01b, opcode 14H or 16H: VEX of one of the forms (30_encoding.md R98). -/
structure VexOfForm (v1 v2 op : Byte) : Prop where
  map : v1.extractLsb' 0 5 = 3#5
  pp  : v2.extractLsb' 0 2 = 1#2
  op  : isExtractOp op = true

theorem not_vexOfForm (h : v1.extractLsb' 0 5 ≠ 3#5 ∨ v2.extractLsb' 0 2 ≠ 1#2 ∨ (op ≠ 0x14 ∧ op ≠ 0x16)) :
    ¬ VexOfForm v1 v2 op := by
  rintro ⟨hmap, hpp, hop⟩
  rcases h with h | h | ⟨h14, h16⟩
  · exact h hmap
  · exact h hpp
  · exact (isExtractOp_iff.1 hop).elim h14 h16

theorem decodeVex_notInScope (h : ¬ VexOfForm v1 v2 op) :
    decodeVex m p rex (v1 :: v2 :: op :: bs) = .error (.refuse .notInScope) := by
  have hc : v1.extractLsb' 0 5 ≠ 3#5 ∨ v2.extractLsb' 0 2 ≠ 1#2 ∨ (!isExtractOp op) = true := by
    by_contra hn
    simp only [not_or, not_not, Bool.not_eq_true', Bool.not_eq_false] at hn
    obtain ⟨hmap, hpp, hop⟩ := hn
    exact h ⟨hmap, hpp, hop⟩
  simp only [decodeVex, nextByte_cons, scan_ok_bind]
  exact if_pos hc

/-- B̄ = 0 in `Mode32` (30_encoding.md R99). -/
theorem decodeVex_extBit (h : VexOfForm v1 v2 op) (hb : v1[5] = false) :
    decodeVex .mode32 p rex (v1 :: v2 :: op :: bs) = .error (.refuse .mode32ExtBit) := by
  simp [decodeVex, h.map, h.pp, h.op, hb]

/-- One of the prefixes that VEX does not allow, or a REX byte (30_encoding.md R95). -/
theorem decodeVex_badPrefix (h : VexOfForm v1 v2 op) (hb : m = .mode32 → v1[5] = true)
    (hbad : (rex.isSome || p.badForVex) = true) : decodeVex m p rex (v1 :: v2 :: op :: bs) = .error .ud := by
  have hext : ¬ (m = .mode32 ∧ v1[5] = false) := by simpa using hb
  simp [decodeVex, h.map, h.pp, h.op, hext, hbad]

/-- VEX.L = 1, or VEX.vvvv not 1111b (60_exceptions.md R181, R183). -/
theorem decodeVex_badField (h : VexOfForm v1 v2 op) (hb : m = .mode32 → v1[5] = true)
    (hbad : v2[2] = true ∨ v2.extractLsb' 3 4 ≠ 15#4) : decodeVex m p rex (v1 :: v2 :: op :: bs) = .error .ud := by
  have hext : ¬ (m = .mode32 ∧ v1[5] = false) := by simpa using hb
  rcases hbad with hbad | hbad <;> simp [decodeVex, h.map, h.pp, h.op, hext, hbad]

/-- VEX of one of the forms with every field as it has to be (30_encoding.md R96 to R99, R121). -/
structure VexAccepted (m : Mode) (v1 v2 op : Byte) : Prop extends VexOfForm v1 v2 op where
  ext  : m = .mode32 → v1[5] = true
  l    : v2[2] = false
  vvvv : v2.extractLsb' 3 4 = 15#4

/-- What the VEX class reads when every test of it passes. -/
theorem decodeVex_reads_form (h : VexAccepted m v1 v2 op) (hgood : (rex.isSome || p.badForVex) = false) :
    decodeVex m p rex (v1 :: v2 :: op :: bs) = readForm m p false (!v1[7]) (!v1[6]) (!v1[5]) bs >>= fun x =>
      .ok (selectVex m op v2[7] x.1, x.2) := by
  have hext : ¬ (m = .mode32 ∧ v1[5] = false) := by simpa using h.ext
  simp [decodeVex, h.map, h.pp, h.op, hext, hgood, h.l, h.vvvv]

theorem decodeVex_eq_ok_iff : decodeVex m p rex bs = .ok (i, rest) ↔ ∃ v1 v2 op tail f, bs = v1 :: v2 :: op :: tail ∧
    VexAccepted m v1 v2 op ∧ (rex.isSome || p.badForVex) = false ∧
    readForm m p false (!v1[7]) (!v1[6]) (!v1[5]) tail = .ok (f, rest) ∧ i = selectVex m op v2[7] f := by
  constructor
  · intro h
    match bs with
    | [] | [_] | [_, _] => cases h
    | v1 :: v2 :: op :: tail =>
      have hform : VexOfForm v1 v2 op :=
        by_contra fun hn => nomatch (decodeVex_notInScope hn).symm.trans h
      have hext : m = .mode32 → v1[5] = true := by
        rintro rfl
        exact by_contra fun hn => nomatch (decodeVex_extBit hform (by simpa using hn)).symm.trans h
      have hgood : (rex.isSome || p.badForVex) = false :=
        by_contra fun hn => nomatch (decodeVex_badPrefix hform hext (eq_true_of_ne_false hn)).symm.trans h
      obtain ⟨hl, hvvvv⟩ : v2[2] = false ∧ v2.extractLsb' 3 4 = 15#4 :=
        by_contra fun hn => nomatch (decodeVex_badField hform hext (by grind)).symm.trans h
      have hacc : VexAccepted m v1 v2 op := ⟨hform, hext, hl, hvvvv⟩
      rw [decodeVex_reads_form hacc hgood] at h
      simp only [scan_bind_eq_ok, Prod.exists, Except.ok.injEq, Prod.mk.injEq] at h
      obtain ⟨f, _, hf, rfl, rfl⟩ := h
      exact ⟨v1, v2, op, tail, f, rfl, hacc, hgood, hf, rfl⟩
  · rintro ⟨v1, v2, op, tail, f, rfl, h, hgood, hf, rfl⟩
    rw [decodeVex_reads_form h hgood, hf, scan_ok_bind]

end

/-! ## The EVEX class -/

section
variable {p0 p1 p2 op : Byte}

/-- Map 0F3A, pp = 01b, opcode 14H or 16H: EVEX of one of the forms (30_encoding.md R106). -/
structure EvexOfForm (p0 p1 op : Byte) : Prop where
  map : p0.extractLsb' 0 2 = 3#2
  pp  : p1.extractLsb' 0 2 = 1#2
  op  : isExtractOp op = true

theorem not_evexOfForm (h : p0.extractLsb' 0 2 ≠ 3#2 ∨ p1.extractLsb' 0 2 ≠ 1#2 ∨ (op ≠ 0x14 ∧ op ≠ 0x16)) :
    ¬ EvexOfForm p0 p1 op := by
  rintro ⟨hmap, hpp, hop⟩
  rcases h with h | h | ⟨h14, h16⟩
  · exact h hmap
  · exact h hpp
  · exact (isExtractOp_iff.1 hop).elim h14 h16

theorem decodeEvex_notInScope (h : ¬ EvexOfForm p0 p1 op) :
    decodeEvex m p rex (p0 :: p1 :: p2 :: op :: bs) = .error (.refuse .notInScope) := by
  have hc : p0.extractLsb' 0 2 ≠ 3#2 ∨ p1.extractLsb' 0 2 ≠ 1#2 ∨ (!isExtractOp op) = true := by
    by_contra hn
    simp only [not_or, not_not, Bool.not_eq_true', Bool.not_eq_false] at hn
    obtain ⟨hmap, hpp, hop⟩ := hn
    exact h ⟨hmap, hpp, hop⟩
  simp only [decodeEvex, nextByte_cons, scan_ok_bind]
  exact if_pos hc

theorem decodeEvex_reserved (h : EvexOfForm p0 p1 op) (hres : p0.extractLsb' 2 2 ≠ 0#2 ∨ p1[2] = false) :
    decodeEvex m p rex (p0 :: p1 :: p2 :: op :: bs) = .error (.refuse .evexReserved) := by
  rcases hres with hres | hres <;> simp [decodeEvex, h.map, h.pp, h.op, hres]

/-- The reserved bits are as they have to be (30_encoding.md R104). -/
structure EvexReserved (p0 p1 op : Byte) : Prop extends EvexOfForm p0 p1 op where
  p0_res : p0.extractLsb' 2 2 = 0#2
  p1_res : p1[2] = true

theorem decodeEvex_unused (h : EvexReserved p0 p1 op)
    (hun : p2[7] = true ∨ p2[4] = true ∨ p2[3] = false ∨ p2.extractLsb' 0 3 ≠ 0#3) :
    decodeEvex m p rex (p0 :: p1 :: p2 :: op :: bs) = .error (.refuse .evexUnusedField) := by
  rcases hun with hun | hun | hun | hun <;> simp [decodeEvex, h.map, h.pp, h.op, h.p0_res, h.p1_res, hun]

/-- So are the fields that no form uses (30_encoding.md R104). -/
structure EvexFields (p0 p1 p2 op : Byte) : Prop extends EvexReserved p0 p1 op where
  z   : p2[7] = false
  b   : p2[4] = false
  v'  : p2[3] = true
  aaa : p2.extractLsb' 0 3 = 0#3

/-- B̄ = 0 or R̄' = 0 in `Mode32` (30_encoding.md R105). -/
theorem decodeEvex_extBit (h : EvexFields p0 p1 p2 op) (hext : p0[5] = false ∨ p0[4] = false) :
    decodeEvex .mode32 p rex (p0 :: p1 :: p2 :: op :: bs) = .error (.refuse .mode32ExtBit) := by
  rcases hext with hext | hext <;>
    simp [decodeEvex, h.map, h.pp, h.op, h.p0_res, h.p1_res, h.z, h.b, h.v', h.aaa, hext]

/-- The test of X̄ (30_encoding.md R105), or a ModRM byte that is not there. -/
theorem decodeEvex_xCheck {e : Stop} (h : EvexFields p0 p1 p2 op) (hext : m = .mode32 → p0[5] = true ∧ p0[4] = true)
    (hx : evexXCheck m p0 bs = .error e) : decodeEvex m p rex (p0 :: p1 :: p2 :: op :: bs) = .error e := by
  have hext : ¬ (m = .mode32 ∧ (p0[5] = false ∨ p0[4] = false)) := by simpa [not_or] using hext
  simp [decodeEvex, h.map, h.pp, h.op, h.p0_res, h.p1_res, h.z, h.b, h.v', h.aaa, hext, hx]

/-- X̄ = 0 and a register destination in `Mode64` (30_encoding.md R105). -/
theorem evexXCheck_reg {modrm : Byte} (hx : p0[6] = false) (hmod : modrm.extractLsb' 6 2 = 3#2) :
    evexXCheck .mode64 p0 (modrm :: bs) = .error (.refuse .evexXReg) := by
  simp [evexXCheck, hx, hmod]

/-- One of the prefixes that EVEX does not allow, or a REX byte (30_encoding.md R101). -/
theorem decodeEvex_badPrefix (h : EvexFields p0 p1 p2 op) (hext : m = .mode32 → p0[5] = true ∧ p0[4] = true)
    (hx : evexXCheck m p0 bs = .ok ()) (hbad : (rex.isSome || p.badForVex) = true) :
    decodeEvex m p rex (p0 :: p1 :: p2 :: op :: bs) = .error .ud := by
  have hext : ¬ (m = .mode32 ∧ (p0[5] = false ∨ p0[4] = false)) := by simpa [not_or] using hext
  simp [decodeEvex, h.map, h.pp, h.op, h.p0_res, h.p1_res, h.z, h.b, h.v', h.aaa, hext, hx, hbad]

/-- EVEX.L'L not 00b, or EVEX.vvvv not 1111b (60_exceptions.md R182, R184). -/
theorem decodeEvex_badField (h : EvexFields p0 p1 p2 op) (hext : m = .mode32 → p0[5] = true ∧ p0[4] = true)
    (hx : evexXCheck m p0 bs = .ok ()) (hbad : p2.extractLsb' 5 2 ≠ 0#2 ∨ p1.extractLsb' 3 4 ≠ 15#4) :
    decodeEvex m p rex (p0 :: p1 :: p2 :: op :: bs) = .error .ud := by
  have hext : ¬ (m = .mode32 ∧ (p0[5] = false ∨ p0[4] = false)) := by simpa [not_or] using hext
  rcases hbad with hbad | hbad <;>
    simp [decodeEvex, h.map, h.pp, h.op, h.p0_res, h.p1_res, h.z, h.b, h.v', h.aaa, hext, hx, hbad]

/-- EVEX of one of the forms with every field as it has to be (30_encoding.md R102 to R106, R121). -/
structure EvexAccepted (m : Mode) (p0 p1 p2 op : Byte) : Prop extends EvexFields p0 p1 p2 op where
  ext  : m = .mode32 → p0[5] = true ∧ p0[4] = true
  ll   : p2.extractLsb' 5 2 = 0#2
  vvvv : p1.extractLsb' 3 4 = 15#4

/-- What the EVEX class reads when every test of it passes. -/
theorem decodeEvex_reads_form (h : EvexAccepted m p0 p1 p2 op) (hx : evexXCheck m p0 bs = .ok ())
    (hgood : (rex.isSome || p.badForVex) = false) : decodeEvex m p rex (p0 :: p1 :: p2 :: op :: bs) =
      readForm m p (!p0[4]) (!p0[7]) (!p0[6]) (!p0[5]) bs >>= fun x => .ok (selectEvex m op p1[7] x.1, x.2) := by
  have hext : ¬ (m = .mode32 ∧ (p0[5] = false ∨ p0[4] = false)) := by simpa [not_or] using h.ext
  simp [decodeEvex, h.map, h.pp, h.op, h.p0_res, h.p1_res, h.z, h.b, h.v', h.aaa, hext, hx, hgood, h.ll, h.vvvv]

theorem decodeEvex_eq_ok_iff : decodeEvex m p rex bs = .ok (i, rest) ↔ ∃ p0 p1 p2 op tail f,
    bs = p0 :: p1 :: p2 :: op :: tail ∧ EvexAccepted m p0 p1 p2 op ∧ evexXCheck m p0 tail = .ok () ∧
    (rex.isSome || p.badForVex) = false ∧
    readForm m p (!p0[4]) (!p0[7]) (!p0[6]) (!p0[5]) tail = .ok (f, rest) ∧ i = selectEvex m op p1[7] f := by
  constructor
  · intro h
    match bs with
    | [] | [_] | [_, _] | [_, _, _] => cases h
    | p0 :: p1 :: p2 :: op :: tail =>
      have hform : EvexOfForm p0 p1 op :=
        by_contra fun hn => nomatch (decodeEvex_notInScope hn).symm.trans h
      obtain ⟨hres0, hres1⟩ : p0.extractLsb' 2 2 = 0#2 ∧ p1[2] = true :=
        by_contra fun hn => nomatch (decodeEvex_reserved hform (by grind)).symm.trans h
      have hres : EvexReserved p0 p1 op := ⟨hform, hres0, hres1⟩
      obtain ⟨hz, hb, hv', haaa⟩ : p2[7] = false ∧ p2[4] = false ∧ p2[3] = true ∧ p2.extractLsb' 0 3 = 0#3 :=
        by_contra fun hn => nomatch (decodeEvex_unused hres (by grind)).symm.trans h
      have hfields : EvexFields p0 p1 p2 op := ⟨hres, hz, hb, hv', haaa⟩
      have hext : m = .mode32 → p0[5] = true ∧ p0[4] = true := by
        rintro rfl
        exact by_contra fun hn => nomatch (decodeEvex_extBit hfields (by grind)).symm.trans h
      have hx : evexXCheck m p0 tail = .ok () := by
        cases hx : evexXCheck m p0 tail with
        | ok => rfl
        | error e =>
          rw [decodeEvex_xCheck hfields hext hx] at h
          cases h
      have hgood : (rex.isSome || p.badForVex) = false :=
        by_contra fun hn => nomatch (decodeEvex_badPrefix hfields hext hx (eq_true_of_ne_false hn)).symm.trans h
      obtain ⟨hll, hvvvv⟩ : p2.extractLsb' 5 2 = 0#2 ∧ p1.extractLsb' 3 4 = 15#4 :=
        by_contra fun hn => nomatch (decodeEvex_badField hfields hext hx (by grind)).symm.trans h
      have hacc : EvexAccepted m p0 p1 p2 op := ⟨hfields, hext, hll, hvvvv⟩
      rw [decodeEvex_reads_form hacc hx hgood] at h
      simp only [scan_bind_eq_ok, Prod.exists, Except.ok.injEq, Prod.mk.injEq] at h
      obtain ⟨f, _, hf, rfl, rfl⟩ := h
      exact ⟨p0, p1, p2, op, tail, f, rfl, hacc, hx, hgood, hf, rfl⟩
  · rintro ⟨p0, p1, p2, op, tail, f, rfl, h, hx, hgood, hf, rfl⟩
    rw [decodeEvex_reads_form h hx hgood, hf, scan_ok_bind]

end

end Sys2Proof
end

section
/-! SUPPORT. Class recognition, where an answer comes from, and the same bytes behind other prefixes. -/

namespace Sys2Proof

variable {m : Mode} {p : Pfxs} {rex : Option Byte} {bs rest : List Byte} {i : Instr}

/-! ## Class recognition -/

@[simp] theorem decodeClass_0F (m : Mode) (p : Pfxs) (rex : Option Byte) (bs : List Byte) :
    decodeClass m p rex (0x0F :: bs) = decodeLegacy m p rex bs := rfl

/-- C4H and 62H begin VEX and EVEX: always in `Mode64`, in `Mode32` where the next byte has its top bits set
(30_encoding.md R82). -/
def Mode.OpensVex (m : Mode) (v : Byte) : Prop := m = .mode64 ∨ v.extractLsb' 6 2 = 3#2

theorem Mode.opensVex_of_admitted {v : Byte} (hm : m.admitted = true) (h : m = .mode32 → v.extractLsb' 6 2 = 3#2) :
    m.OpensVex v := by
  cases m with
  | mode64 => exact .inl rfl
  | mode32 => exact .inr (h rfl)
  | realAddress | virtual8086 | code16 => cases hm

theorem vexRecognised_of_opens {v : Byte} (h : m.OpensVex v) (bs : List Byte) :
    vexRecognised m (v :: bs) = .ok true := by
  rcases h with rfl | h
  · rfl
  · cases m <;> simp [vexRecognised, h]

theorem vexRecognised_of_not_opens {v : Byte} (h : ¬ m.OpensVex v) (bs : List Byte) :
    vexRecognised m (v :: bs) = .ok false := by
  obtain ⟨hm, htop⟩ := not_or.1 h
  simp [vexRecognised, hm, htop]

theorem decodeClass_C4 {v : Byte} (h : m.OpensVex v) (p : Pfxs) (rex : Option Byte) (bs : List Byte) :
    decodeClass m p rex (0xC4 :: v :: bs) = decodeVex m p rex (v :: bs) := by
  simp [decodeClass, vexRecognised_of_opens h]

theorem decodeClass_62 {v : Byte} (h : m.OpensVex v) (p : Pfxs) (rex : Option Byte) (bs : List Byte) :
    decodeClass m p rex (0x62 :: v :: bs) = decodeEvex m p rex (v :: bs) := by
  simp [decodeClass, vexRecognised_of_opens h]

/-- C4H and 62H are other instructions in `Mode32` where the next byte does not say VEX or EVEX (30_encoding.md R82). -/
theorem decodeClass_notVex {c v : Byte} (hc : c = 0xC4 ∨ c = 0x62) (h : ¬ m.OpensVex v) (p : Pfxs) (rex : Option Byte)
    (bs : List Byte) : decodeClass m p rex (c :: v :: bs) = .error (.refuse .notInScope) := by
  rcases hc with rfl | rfl <;> simp [decodeClass, vexRecognised_of_not_opens h]

theorem opens_of_decodeClass {c v : Byte} (hc : c = 0xC4 ∨ c = 0x62)
    (h : decodeClass m p rex (c :: v :: bs) = .ok (i, rest)) : m.OpensVex v :=
  by_contra fun hn => nomatch (decodeClass_notVex hc hn p rex bs).symm.trans h

/-- A byte that opens no class (30_encoding.md R82, R94). -/
theorem decodeClass_other {b : Byte} (h0F : b ≠ 0x0F) (hC4 : b ≠ 0xC4) (h62 : b ≠ 0x62) (p : Pfxs) (rex : Option Byte)
    (bs : List Byte) : decodeClass m p rex (b :: bs) = .error (.refuse .notInScope) := by
  simp only [decodeClass, nextByte_cons, scan_ok_bind, if_neg h0F, if_neg hC4, if_neg h62]

/-- The class an answer comes from. -/
theorem decodeClass_eq_ok (h : decodeClass m p rex bs = .ok (i, rest)) :
    (∃ tail, bs = 0x0F :: tail ∧ decodeLegacy m p rex tail = .ok (i, rest)) ∨
    (∃ v tail, bs = 0xC4 :: v :: tail ∧ m.OpensVex v ∧ decodeVex m p rex (v :: tail) = .ok (i, rest)) ∨
    (∃ v tail, bs = 0x62 :: v :: tail ∧ m.OpensVex v ∧ decodeEvex m p rex (v :: tail) = .ok (i, rest)) := by
  match bs with
  | [] => cases h
  | b :: tail =>
    by_cases h0F : b = 0x0F
    · subst h0F
      exact .inl ⟨tail, rfl, h⟩
    have hvex : b = 0xC4 ∨ b = 0x62 := by
      by_contra hn
      obtain ⟨hC4, h62⟩ := not_or.1 hn
      exact nomatch (decodeClass_other h0F hC4 h62 p rex tail).symm.trans h
    match tail with
    | [] => rcases hvex with rfl | rfl <;> cases m <;> cases h
    | v :: tail =>
      have hv := opens_of_decodeClass hvex h
      rcases hvex with rfl | rfl
      · exact .inr (.inl ⟨v, tail, rfl, hv, (decodeClass_C4 hv p rex tail).symm.trans h⟩)
      · exact .inr (.inr ⟨v, tail, rfl, hv, (decodeClass_62 hv p rex tail).symm.trans h⟩)

/-! ## The same bytes behind other prefixes -/

/-- In front of VEX and EVEX: an answer says that none of the prefixes they do not allow was there, and with one
there it is #UD (30_encoding.md R95, R101). -/
theorem decodeClass_badPrefix {b : Byte} (hb : b = 0xC4 ∨ b = 0x62)
    (h : decodeClass m p rex (b :: bs) = .ok (i, rest)) :
    (rex.isSome || p.badForVex) = false ∧ ∀ (p' : Pfxs) (rex' : Option Byte),
      (rex'.isSome || p'.badForVex) = true → decodeClass m p' rex' (b :: bs) = .error .ud := by
  rcases decodeClass_eq_ok h with ⟨tail, heq, -⟩ | ⟨v, tail, heq, hv, hdec⟩ | ⟨v, tail, heq, hv, hdec⟩
  · rcases hb with rfl | rfl <;> cases heq
  · cases heq
    obtain ⟨v1, v2, op, tail, f, htail, hacc, hgood, -⟩ := decodeVex_eq_ok_iff.1 hdec
    cases htail
    refine ⟨hgood, fun p' rex' hbad => ?_⟩
    rw [decodeClass_C4 hv, decodeVex_badPrefix hacc.toVexOfForm hacc.ext hbad]
  · cases heq
    obtain ⟨p0, p1, p2, op, tail, f, htail, hacc, hx, hgood, -⟩ := decodeEvex_eq_ok_iff.1 hdec
    cases htail
    refine ⟨hgood, fun p' rex' hbad => ?_⟩
    rw [decodeClass_62 hv, decodeEvex_badPrefix hacc.toEvexFields hacc.ext hx hbad]

/-- The first byte of an answer says its class. -/
theorem decodeClass_cases (h : decodeClass m p rex bs = .ok (i, rest)) :
    (∃ tail, bs = 0x0F :: tail ∧ decodeLegacy m p rex tail = .ok (i, rest)) ∨
    ∃ b tail, bs = b :: tail ∧ (b = 0xC4 ∨ b = 0x62) := by
  rcases decodeClass_eq_ok h with hleg | ⟨v, tail, rfl, -⟩ | ⟨v, tail, rfl, -⟩
  · exact .inl hleg
  · exact .inr ⟨_, _, rfl, .inl rfl⟩
  · exact .inr ⟨_, _, rfl, .inr rfl⟩

/-- LOCK in front of what decodes (30_encoding.md R85, R95, R101). -/
theorem decodeClass_lock (h : decodeClass m p rex bs = .ok (i, rest)) :
    p.has .lock = false ∧ decodeClass m (p.set .lock) rex bs = .error .ud := by
  rcases decodeClass_cases h with ⟨tail, rfl, hdec⟩ | ⟨b, tail, rfl, hb⟩
  · obtain ⟨op, tail, f, rfl, hop, ho, hrep, hlock, -⟩ := decodeLegacy_eq_ok_iff.1 hdec
    exact ⟨hlock, decodeLegacy_lock hop ho hrep rfl⟩
  · obtain ⟨hgood, hbad⟩ := decodeClass_badPrefix hb h
    simp only [Pfxs.badForVex, Bool.or_eq_false_iff] at hgood
    obtain ⟨-, -, hlock⟩ := hgood
    exact ⟨hlock, hbad _ _ (by simp [Pfxs.set, Pfxs.badForVex])⟩

/-- An instruction of the legacy class. -/
def Instr.IsLegacy (i : Instr) : Prop := ∃ rex f, i = .pextrb rex f ∨ i = .pextrd rex f ∨ i = .pextrq rex f

theorem not_isLegacy_selectVex (m : Mode) (op : Byte) (w : Bool) (f : Form) : ¬ (selectVex m op w f).IsLegacy := by
  unfold selectVex
  split
  · simp [Instr.IsLegacy]
  split <;> simp [Instr.IsLegacy]

theorem not_isLegacy_selectEvex (m : Mode) (op : Byte) (w : Bool) (f : Form) : ¬ (selectEvex m op w f).IsLegacy := by
  unfold selectEvex
  split
  · simp [Instr.IsLegacy]
  split <;> simp [Instr.IsLegacy]

/-- F2H or F3H in front of a legacy form (30_encoding.md R86). -/
theorem decodeClass_rep (hi : i.IsLegacy) (h : decodeClass m p rex bs = .ok (i, rest)) :
    p.has .rep = false ∧ decodeClass m (p.set .rep) rex bs = .error (.refuse .repPrefix) := by
  rcases decodeClass_eq_ok h with ⟨tail, rfl, hdec⟩ | ⟨v, tail, rfl, -, hdec⟩ | ⟨v, tail, rfl, -, hdec⟩
  · obtain ⟨op, tail, f, rfl, hop, ho, hrep, -⟩ := decodeLegacy_eq_ok_iff.1 hdec
    exact ⟨hrep, decodeLegacy_rep hop ho rfl⟩
  · obtain ⟨v1, v2, op, tail, f, -, -, -, -, rfl⟩ := decodeVex_eq_ok_iff.1 hdec
    exact absurd hi (not_isLegacy_selectVex _ _ _ _)
  · obtain ⟨p0, p1, p2, op, tail, f, -, -, -, -, -, rfl⟩ := decodeEvex_eq_ok_iff.1 hdec
    exact absurd hi (not_isLegacy_selectEvex _ _ _ _)

/-! ## 67H and a register destination -/

/-- The record that 67H is there. -/
def Form.with67 (f : Form) : Form := { f with a67 := true }

/-- The operands of what the classes select, and the selection with the record of 67H changed. -/
theorem selectLegacy_form (m : Mode) (op : Byte) (w rex : Bool) (f : Form) : (selectLegacy m op w rex f).form = f ∧
    selectLegacy m op w rex f.with67 = (selectLegacy m op w rex f).mapForm Form.with67 := by
  unfold selectLegacy
  split
  · exact ⟨rfl, rfl⟩
  split <;> exact ⟨rfl, rfl⟩

theorem selectVex_form (m : Mode) (op : Byte) (w : Bool) (f : Form) : (selectVex m op w f).form = f ∧
    selectVex m op w f.with67 = (selectVex m op w f).mapForm Form.with67 := by
  unfold selectVex
  split
  · exact ⟨rfl, rfl⟩
  split <;> exact ⟨rfl, rfl⟩

theorem selectEvex_form (m : Mode) (op : Byte) (w : Bool) (f : Form) : (selectEvex m op w f).form = f ∧
    selectEvex m op w f.with67 = (selectEvex m op w f).mapForm Form.with67 := by
  unfold selectEvex
  split
  · exact ⟨rfl, rfl⟩
  split <;> exact ⟨rfl, rfl⟩

theorem readForm_a67 {r' r x b : Bool} {f : Form} (h : readForm m p r' r x b bs = .ok (f, rest)) : f.a67 = p.a67 := by
  obtain ⟨_, _, _, _, -, -, rfl⟩ := readForm_eq_ok_iff.1 h
  rfl

theorem readForm_set_addrSize {r' r x b : Bool} {f : Form} {g : GprNum} (h : readForm m p r' r x b bs = .ok (f, rest))
    (hd : f.dest = .reg g) : readForm m (p.set .addrSize) r' r x b bs = .ok (f.with67, rest) := by
  obtain ⟨modrm, tail, dest, imm8, rfl, hdest, rfl⟩ := readForm_eq_ok_iff.1 h
  obtain rfl : dest = .reg g := hd
  exact readForm_eq_ok_iff.2 ⟨modrm, tail, _, imm8, rfl, readDest_reg hdest true, rfl⟩

/-- 67H in front of a form with a register destination (30_encoding.md R88). -/
theorem decodeClass_addrSize {g : GprNum} (h : decodeClass m p rex bs = .ok (i, rest)) (hd : i.form.dest = .reg g) :
    p.a67 = i.form.a67 ∧ decodeClass m (p.set .addrSize) rex bs = .ok (i.mapForm Form.with67, rest) := by
  rcases decodeClass_eq_ok h with ⟨tail, rfl, hdec⟩ | ⟨v, tail, rfl, hv, hdec⟩ | ⟨v, tail, rfl, hv, hdec⟩
  · obtain ⟨op, tail, f, rfl, hop, ho, hrep, hlock, hf, rfl⟩ := decodeLegacy_eq_ok_iff.1 hdec
    obtain ⟨hform, hmap⟩ := selectLegacy_form m op (rex.getD 0)[3] rex.isSome f
    rw [hform] at hd ⊢
    rw [decodeClass_0F]
    exact ⟨(readForm_a67 hf).symm, decodeLegacy_eq_ok_iff.2
      ⟨op, tail, f.with67, rfl, hop, ho, hrep, hlock, readForm_set_addrSize hf hd, hmap.symm⟩⟩
  · obtain ⟨v1, v2, op, tail, f, htail, hacc, hgood, hf, rfl⟩ := decodeVex_eq_ok_iff.1 hdec
    obtain ⟨hform, hmap⟩ := selectVex_form m op v2[7] f
    rw [hform] at hd ⊢
    rw [decodeClass_C4 hv]
    exact ⟨(readForm_a67 hf).symm, decodeVex_eq_ok_iff.2
      ⟨v1, v2, op, tail, f.with67, htail, hacc, hgood, readForm_set_addrSize hf hd, hmap.symm⟩⟩
  · obtain ⟨p0, p1, p2, op, tail, f, htail, hacc, hx, hgood, hf, rfl⟩ := decodeEvex_eq_ok_iff.1 hdec
    obtain ⟨hform, hmap⟩ := selectEvex_form m op p1[7] f
    rw [hform] at hd ⊢
    rw [decodeClass_62 hv]
    exact ⟨(readForm_a67 hf).symm, decodeEvex_eq_ok_iff.2
      ⟨p0, p1, p2, op, tail, f.with67, htail, hacc, hx, hgood, readForm_set_addrSize hf hd, hmap.symm⟩⟩

end Sys2Proof
end

section
/-! SUPPORT. The decoder on what the encoder writes: the operands read back, and each class. -/

namespace Sys2Proof

section
variable {m : Mode} {p : Pfxs}

/-! ## The extension bits an operand needs -/

theorem bit3_of_lt_8 : ∀ r : GprNum, r.toNat < 8 → r[3] = false := by decide

/-- An XMM number is the bits that the encodings hold. -/
theorem xmmNum_eq : ∀ n : XmmNum, BitVec.ofBool n[4] ++ BitVec.ofBool n[3] ++ n.extractLsb' 0 3 = n := by decide

theorem xmmNum_bits : ∀ n : XmmNum, (n.toNat < 16 → n[4] = false) ∧ (n.toNat < 8 → n[4] = false ∧ n[3] = false) := by
  decide

theorem bit3_of_allowsGpr {r : GprNum} (h : Mode.allowsGpr .mode32 r = true) : r[3] = false :=
  bit3_of_lt_8 r (by simpa [Mode.allowsGpr] using h)

theorem index_bit3_of_allowsIndex {ix : Option GprNum} (h : Mode.allowsIndex .mode32 ix = true) :
    (ix.getD 0)[3] = false := by
  cases ix with
  | none => rfl
  | some r =>
    simp only [Mode.allowsIndex, Bool.and_eq_true] at h
    obtain ⟨-, hr⟩ := h
    exact bit3_of_allowsGpr hr

theorem Addr.noExt_of_wf {a : Addr} (h : a.wf .mode32 = true) : a.x = false ∧ a.b = false := by
  cases a with
  | base r d =>
    simp only [Addr.wf, Bool.and_eq_true] at h
    obtain ⟨⟨hr, -⟩, -⟩ := h
    exact ⟨rfl, bit3_of_allowsGpr hr⟩
  | sib r ix sc d =>
    simp only [Addr.wf, Bool.and_eq_true] at h
    obtain ⟨⟨hr, hix⟩, -⟩ := h
    exact ⟨index_bit3_of_allowsIndex hix, bit3_of_allowsGpr hr⟩
  | sibNoBase ix sc d => exact ⟨index_bit3_of_allowsIndex h, rfl⟩
  | disp32 d => exact ⟨rfl, rfl⟩

/-- A destination that `Mode32` has needs no extension bit (30_encoding.md R90, R99, R105). -/
theorem Dest.noExt_of_wf {d : Dest} {a67 : Bool} (h : d.wf .mode32 a67 = true) : d.x = false ∧ d.b = false := by
  cases d with
  | reg r => exact ⟨rfl, bit3_of_allowsGpr h⟩
  | mem a =>
    simp only [Dest.wf, Bool.and_eq_true] at h
    obtain ⟨ha, -⟩ := h
    exact Addr.noExt_of_wf ha

/-- The operands that a class of `n` XMM registers can name need no extension bit but in `Mode64`, and the top one only
where the class reaches more than 16. -/
theorem Form.ext_of_wf {f : Form} {n : Nat} (h : f.wf m n = true) : m.admitted = true ∧ f.dest.wf m f.a67 = true ∧
    (n = 16 → f.src[4] = false) ∧
    (m = .mode32 → f.src[4] = false ∧ f.src[3] = false ∧ f.dest.x = false ∧ f.dest.b = false) := by
  simp only [Form.wf, Bool.and_eq_true, decide_eq_true_eq] at h
  obtain ⟨⟨hm, hsrc⟩, hdest⟩ := h
  obtain ⟨h16, h8⟩ := xmmNum_bits f.src
  refine ⟨hm, hdest, fun hn => h16 ?_, fun h32 => ?_⟩
  · subst hn
    split at hsrc <;> omega
  · subst h32
    obtain ⟨h4, h3⟩ := h8 hsrc
    exact ⟨h4, h3, Dest.noExt_of_wf hdest⟩

/-! ## The operands read back -/

/-- An index register is read back from its extension bit and its field. -/
theorem indexOf_indexField {ix : Option GprNum} (h : m.allowsIndex ix = true) :
    indexOf (gprNum (ix.getD 0)[3] (indexField ix)) = ix := by
  cases ix with
  | none => decide
  | some r =>
    simp only [Mode.allowsIndex, Bool.and_eq_true, bne_iff_ne] at h
    exact indexOf_gprNum r h.1

theorem lowField_eq_setWidth : ∀ r : GprNum, r.setWidth 3 = lowField r := by decide

/-- The code 101b without displacement is no base register (30_encoding.md R108, R109). -/
theorem Disp.md_of_fitsBase {d : Disp} {r : GprNum} (h : d.fitsBase r = true) : ¬ (d.md = 0 ∧ lowField r = 5) := by
  rintro ⟨hmd, hr⟩
  rw [d.md_eq_zero.1 hmd] at h
  simp [Disp.fitsBase, lowField_eq_setWidth, hr] at h

/-- ModRM, SIB and displacement are read back as the addressing form. -/
theorem readAddr_bytes {a : Addr} (ha : a.wf m = true) (reg : BitVec 3) (rest : List Byte) :
    ∃ md rm tail, a.bytes reg ++ rest = byte233 md reg rm :: tail ∧ md ≠ 3 ∧
      readAddr a.x a.b md rm tail = .ok (a, rest) := by
  cases a with
  | base r d =>
    simp only [Addr.wf, Bool.and_eq_true, bne_iff_ne, lowField_eq_setWidth] at ha
    obtain ⟨⟨-, h4⟩, hfit⟩ := ha
    refine ⟨d.md, lowField r, d.bytes ++ rest, rfl, d.md_ne_three, ?_⟩
    rw [readAddr, if_neg h4, if_neg (Disp.md_of_fitsBase hfit), readDisp_bytes]
    simp only [Addr.b, gprNum_lowField, scan_ok_bind]
  | sib r ix sc d =>
    simp only [Addr.wf, Bool.and_eq_true] at ha
    obtain ⟨⟨-, hix⟩, hfit⟩ := ha
    refine ⟨d.md, 4, byte233 sc (indexField ix) (lowField r) :: (d.bytes ++ rest), rfl, d.md_ne_three, ?_⟩
    simp only [readAddr, if_true, nextByte_cons, scan_ok_bind, byte233_mod, byte233_reg, byte233_rm,
      if_neg (Disp.md_of_fitsBase hfit), readDisp_bytes, Addr.x, Addr.b, gprNum_lowField, indexOf_indexField hix]
  | sibNoBase ix sc d =>
    refine ⟨0, 4, byte233 sc (indexField ix) 5 :: (dwordBytes d ++ rest), rfl, by decide, ?_⟩
    simp only [readAddr, if_true, nextByte_cons, scan_ok_bind, byte233_mod, byte233_reg, byte233_rm,
      and_self, nextDword_dwordBytes, Addr.x, indexOf_indexField ha]
  | disp32 d =>
    refine ⟨0, 5, dwordBytes d ++ rest, rfl, by decide, ?_⟩
    rw [readAddr, if_neg (by decide), if_pos ⟨rfl, rfl⟩, nextDword_dwordBytes, scan_ok_bind]

/-- ModRM, SIB and displacement are read back as the destination. -/
theorem readDest_bytes {d : Dest} {a67 : Bool} (hd : d.wf m a67 = true) (reg : BitVec 3) (rest : List Byte) :
    ∃ md rm tail, d.bytes reg ++ rest = byte233 md reg rm :: tail ∧ (d.x = true → md ≠ 3) ∧
      readDest m a67 d.x d.b md rm tail = .ok (d, rest) := by
  cases d with
  | reg r => exact ⟨3, lowField r, rest, rfl, nofun, by rw [readDest, if_pos rfl, Dest.b, gprNum_lowField]⟩
  | mem a =>
    simp only [Dest.wf, Bool.and_eq_true] at hd
    obtain ⟨ha, hmode⟩ := hd
    obtain ⟨md, rm, tail, hbytes, hmd, hread⟩ := readAddr_bytes ha reg rest
    have h16 : ¬ (m == .mode32 && a67) = true := by cases m <;> simp_all
    refine ⟨md, rm, tail, hbytes, fun _ => hmd, ?_⟩
    rw [readDest, if_neg hmd, if_neg h16, Dest.x, Dest.b, hread, scan_ok_bind]

section
variable {f : Form}

/-- ModRM to imm8 are read back as the operands; where EVEX.X is used the destination is memory. -/
theorem readForm_bodyBytes (hd : f.dest.wf m f.a67 = true) (hseg : p.seg = f.seg) (ha67 : p.a67 = f.a67)
    (rest : List Byte) :
    readForm m p f.src[4] f.src[3] f.dest.x f.dest.b (f.bodyBytes ++ rest) = .ok (f, rest) ∧
      ∀ p0 : Byte, p0[6] = !f.dest.x → evexXCheck m p0 (f.bodyBytes ++ rest) = .ok () := by
  obtain ⟨md, rm, tail, hbytes, hmd, hread⟩ := readDest_bytes hd (f.src.extractLsb' 0 3) (f.imm8 :: rest)
  have hbody : f.bodyBytes ++ rest = byte233 md (f.src.extractLsb' 0 3) rm :: tail := by
    rw [Form.bodyBytes, List.append_assoc]
    exact hbytes
  rw [hbody]
  constructor
  · refine readForm_eq_ok_iff.2 ⟨_, tail, f.dest, f.imm8, rfl, ?_, ?_⟩
    · rw [byte233_mod, byte233_rm, ha67, hread]
    · rw [byte233_reg, xmmNum_eq, hseg, ha67]
  · intro p0 hp0
    cases hx : f.dest.x with
    | false => simp [evexXCheck, hp0, hx]
    | true =>
      have hmd3 : ¬ md = 3#2 := hmd hx
      simp [evexXCheck, byte233_mod, hmd3]

/-! ## The three classes -/

theorem Form.addAll_pfxBytes (f : Form) : ({} : Pfxs).addAll f.pfxBytes = some { seg := f.seg, a67 := f.a67 } :=
  Pfxs.addAll_operand f.seg f.a67

theorem Form.addAll_pfxBytes_66 (f : Form) :
    ({} : Pfxs).addAll (f.pfxBytes ++ [0x66]) = some { seg := f.seg, a67 := f.a67, o66 := true } := by
  rw [Pfxs.addAll_append, f.addAll_pfxBytes]
  rfl

/-- The extension bits of a legacy form are those of its REX byte, and none without one. -/
theorem rex_bits {w rex : Bool} (hw : w = true → rex = true) (hrex : f.rexWf m rex = true) :
    ∃ c : Option Byte, c.isSome = rex ∧ m.AllowsRex c ∧
      legacyBytes w rex f.src[3] f.dest.x f.dest.b = 0x66 :: c.toList ++ [0x0F, 0x3A] ∧
      (c.getD 0)[3] = w ∧ (c.getD 0)[2] = f.src[3] ∧ (c.getD 0)[1] = f.dest.x ∧ (c.getD 0)[0] = f.dest.b := by
  cases rex with
  | true =>
    obtain ⟨-, hrexb, h3, h2, h1, h0⟩ := rexByte_bits w f.src[3] f.dest.x f.dest.b
    obtain rfl : m = .mode64 := by simpa [Form.rexWf] using hrex
    exact ⟨some (rexByte w f.src[3] f.dest.x f.dest.b), rfl, Mode.allowsRex_some hrexb, rfl, h3, h2, h1, h0⟩
  | false =>
    obtain rfl : w = false := by simpa using hw
    simp only [Form.rexWf, Form.needsNoRex, Bool.false_eq_true, if_false, Bool.and_eq_true, decide_eq_true_eq] at hrex
    obtain ⟨hsrc, hdest⟩ := hrex
    obtain ⟨hx, hb⟩ := Dest.noExt_of_wf hdest
    obtain ⟨-, h3⟩ := (xmmNum_bits f.src).2 hsrc
    exact ⟨none, rfl, m.allowsRex_none, rfl, by simp [hx, hb, h3]⟩

theorem decode_encodeLegacy {op : Byte} {w rex : Bool} (hop : isExtractOp op = true) (hw : w = true → rex = true)
    (hf : f.wf m 16 = true) (hrex : f.rexWf m rex = true) (rest : List Byte) :
    decode m (encodeLegacy op w rex f ++ rest) = .ok (selectLegacy m op w rex f, rest) := by
  obtain ⟨hm, hdest, h4, -⟩ := Form.ext_of_wf hf
  obtain ⟨c, hc, hallow, hbytes, h3, h2, h1, h0⟩ := rex_bits hw hrex
  have hsplit : encodeLegacy op w rex f ++ rest =
      f.pfxBytes ++ [0x66] ++ c.toList ++ 0x0F :: 0x3A :: op :: (f.bodyBytes ++ rest) := by
    simp [encodeLegacy, hbytes]
  rw [hsplit, decode_of_addAll hm f.addAll_pfxBytes_66 hallow m.opcodeByte_0F, decodeClass_0F,
    decodeLegacy_reads_form hop rfl rfl rfl, h0, h1, h2, h3, hc, ← h4 rfl, (readForm_bodyBytes hdest rfl rfl rest).1,
    scan_ok_bind]

/-- The fields of the VEX bytes that the encoder writes. -/
theorem vexBytes_fields : ∀ w r x b : Bool, ∃ v1 v2 : Byte, vexBytes w r x b = [0xC4, v1, v2] ∧
    v1.extractLsb' 0 5 = 3#5 ∧ v1[7] = !r ∧ v1[6] = !x ∧ v1[5] = !b ∧
    (r = false → x = false → v1.extractLsb' 6 2 = 3#2) ∧
    v2.extractLsb' 0 2 = 1#2 ∧ v2[2] = false ∧ v2.extractLsb' 3 4 = 15#4 ∧ v2[7] = w :=
  fun w r x b => ⟨_, _, rfl, by revert w r x b; decide⟩

theorem decode_encodeVex {op : Byte} {w : Bool} (hop : isExtractOp op = true) (hf : f.wf m 16 = true)
    (rest : List Byte) :
    decode m (encodeVex op w f ++ rest) = .ok (selectVex m op w f, rest) := by
  obtain ⟨hm, hdest, h4, h32⟩ := Form.ext_of_wf hf
  obtain ⟨v1, v2, hbytes, hmap, h7, h6, h5, htop, hpp, hl, hvvvv, hw⟩ := vexBytes_fields w f.src[3] f.dest.x f.dest.b
  have hsplit : encodeVex op w f ++ rest = f.pfxBytes ++ 0xC4 :: v1 :: v2 :: op :: (f.bodyBytes ++ rest) := by
    simp [encodeVex, hbytes]
  have hopens : m.OpensVex v1 := Mode.opensVex_of_admitted hm fun h => by
    obtain ⟨-, h3, hx, -⟩ := h32 h
    exact htop h3 hx
  have hacc : VexAccepted m v1 v2 op := ⟨⟨hmap, hpp, hop⟩, fun h => by simp [h5, h32 h], hl, hvvvv⟩
  rw [hsplit, decode_of_addAll_noRex hm f.addAll_pfxBytes m.opcodeByte_C4, decodeClass_C4 hopens,
    decodeVex_reads_form hacc rfl, h7, h6, h5, hw]
  simp only [Bool.not_not]
  rw [← h4 rfl, (readForm_bodyBytes hdest rfl rfl rest).1, scan_ok_bind]

/-- The fields of the EVEX bytes that the encoder writes. -/
theorem evexBytes_fields : ∀ w r' r x b : Bool, ∃ p0 p1 : Byte, evexBytes w r' r x b = [0x62, p0, p1, 0x08] ∧
    p0.extractLsb' 0 2 = 3#2 ∧ p0.extractLsb' 2 2 = 0#2 ∧ p0[7] = !r ∧ p0[6] = !x ∧ p0[5] = !b ∧ p0[4] = !r' ∧
    (r = false → x = false → p0.extractLsb' 6 2 = 3#2) ∧
    p1.extractLsb' 0 2 = 1#2 ∧ p1[2] = true ∧ p1.extractLsb' 3 4 = 15#4 ∧ p1[7] = w :=
  fun w r' r x b => ⟨_, _, rfl, by revert w r' r x b; decide⟩

theorem decode_encodeEvex {op : Byte} {w : Bool} (hop : isExtractOp op = true) (hf : f.wf m 32 = true)
    (rest : List Byte) :
    decode m (encodeEvex op w f ++ rest) = .ok (selectEvex m op w f, rest) := by
  obtain ⟨hm, hdest, -, h32⟩ := Form.ext_of_wf hf
  obtain ⟨p0, p1, hbytes, hmap, hres, h7, h6, h5, h4, htop, hpp, hres', hvvvv, hw⟩ :=
    evexBytes_fields w f.src[4] f.src[3] f.dest.x f.dest.b
  have hsplit : encodeEvex op w f ++ rest = f.pfxBytes ++ 0x62 :: p0 :: p1 :: 0x08 :: op :: (f.bodyBytes ++ rest) := by
    simp [encodeEvex, hbytes]
  have hopens : m.OpensVex p0 := Mode.opensVex_of_admitted hm fun h => by
    obtain ⟨-, h3, hx, -⟩ := h32 h
    exact htop h3 hx
  have hacc : EvexAccepted m p0 p1 0x08 op := ⟨⟨⟨⟨hmap, hpp, hop⟩, hres, hres'⟩, rfl, rfl, rfl, rfl⟩,
    fun h => by simp [h5, h4, h32 h], rfl, hvvvv⟩
  obtain ⟨hread, hx⟩ := readForm_bodyBytes (p := { seg := f.seg, a67 := f.a67 }) hdest rfl rfl rest
  rw [hsplit, decode_of_addAll_noRex hm f.addAll_pfxBytes m.opcodeByte_62, decodeClass_62 hopens,
    decodeEvex_reads_form hacc (hx p0 h6) rfl, h7, h6, h5, h4, hw]
  simp only [Bool.not_not]
  rw [hread, scan_ok_bind]

end

end

/-- Settles O1: each class on the encoder's bytes, by the decoder behind the prefixes and the operands read back. -/
theorem decodeOfEncode : Obligations.DecodeOfEncode := by
  intro m i rest h
  cases i with
  | pextrb rex f =>
    simp only [Instr.wf, Bool.and_eq_true] at h
    obtain ⟨hf, hrex⟩ := h
    rw [encode, decode_encodeLegacy isExtractOp_14 (w := false) nofun hf hrex]
    rfl
  | pextrd rex f =>
    simp only [Instr.wf, Bool.and_eq_true] at h
    obtain ⟨hf, hrex⟩ := h
    rw [encode, decode_encodeLegacy isExtractOp_16 (w := false) nofun hf hrex]
    simp [selectLegacy]
  | pextrq rex f =>
    simp only [Instr.wf, Bool.and_eq_true, beq_iff_eq] at h
    obtain ⟨⟨⟨hf, hrex⟩, rfl⟩, rfl⟩ := h
    rw [encode, decode_encodeLegacy isExtractOp_16 (fun _ => rfl) hf hrex]
    rfl
  | vpextrbVex f =>
    rw [encode, decode_encodeVex isExtractOp_14 h]
    rfl
  | vpextrdVex f =>
    rw [encode, decode_encodeVex isExtractOp_16 h]
    simp [selectVex]
  | vpextrqVex f =>
    simp only [Instr.wf, Bool.and_eq_true, beq_iff_eq] at h
    obtain ⟨hf, rfl⟩ := h
    rw [encode, decode_encodeVex isExtractOp_16 hf]
    rfl
  | vpextrbEvex f =>
    rw [encode, decode_encodeEvex isExtractOp_14 h]
    rfl
  | vpextrdEvex f =>
    rw [encode, decode_encodeEvex isExtractOp_16 h]
    simp [selectEvex]
  | vpextrqEvex f =>
    simp only [Instr.wf, Bool.and_eq_true, beq_iff_eq] at h
    obtain ⟨hf, rfl⟩ := h
    rw [encode, decode_encodeEvex isExtractOp_16 hf]
    rfl

end Sys2Proof
end

section
/-! SUPPORT. What the decoder consumes, ignores and refuses, whatever stands around it (30_encoding.md R82 to R118). -/

namespace Sys2Proof

/-- Settles O3: the decoder takes as many bytes as the instruction has, and every instruction has 6 to 14. -/
theorem decodeConsumesItsLength : Obligations.DecodeConsumesItsLength :=
  fun _ _ _ i h => ⟨(wf_of_decode h).2, i.len_bounds⟩

/-! ## Ignored bits -/

/-- Inverting REX.W leaves a REX byte with the other bits as they were. -/
theorem rex_invert_w : ∀ b : Byte, (b ^^^ 0x08)[2] = b[2] ∧ (b ^^^ 0x08)[1] = b[1] ∧ (b ^^^ 0x08)[0] = b[0] ∧
    isRex (b ^^^ 0x08) = isRex b := by decide

/-- Inverting the top bit leaves the other fields of V2, or of P1, as they were. -/
theorem top_bit_inverted : ∀ v : Byte, (v ^^^ 0x80).extractLsb' 0 2 = v.extractLsb' 0 2 ∧ (v ^^^ 0x80)[2] = v[2] ∧
    (v ^^^ 0x80).extractLsb' 3 4 = v.extractLsb' 3 4 := by decide

section
variable {m : Mode} {op : Byte}

/-- W is ignored by the byte forms, and outside `Mode64` (30_encoding.md R115, R117). -/
theorem selectVex_w (h : op = 0x14 ∨ m = .mode32) (w w' : Bool) (f : Form) :
    selectVex m op w f = selectVex m op w' f := by
  rcases h with rfl | rfl <;> rfl

theorem selectEvex_w (h : op = 0x14 ∨ m = .mode32) (w w' : Bool) (f : Form) :
    selectEvex m op w f = selectEvex m op w' f := by
  rcases h with rfl | rfl <;> rfl

end

section
variable {m : Mode} {p : Pfxs} {op : Byte} {bs rest : List Byte} {i : Instr}

theorem decodeLegacy_invert_w {r : Byte} (h : decodeLegacy m p (some r) (0x3A :: 0x14 :: bs) = .ok (i, rest)) :
    decodeLegacy m p (some (r ^^^ 0x08)) (0x3A :: 0x14 :: bs) = .ok (i, rest) := by
  obtain ⟨h2, h1, h0, -⟩ := rex_invert_w r
  obtain ⟨op, tail, f, htail, hop, ho, hrep, hlock, hf, rfl⟩ := decodeLegacy_eq_ok_iff.1 h
  cases htail
  refine decodeLegacy_eq_ok_iff.2 ⟨0x14, bs, f, rfl, hop, ho, hrep, hlock, ?_, rfl⟩
  rw [Option.getD_some] at hf ⊢
  rw [h2, h1, h0, hf]

theorem decodeVex_invert_w {v1 v2 : Byte} (hw : op = 0x14 ∨ m = .mode32) {rex : Option Byte}
    (h : decodeVex m p rex (v1 :: v2 :: op :: bs) = .ok (i, rest)) :
    decodeVex m p rex (v1 :: (v2 ^^^ 0x80) :: op :: bs) = .ok (i, rest) := by
  obtain ⟨hpp, hl, hvvvv⟩ := top_bit_inverted v2
  obtain ⟨_, _, _, _, f, htail, hacc, hgood, hf, rfl⟩ := decodeVex_eq_ok_iff.1 h
  cases htail
  have hacc' : VexAccepted m v1 (v2 ^^^ 0x80) op :=
    ⟨⟨hacc.map, hpp.trans hacc.pp, hacc.op⟩, hacc.ext, hl.trans hacc.l, hvvvv.trans hacc.vvvv⟩
  exact decodeVex_eq_ok_iff.2 ⟨v1, _, op, bs, f, rfl, hacc', hgood, hf, selectVex_w hw _ _ f⟩

theorem decodeEvex_invert_w {p0 p1 p2 : Byte} (hw : op = 0x14 ∨ m = .mode32) {rex : Option Byte}
    (h : decodeEvex m p rex (p0 :: p1 :: p2 :: op :: bs) = .ok (i, rest)) :
    decodeEvex m p rex (p0 :: (p1 ^^^ 0x80) :: p2 :: op :: bs) = .ok (i, rest) := by
  obtain ⟨hpp, hres, hvvvv⟩ := top_bit_inverted p1
  obtain ⟨_, _, _, _, _, f, htail, hacc, hx, hgood, hf, rfl⟩ := decodeEvex_eq_ok_iff.1 h
  cases htail
  have hform : EvexOfForm p0 (p1 ^^^ 0x80) op := ⟨hacc.map, hpp.trans hacc.pp, hacc.op⟩
  have hfields : EvexFields p0 (p1 ^^^ 0x80) p2 op :=
    ⟨⟨hform, hacc.p0_res, hres.trans hacc.p1_res⟩, hacc.z, hacc.b, hacc.v', hacc.aaa⟩
  have hacc' : EvexAccepted m p0 (p1 ^^^ 0x80) p2 op := ⟨hfields, hacc.ext, hacc.ll, hvvvv.trans hacc.vvvv⟩
  exact decodeEvex_eq_ok_iff.2 ⟨p0, _, p2, op, bs, f, rfl, hacc', hx, hgood, hf, selectEvex_w hw _ _ f⟩

end

/-- Two byte sequences behind the same prefixes: where the class answers alike, so does the decoder. -/
theorem decode_transfer {m : Mode} {pre rest : List Byte} {rex rex' : Option Byte} {b : Byte} {bs bs' : List Byte}
    {i : Instr} (hpre : ∀ b ∈ pre, (pfxByte? b).isSome = true) (hrex : m.AllowsRex rex) (hrex' : m.AllowsRex rex')
    (hb : m.OpcodeByte b) (h : decode m (pre ++ rex.toList ++ b :: bs) = .ok (i, rest))
    (hclass : ∀ p, decodeClass m p rex (b :: bs) = .ok (i, rest) → decodeClass m p rex' (b :: bs') = .ok (i, rest)) :
    decode m (pre ++ rex'.toList ++ b :: bs') = .ok (i, rest) := by
  have hm := Machine.admitted_of_wf (wf_of_decode h).1
  obtain ⟨p, hp⟩ := addAll_of_decode hpre (List.append_assoc _ _ _ ▸ h)
  rw [decode_of_addAll hm hp hrex hb] at h
  rw [decode_of_addAll hm hp hrex' hb, hclass p h]

/-- The same without REX byte. -/
theorem decode_transfer_noRex {m : Mode} {pre rest : List Byte} {b : Byte} {bs bs' : List Byte} {i : Instr}
    (hpre : ∀ b ∈ pre, (pfxByte? b).isSome = true) (hb : m.OpcodeByte b) (h : decode m (pre ++ b :: bs) = .ok (i, rest))
    (hclass : ∀ p, decodeClass m p none (b :: bs) = .ok (i, rest) → decodeClass m p none (b :: bs') = .ok (i, rest)) :
    decode m (pre ++ b :: bs') = .ok (i, rest) := by
  simpa using decode_transfer hpre m.allowsRex_none m.allowsRex_none hb (by simpa using h) hclass

/-- Settles O7: the class reads the same fields, and selects the same instruction for either W. -/
theorem ignoredWChangesNothing : Obligations.IgnoredWChangesNothing := by
  refine ⟨?_, ?_, ?_⟩
  · intro pre bs rest r i hpre hr h
    have hr := isRex_iff.2 hr
    obtain ⟨-, -, -, hsame⟩ := rex_invert_w r
    simpa using decode_transfer (rex := some r) (rex' := some (r ^^^ 0x08)) (bs := 0x3A :: 0x14 :: bs)
      (bs' := 0x3A :: 0x14 :: bs) hpre (Mode.allowsRex_some hr) (Mode.allowsRex_some (hsame.trans hr))
      (Mode.opcodeByte_0F _) (by simpa using h) fun p hp => decodeLegacy_invert_w hp
  · intro m pre bs rest v1 v2 op i hpre hw h
    refine decode_transfer_noRex hpre m.opcodeByte_C4 h fun p hp => ?_
    have hopens := opens_of_decodeClass (.inl rfl) hp
    rw [decodeClass_C4 hopens] at hp ⊢
    exact decodeVex_invert_w hw hp
  · intro m pre bs rest p0 p1 p2 op i hpre hw h
    refine decode_transfer_noRex hpre m.opcodeByte_62 h fun p hp => ?_
    have hopens := opens_of_decodeClass (.inr rfl) hp
    rw [decodeClass_62 hopens] at hp ⊢
    exact decodeEvex_invert_w hw hp

/-! ## Prefixes that are refused or invalid -/

/-- Settles O10: behind the inserted LOCK every class answers #UD. -/
theorem lockIsInvalid : Obligations.LockIsInvalid := by
  intro m pre suf rest i h hpre
  obtain ⟨p, rex, tail, hclass, hins⟩ := decode_insert hpre h
  obtain ⟨hfree, hud⟩ := decodeClass_lock hclass
  rw [hins 0xF0 .lock (by decide) hfree, hud]

/-- Settles O11: VEX and EVEX answer #UD behind each of these prefixes. -/
theorem prefixBeforeVexOrEvexInvalid : Obligations.PrefixBeforeVexOrEvexInvalid := by
  intro m pre suf rest b c i h hpre hb hc
  have hm := Machine.admitted_of_wf (wf_of_decode h).1
  have hopc := m.opcodeByte_of_class (.inr hb)
  obtain ⟨p, hp⟩ := addAll_of_decode hpre h
  rw [decode_of_addAll_noRex hm hp hopc] at h
  obtain ⟨hgood, hud⟩ := decodeClass_badPrefix hb h
  simp only [Pfxs.badForVex, Bool.or_eq_false_iff] at hgood
  obtain ⟨-, ⟨ho, hrep⟩, hlock⟩ := hgood
  have hbehind {k : PfxByte} (hk : pfxByte? c = some k) (hfree : p.has k = false) (hbad : (p.set k).badForVex = true) :
      decode m (pre ++ c :: b :: suf) = .error .ud := by
    have hadd : ({} : Pfxs).addAll (pre ++ [c]) = some (p.set k) := by
      rw [Pfxs.addAll_append, hp]
      simp [Pfxs.addAll, p.addByte_eq hk, Pfxs.add_of_free hfree]
    rw [← List.singleton_append, ← List.append_assoc, decode_of_addAll_noRex hm hadd hopc]
    exact hud _ _ hbad
  rcases hc with (rfl | rfl | rfl | rfl) | ⟨rfl, hc⟩
  · exact hbehind (k := .opSize) (by decide) ho rfl
  · exact hbehind (k := .rep) (by decide) hrep (by simp [Pfxs.set, Pfxs.badForVex])
  · exact hbehind (k := .rep) (by decide) hrep (by simp [Pfxs.set, Pfxs.badForVex])
  · exact hbehind (k := .lock) (by decide) hlock (by simp [Pfxs.set, Pfxs.badForVex])
  · have hallow : Mode.AllowsRex .mode64 (some c) := Mode.allowsRex_some (isRex_iff.2 hc)
    have hdec := decode_of_addAll hm hp hallow hopc suf
    rw [Option.toList_some, List.append_assoc] at hdec
    exact hdec.trans (hud p (some c) rfl)

/-- Settles O12: R121's loop takes accepted prefixes only. -/
theorem repeatedPrefixRefused : Obligations.RepeatedPrefixRefused := by
  intro m l suf hm hl hrep
  refine decode_dup hm hl ?_ suf
  by_contra hsome
  have hacc := (acceptedPrefixes_iff hl).2 (Option.isSome_iff_ne_none.2 hsome)
  rcases hrep with hdup | ⟨s₁, s₂, hne, h₁, h₂⟩
  · exact hdup hacc.once
  · exact hne (hacc.segment s₁ s₂ h₁ h₂)

/-- Settles O13: behind the inserted F2H or F3H the legacy class refuses. -/
theorem repBeforeLegacyRefused : Obligations.RepBeforeLegacyRefused := by
  intro m pre suf rest c rex f hpre hc h
  have hk : pfxByte? c = some .rep := pfxByte?_eq_some_iff.2 (by simpa [PfxByte.bytes] using hc)
  obtain ⟨i, hi, h⟩ : ∃ i : Instr, i.IsLegacy ∧ decode m (pre ++ suf) = .ok (i, rest) := by
    rcases h with h | h | h
    · exact ⟨_, ⟨rex, f, .inl rfl⟩, h⟩
    · exact ⟨_, ⟨rex, f, .inr (.inl rfl)⟩, h⟩
    · exact ⟨_, ⟨rex, f, .inr (.inr rfl)⟩, h⟩
  obtain ⟨p, rex', tail, hclass, hins⟩ := decode_insert hpre h
  obtain ⟨hfree, hrefused⟩ := decodeClass_rep hi hclass
  rw [hins c .rep hk hfree, hrefused]

/-- Settles O14: the byte after the REX byte is looked at before the class. -/
theorem rexNotLastRefused : Obligations.RexNotLastRefused := by
  intro seg a67 o66 c d suf hc hd
  have hc := isRex_iff.2 hc
  have hadd : ∃ p, ({} : Pfxs).addAll ((seg.map segByte).toList ++ (if a67 then [(0x67 : Byte)] else []) ++
      (if o66 then [(0x66 : Byte)] else [])) = some p := by
    rw [Pfxs.addAll_append, Pfxs.addAll_operand]
    cases o66
    · exact ⟨_, rfl⟩
    · exact ⟨_, rfl⟩
  obtain ⟨p, hp⟩ := hadd
  have hpfx := (readPfxs_append_of_some hp (c :: d :: suf)).trans (readPfxs_stop p (d :: suf) (pfxByte?_of_isRex c hc))
  rw [decode_of_readPfxs rfl hpfx, readRex_notLast hc (hd.imp_right isRex_iff.2), scan_error_bind]

/-! ## EVEX fields -/

/-- Settles O15: the two tests come right after the form is known. -/
theorem evexReservedAndUnusedFieldsRefused : Obligations.EvexReservedAndUnusedFieldsRefused := by
  intro m seg a67 p0 p1 p2 op bs hm htop hmap hpp hop
  have hform : EvexOfForm p0 p1 op := ⟨hmap, hpp, isExtractOp_iff.2 hop⟩
  rw [decode_of_addAll_noRex hm (Pfxs.addAll_operand seg a67) m.opcodeByte_62,
    decodeClass_62 (Mode.opensVex_of_admitted hm htop)]
  refine ⟨fun hres => decodeEvex_reserved hform hres, fun hres0 hres1 hun => ?_⟩
  exact decodeEvex_unused ⟨hform, hres0, hres1⟩ (by tauto)

/-! ## Behind accepted prefixes -/

theorem addAll_of_accepted {pre : List Byte} (h : Machine.AcceptedPrefixes pre) :
    ∃ p, ({} : Pfxs).addAll pre = some p :=
  Option.isSome_iff_exists.1 ((acceptedPrefixes_iff h.bytes).1 h)

/-- EVEX of one of the forms, with the fields given by ranges of bits. -/
theorem evexFields_of_ranges {p0 p1 p2 op : Byte} (hop : op = 0x14 ∨ op = 0x16) (h0 : p0.extractLsb' 0 4 = 3#4)
    (h1 : p1.extractLsb' 0 3 = 5#3) (hz : p2.getLsbD 7 = false) (h2 : p2.extractLsb' 0 5 = 8#5) :
    EvexFields p0 p1 p2 op := by
  have hp0 : ∀ v : Byte, v.extractLsb' 0 4 = 3#4 → v.extractLsb' 0 2 = 3#2 ∧ v.extractLsb' 2 2 = 0#2 := by decide
  have hp1 : ∀ v : Byte, v.extractLsb' 0 3 = 5#3 → v.extractLsb' 0 2 = 1#2 ∧ v[2] = true := by decide
  have hp2 : ∀ v : Byte, v.extractLsb' 0 5 = 8#5 → v[4] = false ∧ v[3] = true ∧ v.extractLsb' 0 3 = 0#3 := by decide
  obtain ⟨hmap, hres⟩ := hp0 p0 h0
  obtain ⟨hpp, hres'⟩ := hp1 p1 h1
  obtain ⟨hb, hv', haaa⟩ := hp2 p2 h2
  exact ⟨⟨⟨hmap, hpp, isExtractOp_iff.2 hop⟩, hres, hres'⟩, hz, hb, hv', haaa⟩

section
variable {m : Mode} {p : Pfxs} {bs : List Byte} {op modrm : Byte}

/-- 67H and a memory destination in `Mode32`, in each class (30_encoding.md R88). -/
theorem decodeClass_addr16_legacy (hop : op = 0x14 ∨ op = 0x16) (ha67 : p.a67 = true) (ho : p.o66 = true)
    (hrep : p.rep = false) (hlock : p.lock = false) (hmod : modrm.extractLsb' 6 2 ≠ 3#2) :
    decodeClass .mode32 p none (0x0F :: 0x3A :: op :: modrm :: bs) = .error (.refuse .addr16) := by
  rw [decodeClass_0F, decodeLegacy_reads_form (isExtractOp_iff.2 hop) ho hrep hlock, readForm_addr16 ha67 hmod,
    scan_error_bind]

theorem decodeClass_addr16_vex {v2 : Byte} (hop : op = 0x14 ∨ op = 0x16) (ha67 : p.a67 = true)
    (hgood : p.badForVex = false) (hv2 : v2.extractLsb' 0 7 = 0x79#7) (hmod : modrm.extractLsb' 6 2 ≠ 3#2) :
    decodeClass .mode32 p none (0xC4 :: 0xE3 :: v2 :: op :: modrm :: bs) = .error (.refuse .addr16) := by
  have hfields : ∀ v : Byte, v.extractLsb' 0 7 = 0x79#7 →
      v.extractLsb' 0 2 = 1#2 ∧ v[2] = false ∧ v.extractLsb' 3 4 = 15#4 := by decide
  obtain ⟨hpp, hl, hvvvv⟩ := hfields v2 hv2
  have hacc : VexAccepted .mode32 0xE3 v2 op := ⟨⟨rfl, hpp, isExtractOp_iff.2 hop⟩, fun _ => rfl, hl, hvvvv⟩
  rw [decodeClass_C4 (.inr rfl), decodeVex_reads_form (rex := none) hacc hgood, readForm_addr16 ha67 hmod,
    scan_error_bind]

theorem decodeClass_addr16_evex {p1 : Byte} (hop : op = 0x14 ∨ op = 0x16) (ha67 : p.a67 = true)
    (hgood : p.badForVex = false) (hp1 : p1.extractLsb' 0 7 = 0x7D#7) (hmod : modrm.extractLsb' 6 2 ≠ 3#2) :
    decodeClass .mode32 p none (0x62 :: 0xF3 :: p1 :: 0x08 :: op :: modrm :: bs) = .error (.refuse .addr16) := by
  have hfields : ∀ v : Byte, v.extractLsb' 0 7 = 0x7D#7 →
      v.extractLsb' 0 3 = 5#3 ∧ v.extractLsb' 3 4 = 15#4 := by decide
  obtain ⟨h1, hvvvv⟩ := hfields p1 hp1
  have hacc : EvexAccepted .mode32 0xF3 p1 0x08 op :=
    ⟨evexFields_of_ranges hop rfl h1 rfl rfl, fun _ => ⟨rfl, rfl⟩, rfl, hvvvv⟩
  rw [decodeClass_62 (.inr rfl), decodeEvex_reads_form (rex := none) hacc rfl hgood, readForm_addr16 ha67 hmod,
    scan_error_bind]

end

/-- Settles O16: the tests of the extension bits, the test of `addr16` in each class, and the class behind the inserted
67H. -/
theorem extensionBitsAndAddr16Refused : Obligations.ExtensionBitsAndAddr16Refused := by
  refine ⟨?_, ?_, ?_, ?_⟩
  · intro pre bs v1 v2 op hpre hop htop hb hmap hpp
    obtain ⟨p, hp⟩ := addAll_of_accepted hpre
    rw [decode_of_addAll_noRex rfl hp (Mode.opcodeByte_C4 _), decodeClass_C4 (.inr htop)]
    exact decodeVex_extBit ⟨hmap, hpp, isExtractOp_iff.2 hop⟩ hb
  · intro m pre bs p0 p1 p2 op modrm hpre hop h0 h1 hz h2
    obtain ⟨p, hp⟩ := addAll_of_accepted hpre
    have hfields := evexFields_of_ranges hop h0 h1 hz h2
    constructor
    · rintro rfl htop hext
      rw [decode_of_addAll_noRex rfl hp (Mode.opcodeByte_62 _), decodeClass_62 (.inr htop)]
      exact decodeEvex_extBit hfields hext
    · rintro rfl hx hmod
      rw [decode_of_addAll_noRex rfl hp (Mode.opcodeByte_62 _), decodeClass_62 (.inl rfl)]
      exact decodeEvex_xCheck hfields nofun (evexXCheck_reg hx hmod)
  · intro pre bs v2 p1 op modrm hpre hop h67 hF0 hF2 hF3 hmod
    obtain ⟨p, hp⟩ := addAll_of_accepted hpre
    have ha67 := (Pfxs.a67_iff_mem hp).2 h67
    have hlock : p.lock = false := by simpa using mt (Pfxs.lock_iff_mem hp).1 hF0
    have hrep : p.rep = false := by simpa using mt (Pfxs.rep_iff_mem hp).1 (not_or.2 ⟨hF2, hF3⟩)
    have hgood (h66 : 0x66 ∉ pre) : p.badForVex = false := by
      have ho : p.o66 = false := by simpa using mt (Pfxs.o66_iff_mem hp).1 h66
      simp [Pfxs.badForVex, ho, hrep, hlock]
    refine ⟨fun h66 => ?_, fun h66 hv2 => ?_, fun h66 hp1 => ?_⟩
    · rw [decode_of_addAll_noRex rfl hp (Mode.opcodeByte_0F _)]
      exact decodeClass_addr16_legacy hop ha67 ((Pfxs.o66_iff_mem hp).2 h66) hrep hlock hmod
    · rw [decode_of_addAll_noRex rfl hp (Mode.opcodeByte_C4 _)]
      exact decodeClass_addr16_vex hop ha67 (hgood h66) hv2 hmod
    · rw [decode_of_addAll_noRex rfl hp (Mode.opcodeByte_62 _)]
      exact decodeClass_addr16_evex hop ha67 (hgood h66) hp1 hmod
  · intro pre suf rest i r hpre h hdest ha67
    obtain ⟨p, rex, tail, hclass, hins⟩ := decode_insert hpre h
    obtain ⟨hp67, hset⟩ := decodeClass_addrSize hclass hdest
    exact (hins 0x67 .addrSize (by decide) (hp67.trans ha67)).trans hset

/-- Settles O59: each clause is one test of class recognition or of a class, and none of the bytes in front is
looked at before it, but for 66H in front of the legacy forms. -/
theorem notOneOfTheFormsRefused : Obligations.NotOneOfTheFormsRefused := by
  intro m pre bs rex hm hpre hrex
  obtain ⟨p, hp⟩ := addAll_of_accepted hpre
  have hallow : m.AllowsRex rex := fun c hc => (hrex c hc).imp_right isRex_iff.2
  have hclass {b : Byte} (hb : b = 0x0F ∨ b = 0xC4 ∨ b = 0x62) (bs : List Byte) :
      decode m (pre ++ rex.toList ++ b :: bs) = decodeClass m p rex (b :: bs) :=
    decode_of_addAll hm hp hallow (m.opcodeByte_of_class hb) bs
  refine ⟨?_, ?_, ?_, ?_, ?_, ?_, ?_⟩
  · intro b h0F hC4 h62 hpfx hrexb
    rw [decode_of_addAll hm hp hallow ⟨hpfx, fun h => eq_false_of_ne_true (mt isRex_iff.1 (hrexb h))⟩]
    exact decodeClass_other h0F hC4 h62 p rex bs
  · intro esc hesc
    rw [hclass (.inl rfl), decodeClass_0F, decodeLegacy_not3A hesc]
  · intro op h14 h16
    rw [hclass (.inl rfl), decodeClass_0F, decodeLegacy_notInScope (.inl (isExtractOp_eq_false h14 h16))]
  · intro op _ h66
    rw [hclass (.inl rfl), decodeClass_0F,
      decodeLegacy_notInScope (.inr (by simpa using mt (Pfxs.o66_iff_mem hp).1 h66))]
  · intro c v hc h32 hv
    rw [hclass (.inr hc), decodeClass_notVex hc (by simp [Mode.OpensVex, h32, hv])]
  · intro v1 v2 op hbad
    rw [hclass (.inr (.inl rfl))]
    by_cases hopens : m.OpensVex v1
    · rw [decodeClass_C4 hopens, decodeVex_notInScope (not_vexOfForm hbad)]
    · exact decodeClass_notVex (.inl rfl) hopens p rex _
  · intro p0 p1 p2 op hbad
    rw [hclass (.inr (.inr rfl))]
    by_cases hopens : m.OpensVex p0
    · rw [decodeClass_62 hopens, decodeEvex_notInScope (not_evexOfForm hbad)]
    · exact decodeClass_notVex (.inr rfl) hopens p rex _

end Sys2Proof
end

section
/-! SUPPORT. Effective addresses as integers, the program that `withFetchWord` places, and the modes that run
nothing. -/

namespace Sys2Proof.Machine

/-! ## Effective addresses as integers (30_encoding.md R110 to R112) -/

/-- A sum of words is the sum of what they stand for. -/
theorem toNat_add_modEq {w : Nat} {x y : BitVec w} {a b : ℤ} (hx : (x.toNat : ℤ) ≡ a [ZMOD 2 ^ w])
    (hy : (y.toNat : ℤ) ≡ b [ZMOD 2 ^ w]) : ((x + y).toNat : ℤ) ≡ a + b [ZMOD 2 ^ w] := by
  rw [BitVec.toNat_add]
  push_cast
  exact (Int.mod_modEq _ _).trans (hx.add hy)

theorem toNat_ofInt_modEq (w : Nat) (z : ℤ) : ((BitVec.ofInt w z).toNat : ℤ) ≡ z [ZMOD 2 ^ w] := by
  rw [BitVec.toNat_ofInt]
  have hpos : (0 : ℤ) < 2 ^ w := by positivity
  push_cast
  rw [Int.toNat_of_nonneg (Int.emod_nonneg z hpos.ne')]
  exact Int.mod_modEq z _

theorem toNat_shiftLeft_modEq {w : Nat} (x : BitVec w) (k : Nat) :
    ((x <<< k).toNat : ℤ) ≡ x.toNat * 2 ^ k [ZMOD 2 ^ w] := by
  rw [BitVec.toNat_shiftLeft, Nat.shiftLeft_eq]
  push_cast
  exact Int.mod_modEq _ _

/-- How many bits an effective address has (20_memory.md R59). -/
def eaBits (m : Mode) (a67 : Bool) : Nat := if m = .mode64 ∧ a67 = false then 64 else 32

/-- What stands for an integer modulo 2^64 is brought to the width of effective addresses. -/
theorem wrapEa_toNat_of_modEq {v : Word64} {z : ℤ} (h : (v.toNat : ℤ) ≡ z [ZMOD 2 ^ 64]) (m : Mode) (a67 : Bool) :
    ((wrapEa m a67 v).toNat : ℤ) = z % 2 ^ eaBits m a67 := by
  have hwrap : (wrapEa m a67 v).toNat = v.toNat % 2 ^ eaBits m a67 := by
    unfold wrapEa eaBits
    split
    · rw [Nat.mod_eq_of_lt v.isLt]
    · rw [BitVec.toNat_setWidth, BitVec.toNat_setWidth, Nat.mod_eq_of_lt (b := 2 ^ 64) (by omega)]
  have hdvd : (2 : ℤ) ^ eaBits m a67 ∣ 2 ^ 64 := pow_dvd_pow 2 (by unfold eaBits; split <;> decide)
  rw [hwrap]
  push_cast
  exact h.of_dvd hdvd

section
variable (s : State) (a67 : Bool) (n len : Nat)

theorem effectiveAddr_base (b : GprNum) (d : Disp) : ((s.effectiveAddr a67 n len (.base b d)).toNat : ℤ) =
    ((s.gprRead b).toNat + dispValue n d) % 2 ^ eaBits s.mode a67 :=
  wrapEa_toNat_of_modEq (toNat_add_modEq rfl (toNat_ofInt_modEq 64 _)) s.mode a67

theorem effectiveAddr_sib (b : GprNum) (ix : Option GprNum) (sc : BitVec 2) (d : Disp) :
    ((s.effectiveAddr a67 n len (.sib b ix sc d)).toNat : ℤ) =
      ((s.gprRead b).toNat + (s.indexCell ix).toNat * 2 ^ sc.toNat + dispValue n d) % 2 ^ eaBits s.mode a67 :=
  wrapEa_toNat_of_modEq
    (toNat_add_modEq (toNat_add_modEq rfl (toNat_shiftLeft_modEq _ _)) (toNat_ofInt_modEq 64 _)) s.mode a67

theorem effectiveAddr_sibNoBase (ix : Option GprNum) (sc : BitVec 2) (d : Word32) :
    ((s.effectiveAddr a67 n len (.sibNoBase ix sc d)).toNat : ℤ) =
      ((s.indexCell ix).toNat * 2 ^ sc.toNat + d.toInt) % 2 ^ eaBits s.mode a67 :=
  wrapEa_toNat_of_modEq (toNat_add_modEq (toNat_shiftLeft_modEq _ _) (toNat_ofInt_modEq 64 _)) s.mode a67

theorem effectiveAddr_disp32_mode64 (h : s.mode = .mode64) (d : Word32) :
    ((s.effectiveAddr a67 n len (.disp32 d)).toNat : ℤ) = (s.rip.toNat + len + d.toInt) % 2 ^ eaBits s.mode a67 := by
  have hlen : ((BitVec.ofNat 64 len).toNat : ℤ) ≡ len [ZMOD 2 ^ 64] := by
    rw [BitVec.toNat_ofNat]
    push_cast
    exact Int.mod_modEq _ _
  unfold State.effectiveAddr
  simp only [h, if_true]
  exact wrapEa_toNat_of_modEq (toNat_add_modEq (toNat_add_modEq rfl hlen) (toNat_ofInt_modEq 64 _)) _ a67

end

theorem toInt_emod_eq_toNat {w : Nat} (x : BitVec w) : x.toInt % 2 ^ w = x.toNat := by
  have hlt : (x.toNat : ℤ) < 2 ^ w := by exact_mod_cast x.isLt
  have hbmod := Int.bmod_emod (x := x.toNat) (m := 2 ^ w)
  rw [← BitVec.toInt_eq_toNat_bmod] at hbmod
  push_cast at hbmod
  rw [hbmod, Int.emod_eq_of_lt (Int.natCast_nonneg _) hlt]

theorem effectiveAddr_disp32_mode32 {s : State} (h : s.mode = .mode32) (a67 : Bool) (n len : Nat) (d : Word32) :
    s.effectiveAddr a67 n len (.disp32 d) = d.setWidth 64 := by
  have hbits : eaBits s.mode a67 = 32 := by simp [eaBits, h]
  have hea : ((s.effectiveAddr a67 n len (.disp32 d)).toNat : ℤ) = d.toInt % 2 ^ eaBits s.mode a67 := by
    unfold State.effectiveAddr
    simp only [h, reduceCtorEq, if_false, zero_add]
    exact wrapEa_toNat_of_modEq (toNat_ofInt_modEq 64 _) _ a67
  rw [hbits, toInt_emod_eq_toNat] at hea
  apply BitVec.eq_of_toNat_eq
  rw [BitVec.toNat_setWidth, Nat.mod_eq_of_lt (by omega)]
  exact_mod_cast hea

/-- Settles O25: each addressing form stands for R112's sum modulo 2^64, and is brought to its width. -/
theorem effectiveAddressArithmetic : Obligations.EffectiveAddressArithmetic := by
  intro s a67 n len b ix sc d d32 _ W disp bv iv
  have hdisp : dispValue n d = disp := by cases d <;> rfl
  have hindex : ((s.indexCell ix).toNat : ℤ) = iv := by cases ix <;> rfl
  rw [← hdisp, ← hindex]
  exact ⟨effectiveAddr_base s a67 n len b d, effectiveAddr_sib s a67 n len b ix sc d,
    effectiveAddr_sibNoBase s a67 n len ix sc d32⟩

/-- Settles O26: the next instruction's address plus the displacement in `Mode64`; in `Mode32` the displacement's
bits. -/
theorem ripRelativeAddress : Obligations.RipRelativeAddress := by
  refine fun s a67 n len d => ⟨fun h => ?_, fun h => effectiveAddr_disp32_mode32 h a67 n len d⟩
  rw [effectiveAddr_disp32_mode64 s a67 n len h, h]
  cases a67 <;> rfl

/-! ## The program that `withFetchWord` places -/

/-- Placing bytes writes memory and nothing else. -/
theorem placeBytes_eq (s : State) (off : Word64) (bs : List Byte) :
    s.placeBytes off bs = { s with mem := (s.placeBytes off bs).mem } := by
  induction bs generalizing s off with
  | nil => rfl
  | cons b bs ih => rw [State.placeBytes, ih]

/-- Bytes at different offsets after `rip`, less than 2^32 apart, have different addresses. -/
theorem linear_fetchEa_ne (s : State) {j k : Nat} (hjk : j < k) (hk : k ≤ j + 2 ^ 32 - 1) :
    (s.linear .cs (s.fetchEa j)).toNat ≠ (s.linear .cs (s.fetchEa k)).toNat := by
  rw [linear_toNat, linear_toNat, fetchEa_toNat, fetchEa_toNat]
  rcases addrBits_eq s.mode with h | h <;> rw [h] <;> omega

/-- The bytes placed from offset `j` after `rip` on: each of them can be read back, and every other byte is as
before. -/
theorem read_placeBytes {s : State} (hmem : s.mem.wf = true) (j : Nat) (bs : List Byte)
    (hlen : j + bs.length ≤ 2 ^ 32) :
    (∀ k (hk : k < bs.length),
      (s.placeBytes (BitVec.ofNat 64 j) bs).mem.read (s.linear .cs (s.fetchEa (j + k))).toNat = bs[k]) ∧
    ∀ a, (∀ k, k < bs.length → a ≠ (s.linear .cs (s.fetchEa (j + k))).toNat) →
      (s.placeBytes (BitVec.ofNat 64 j) bs).mem.read a = s.mem.read a := by
  induction bs generalizing s j with
  | nil => exact ⟨nofun, fun _ _ => rfl⟩
  | cons b bs ih =>
    rw [List.length_cons] at hlen
    have hwf := wf_write s.mem (s.linear .cs (s.fetchEa j)).toNat b hmem (BitVec.isLt _)
    obtain ⟨hplaced, hother⟩ := ih (s := { s with mem := s.mem.write (s.linear .cs (s.fetchEa j)).toNat b }) hwf (j + 1)
      (by omega)
    have hrec : s.placeBytes (BitVec.ofNat 64 j) (b :: bs) = State.placeBytes
        { s with mem := s.mem.write (s.linear .cs (s.fetchEa j)).toNat b } (BitVec.ofNat 64 (j + 1)) bs := by
      rw [State.placeBytes, ofNat_add_one]
      rfl
    have hshift (k : Nat) : j + 1 + k = j + (k + 1) := by omega
    rw [hrec]
    constructor
    · intro k hk
      cases k with
      | zero =>
        refine (hother _ fun k hk' => ?_).trans ?_
        · exact linear_fetchEa_ne s (by omega) (by rw [List.length_cons] at hk; omega)
        · exact (read_write _ _ _ _ hmem).trans (if_pos rfl)
      | succ k =>
        have := hplaced k (by simpa using hk)
        rw [hshift] at this
        exact this
    · intro a ha
      refine (hother a fun k hk => ?_).trans ?_
      · have := ha (k + 1) (by simpa using hk)
        rw [← hshift] at this
        exact this
      · exact (read_write _ _ _ _ hmem).trans (if_neg (ha 0 (by simp)))

/-- The bytes of a loaded program stand at `rip`, where every access is admitted. -/
theorem holdsAtRip_loadProgram {s : State} {bs : List Byte} (hmem : s.mem.wf = true) (hadm : s.admitTable = [])
    (hlen : bs.length ≤ 2 ^ 32) : (s.loadProgram bs).HoldsAtRip bs := by
  have hread := (read_placeBytes hmem 0 bs (by omega)).1
  intro k hk
  rw [State.loadProgram, placeBytes_eq]
  refine ⟨by simp [State.admission, AdmitTable.answer, hadm], ?_⟩
  rw [← hread k hk, Nat.zero_add]
  rfl

/-- In `Mode64` a loaded program is ready to be launched (70_reset_and_hazards.md R221). -/
theorem launch_loadProgram {s : State} (hm : s.mode = .mode64) (bs : List Byte) : (s.loadProgram bs).Launch := by
  rw [State.Launch, State.loadProgram, placeBytes_eq]
  simp only [hm]
  rfl

theorem loadProgram_mode (s : State) (bs : List Byte) : (s.loadProgram bs).mode = s.mode := by
  rw [State.loadProgram, placeBytes_eq]

/-- Booting leads to `Mode64` from every mode but `Mode32`, and leaves memory and the admission table as they are. -/
theorem boot_of_ne_mode32 {s : State} (h : s.mode ≠ .mode32) :
    s.boot.mode = .mode64 ∧ s.boot.mem = s.mem ∧ s.boot.admitTable = s.admitTable := by
  unfold State.boot
  cases hm : s.mode with
  | mode64 => exact ⟨hm, rfl, rfl⟩
  | mode32 => exact absurd hm h
  | realAddress | virtual8086 | code16 => exact ⟨rfl, rfl, rfl⟩

theorem length_padded (bs : List Byte) : (padded bs).length = Config.maxLen := by
  simp [padded]

theorem padded_padded (bs : List Byte) : padded (padded bs) = padded bs := by
  rw [padded, List.take_append_of_le_length (length_padded bs).ge, List.take_of_length_le (length_padded bs).le]

theorem length_tableWordBytes (nbits w : Nat) : (tableWordBytes nbits w).length = Config.maxLen := length_padded _

/-- The instruction of a table word is what the decoder reads from the word's bytes. -/
theorem decode_tableWordBytes {nbits w : Nat} {i : Instr} (h : decodeTableWord nbits w = some i) :
    ∃ rest, decode .mode64 (tableWordBytes nbits w) = .ok (i, rest) := by
  have hpad : padded (tableWordBytes nbits w) = tableWordBytes nbits w := padded_padded _
  rw [decodeTableWord, decode64?, hpad] at h
  split at h
  · rename_i j rest hd
    cases h
    exact ⟨rest, hd⟩
  · cases h

/-- A step runs the instruction that the bytes at `rip` begin with. -/
theorem step_of_holdsAtRip {s : State} {bs rest : List Byte} {i : Instr} (h : s.HoldsAtRip bs)
    (hlen : bs.length ≤ Config.maxLen) (hd : decode s.mode bs = .ok (i, rest)) : step s = exec i s := by
  obtain ⟨later, hlater⟩ := prefix_fetched h hlen
  have hfetched := decode_append_of_ok hd later
  rw [hlater] at hfetched
  rw [step, fetchInstr_of_decode (admitted_of_wf (wf_of_decode hd).1) hfetched]

/-- Settles O41: the word's bytes are at `rip` after the load, and decode to the instruction. -/
theorem loadedWordIsTheNextInstruction : Obligations.LoadedWordIsTheNextInstruction := by
  intro s nbits w i hmem hadm hm hi
  obtain ⟨hmode, hbmem, hbadm⟩ := boot_of_ne_mode32 hm
  obtain ⟨rest, hd⟩ := decode_tableWordBytes hi
  have hlen := length_tableWordBytes nbits w
  have hholds := holdsAtRip_loadProgram (s := s.boot) (bs := tableWordBytes nbits w) (hbmem ▸ hmem) (hbadm ▸ hadm)
    (by rw [hlen]; decide)
  refine ⟨launch_loadProgram hmode _, step_of_holdsAtRip (rest := rest) hholds hlen.le ?_⟩
  rw [State.withFetchWord, loadProgram_mode, hmode, hd]

/-! ## The modes that run nothing -/

theorem step_of_not_admitted {s : State} (h : s.mode.admitted = false) : step s = .refused (.reason .badMode) := by
  have hfetch : fetchInstr s = .refuse .badMode := by simp [fetchInstr, h]
  rw [step, hfetch]
  rfl

/-- Settles O54: the mode is looked at before the bytes. -/
theorem otherModesRefuse : Obligations.OtherModesRefuse := by
  refine ⟨fun s h64 h32 => step_of_not_admitted ?_, step_of_not_admitted rfl⟩
  cases hm : s.mode with
  | mode64 => exact absurd hm h64
  | mode32 => exact absurd hm h32
  | realAddress | virtual8086 | code16 => rfl

end Sys2Proof.Machine
end

section
/-! SUPPORT. The extract function and a register destination: the element that is written, bit by bit and as a number;
what a register write changes; and the frame of a completed step (40_extract_common.md R130, R134, R139, R141). -/

namespace Sys2Proof.Machine

/-! ## The extracted element -/

/-- The element index is the immediate modulo the number of elements (40_extract_common.md R130, R132). -/
theorem sel_eq_mod_count (e : Elem) (imm : Byte) : e.sel imm = imm.toNat % e.count := by
  rw [sel_eq_mod, count_eq_div]

theorem extract_toNat_count (e : Elem) (x : Xmm) (imm : Byte) :
    (extract e x imm).toNat = element e.bits (imm.toNat % e.count) x := by
  rw [extract_toNat, count_eq_div]

theorem extract_lt (e : Elem) (x : Xmm) (imm : Byte) : (extract e x imm).toNat < 2 ^ e.bits := by
  rw [extract_toNat]
  exact Nat.mod_lt _ (Nat.two_pow_pos _)

theorem getLsbD_extract (e : Elem) (x : Xmm) (imm : Byte) (i : Nat) :
    (extract e x imm).getLsbD i = (decide (i < e.bits) && x.getLsbD (e.bits * (imm.toNat % e.count) + i)) := by
  have hbits := bits_le_64 e
  rw [extract, BitVec.getLsbD_setWidth, BitVec.getLsbD_setWidth, BitVec.getLsbD_ushiftRight, sel_eq_mod_count,
    Nat.mul_comm]
  by_cases hi : i < e.bits
  · simp [hi, show i < 64 by omega]
  · simp [hi]

/-- An index below the number of elements, written as an immediate, selects itself. -/
theorem ofNat_mod_count {e : Elem} {k : Nat} (hk : k < e.count) : (BitVec.ofNat 8 k).toNat % e.count = k := by
  have hcount : e.count ≤ 16 := by cases e <;> decide
  rw [BitVec.toNat_ofNat, Nat.mod_eq_of_lt (show k < 2 ^ 8 by omega), Nat.mod_eq_of_lt hk]

/-- An element is the part numbered `k % d` of the wider element numbered `k / d`, where a wider element holds `d` of
them (95_test_vectors.md section 10). -/
theorem extract_eq_part_of_wider {e w : Elem} {d : Nat} (hd : 0 < d) (hbits : w.bits = e.bits * d)
    (hcount : e.count = w.count * d) (x : Xmm) {k : Nat} (hk : k < e.count) :
    extract e x (BitVec.ofNat 8 k) =
      ((extract w x (BitVec.ofNat 8 (k / d))).extractLsb' (e.bits * (k % d)) e.bits).setWidth 64 := by
  have hwide : k / d < w.count := (Nat.div_lt_iff_lt_mul hd).2 (hcount ▸ hk)
  apply BitVec.eq_of_getLsbD_eq
  intro i hi
  rw [BitVec.getLsbD_setWidth, BitVec.getLsbD_extractLsb', getLsbD_extract, getLsbD_extract, ofNat_mod_count hk,
    ofNat_mod_count hwide]
  by_cases hie : i < e.bits
  · have hinside : e.bits * (k % d) + i < w.bits := by
      calc e.bits * (k % d) + i < e.bits * (k % d + 1) := by rw [Nat.mul_succ]; omega
        _ ≤ e.bits * d := Nat.mul_le_mul_left _ (Nat.mod_lt k hd)
        _ = w.bits := hbits.symm
    have hplace : w.bits * (k / d) + (e.bits * (k % d) + i) = e.bits * k + i := by
      rw [hbits, ← Nat.add_assoc, Nat.mul_assoc, ← Nat.mul_add, Nat.div_add_mod]
    simp [hi, hie, hinside, hplace]
  · simp [hie]

/-- The two qwords make the source. -/
theorem extract_qwords_append (x : Xmm) : extract .qword x 1 ++ extract .qword x 0 = x := by
  apply BitVec.eq_of_getLsbD_eq
  intro i hi
  rw [BitVec.getLsbD_append, getLsbD_extract, getLsbD_extract]
  by_cases hlow : i < 64
  · simp [Elem.bits, Elem.count, hlow]
  · simp [Elem.bits, Elem.count, hlow, show i - 64 < 64 by omega, show 64 + (i - 64) = i by omega]

/-! ## A register destination -/

/-- Outside `Mode64` no instruction extracts more than 32 bits. -/
theorem mode64_or_bits_le {m : Mode} {i : Instr} (h : i.wf m = true) : m = .mode64 ∨ (elemOf i).bits ≤ 32 := by
  cases i with
  | pextrb | pextrd | vpextrbVex | vpextrdVex | vpextrbEvex | vpextrdEvex => exact .inr (by simp [elemOf, Elem.bits])
  | pextrq | vpextrqVex | vpextrqEvex =>
    simp only [Instr.wf, Bool.and_eq_true, beq_iff_eq] at h
    exact .inl h.2

/-- A register holds what was written to it, where the mode has as many bits (10_state.md R22, R23). -/
theorem gprVal_writeGpr_self {s : State} {v : Word64} (h : s.mode = .mode64 ∨ v.toNat < 2 ^ 32) (r : GprNum) :
    (s.writeGpr r v).gprVal r = v.toNat := by
  unfold State.gprVal
  by_cases hm : s.mode = .mode64
  · rw [writeGpr_read_mode64 s v r hm]
  · have hv : v.toNat < 2 ^ 32 := h.resolve_left hm
    rw [writeGpr_read_mode32 s v r hm, BitVec.toNat_setWidth, BitVec.toNat_setWidth, Nat.mod_eq_of_lt hv,
      Nat.mod_eq_of_lt v.isLt]

/-- What a register write leaves behind (40_extract_common.md R134, R139). -/
theorem registerWritten_writeGpr {s : State} {v : Word64} (h : s.mode = .mode64 ∨ v.toNat < 2 ^ 32) (r : GprNum)
    (len : Nat) : RegisterWritten s ((s.writeGpr r v).advance len) r v.toNat len where
  value := gprVal_writeGpr_self h r
  regs _ _ hq := congrArg BitVec.toNat (writeGpr_read_ne s v r hq)
  mem _ := by simp
  rip := by simpa [RipAdvanced] using ripNext_toNat s len
  rest := untouched_writeGpr s r v len

/-- What an instruction of the mode extracts fits the registers of the mode. -/
theorem registerWritten_extract {i : Instr} {s : State} (hwf : i.wf s.mode = true) (r : GprNum) :
    RegisterWritten s ((s.writeGpr r (extract (elemOf i) (s.xmmReg i.form.src) i.form.imm8)).advance i.len) r
      (extract (elemOf i) (s.xmmReg i.form.src) i.form.imm8).toNat i.len :=
  registerWritten_writeGpr ((mode64_or_bits_le hwf).imp_right fun hbits =>
    (extract_lt ..).trans_le (Nat.pow_le_pow_right Nat.two_pos hbits)) r _

/-- A READY INSTRUCTION WITH A REGISTER DESTINATION COMPLETES, and the register holds the zero-extended element. -/
theorem exec_registerWritten {i : Instr} {s : State} {r : GprNum} (hready : s.Ready i) (hdest : i.form.dest = .reg r) :
    ∃ t, exec i s = .next t ∧ RegisterWritten s t r
      (element (elemOf i).bits (i.form.imm8.toNat % (elemOf i).count) (s.xmmReg i.form.src)) i.len := by
  refine ⟨_, exec_reg hready hdest, ?_⟩
  rw [← extract_toNat_count]
  exact registerWritten_extract hready.wf r

/-! ## The frame of a completed step -/

/-- Settles O45: a completed step is one register write or one store, each with its frame. -/
theorem stepChangesOnlyTheDestination : Obligations.StepChangesOnlyTheDestination := by
  intro s t hinv h
  obtain ⟨i, hi, hx⟩ := step_next h
  refine ⟨(step_next_untouched h).1, i, hi, ?_⟩
  obtain ⟨hready, ⟨r, hdest, rfl⟩ | ⟨a, hdest, -, rfl⟩⟩ := exec_next hx
  · have hwritten := registerWritten_extract hready.wf r
    rw [hdest]
    exact ⟨hwritten.regs, hwritten.mem⟩
  · rw [hdest]
    exact ⟨fun _ => rfl, (memoryWritten_store hinv.mem _ _ (bytes_le_8 _) _).other⟩

/-! ## The extract function -/

/-- Settles O17: one element width each. -/
theorem extractIsTheIndexedElement : Obligations.ExtractIsTheIndexedElement :=
  fun x imm => ⟨extract_toNat_count .byte x imm, extract_toNat_count .dword x imm, extract_toNat_count .qword x imm⟩

/-- Settles O18: two dwords to a qword, four bytes to a dword, two qwords to the source. -/
theorem extractWidthsFitTogether : Obligations.ExtractWidthsFitTogether :=
  fun x => ⟨fun _ hk => extract_eq_part_of_wider (e := .dword) (w := .qword) (by decide) rfl rfl x hk,
    fun _ hk => extract_eq_part_of_wider (e := .byte) (w := .dword) (by decide) rfl rfl x hk, extract_qwords_append x⟩

/-! ## The register forms -/

/-- Settles O19: each of the three instructions is ready. -/
theorem legacyRegisterForms : Obligations.LegacyRegisterForms := by
  intro rex f s r hdest hsse hem hfxsr hts
  refine ⟨?_, ?_, ?_⟩ <;> exact fun hwf => exec_registerWritten ⟨hwf, ⟨hsse, hem, hfxsr⟩, hts⟩ hdest

/-- Settles O20: each of the three instructions is ready. -/
theorem vexRegisterForms : Obligations.VexRegisterForms := by
  intro f s r hdest havx hxsave hxcr hts
  refine ⟨?_, ?_, ?_⟩ <;> exact fun hwf => exec_registerWritten ⟨hwf, ⟨havx, hxsave, hxcr⟩, hts⟩ hdest

/-- Settles O21: each of the three instructions is ready, with its own feature flag. -/
theorem evexRegisterForms : Obligations.EvexRegisterForms := by
  intro f s r hdest hf hxsave hxcr hxcr512 hts
  exact ⟨fun hbw hwf => exec_registerWritten ⟨hwf, ⟨hf, hbw, hxsave, hxcr, hxcr512⟩, hts⟩ hdest,
    fun hdq hwf => exec_registerWritten ⟨hwf, ⟨hf, hdq, hxsave, hxcr, hxcr512⟩, hts⟩ hdest,
    fun hdq hwf => exec_registerWritten ⟨hwf, ⟨hf, hdq, hxsave, hxcr, hxcr512⟩, hts⟩ hdest⟩

/-! ## What of the vector registers is read -/

theorem readsAlike_xmm (s : State) (x : Vector Xmm 32) : ReadsAlike s { s with xmm := x } :=
  ⟨rfl, fun _ _ => rfl, rfl, rfl, rfl, rfl, rfl, rfl, rfl, rfl, rfl⟩

theorem writeGpr_with_xmm (s : State) (x : Vector Xmm 32) (r : GprNum) (v : Word64) :
    State.writeGpr { s with xmm := x } r v = { s.writeGpr r v with xmm := x } := by
  unfold State.writeGpr
  split <;> rfl

/-- Settles O52: of the vector registers a meaning reads what it extracts, the selected element. -/
theorem onlyTheSelectedElementMatters : Obligations.OnlyTheSelectedElementMatters := by
  intro i s x h
  rw [← extract_toNat, ← extract_toNat] at h
  have hanswer := (readsAlike_xmm s x).exec (classOn_eq_of_cfg rfl i) (BitVec.eq_of_toNat_eq h)
  refine hanswer.eq_onNext (g := fun t => { t with xmm := x }) (fun r v len => ?_) fun _ _ _ _ => rfl
  rw [writeGpr_with_xmm]
  rfl

end Sys2Proof.Machine
end

section
/-! SUPPORT. The worked examples of the spec: the decoder inverts the encoder on them. -/

namespace Sys2Proof

/-- The encoding of a well-formed instruction, standing alone, decodes to it with no byte left. -/
theorem decode_of_encode_eq {m : Mode} {i : Instr} {bs : List Byte} (hwf : i.wf m = true) (h : encode i = bs) :
    decode m bs = .ok (i, []) := by
  have hdecode := decodeOfEncode m i [] hwf
  rwa [List.append_nil, h] at hdecode

/-- Settles O6: each of the nine words is what the encoder writes for its instruction. -/
theorem workedExamplesDecode : Obligations.WorkedExamplesDecode := by
  refine ⟨?_, ?_, ?_, ?_, ?_, ?_, ?_, ?_, ?_⟩ <;> exact decode_of_encode_eq (by decide) (by decide)

end Sys2Proof
end

section
/-! SUPPORT. The exceptions of 60_exceptions.md: reserved fields, the class's enabling condition, CR0.TS, and the numbers
and error codes. -/

namespace Sys2Proof

/-! ## Reserved fields of VEX and EVEX -/

/-- Settles O8: behind the prefixes the byte C4H opens the VEX class, whose tests of L and vvvv answer #UD. -/
theorem vexReservedFieldsInvalid : Obligations.VexReservedFieldsInvalid := by
  intro m seg a67 v1 v2 op bs hm hmap hpp hop htop hbad
  have hbits : ∀ v : Byte, v.extractLsb' 5 3 = 7#3 → v.extractLsb' 6 2 = 3#2 ∧ v[5] = true := by decide
  have hopens : m.OpensVex v1 := Mode.opensVex_of_admitted hm fun h32 => (hbits v1 (htop h32)).1
  have hext : m = .mode32 → v1[5] = true := fun h32 => (hbits v1 (htop h32)).2
  rw [decode_of_addAll_noRex hm (Pfxs.addAll_operand seg a67) m.opcodeByte_C4, decodeClass_C4 hopens]
  exact decodeVex_badField ⟨hmap, hpp, isExtractOp_iff.2 hop⟩ hext hbad

/-- What passes the test of X̄ (30_encoding.md R105). -/
theorem evexXCheck_ok {m : Mode} {p0 modrm : Byte} {bs : List Byte}
    (h : m = .mode64 → p0[6] = true ∨ modrm.extractLsb' 6 2 ≠ 3#2) : evexXCheck m p0 (modrm :: bs) = .ok () := by
  by_cases hm : m = .mode64
  · rcases h hm with hx | hmod
    · simp [evexXCheck, hx]
    · simp [evexXCheck, hmod]
  · simp [evexXCheck, hm]

/-- Settles O9: with no field refused, the tests of L'L and vvvv come next and answer #UD. -/
theorem evexReservedFieldsInvalid : Obligations.EvexReservedFieldsInvalid := by
  intro m seg a67 p0 p1 p2 op modrm bs hm h0 h1 hop hz h2 htop hx hbad
  have hbits : ∀ v : Byte, v.extractLsb' 4 4 = 15#4 → v.extractLsb' 6 2 = 3#2 ∧ v[5] = true ∧ v[4] = true := by decide
  have hopens : m.OpensVex p0 := Mode.opensVex_of_admitted hm fun h32 => (hbits p0 (htop h32)).1
  have hext : m = .mode32 → p0[5] = true ∧ p0[4] = true := fun h32 => (hbits p0 (htop h32)).2
  rw [decode_of_addAll_noRex hm (Pfxs.addAll_operand seg a67) m.opcodeByte_62, decodeClass_62 hopens]
  exact decodeEvex_badField (evexFields_of_ranges hop h0 h1 hz h2) hext (evexXCheck_ok hx) hbad

end Sys2Proof

namespace Sys2Proof.Machine

/-! ## The checks before the operands (60_exceptions.md R196) -/

section
variable {i : Instr} {s : State}

/-- The checks that are left for an instruction the mode can encode: the class first, then CR0.TS. -/
theorem exec_of_wf (hwf : i.wf s.mode = true) :
    exec i s = if classOn s i then (if s.cfg.cr0Ts then .fault .nm else
      execExtract (elemOf i) (disp8N i) i.len i.form s) else .fault .ud := by
  cases hon : classOn s i <;> simp [exec_eq, runExtract, takeException, admitted_of_wf hwf, hwf, hon]

/-- #UD from the state, whatever CR0.TS is (60_exceptions.md R187, R188, R190, R196). -/
theorem exec_disabled (hwf : i.wf s.mode = true) (hoff : ¬ s.enables i) : exec i s = .fault .ud := by
  rw [exec_of_wf hwf, if_neg (mt (classOn_iff s i).1 hoff)]

/-- #NM where no #UD condition holds (60_exceptions.md R189). -/
theorem exec_taskSwitched (hwf : i.wf s.mode = true) (hon : s.enables i) (hts : s.cfg.cr0Ts = true) :
    exec i s = .fault .nm := by
  rw [exec_of_wf hwf, if_pos ((classOn_iff s i).2 hon), if_pos hts]

end

/-- Settles O33: the class's enabling condition is tested before CR0.TS. -/
theorem disabledClassIsInvalid : Obligations.DisabledClassIsInvalid :=
  fun _ _ => exec_disabled

/-- Settles O34: CR0.TS is tested once no #UD condition is left. -/
theorem taskSwitchedRaisesNm : Obligations.TaskSwitchedRaisesNm :=
  ⟨fun _ _ => exec_taskSwitched, rfl⟩

/-! ## What of the configuration is read -/

/-- Of the configuration a meaning reads, beside its class's enabling condition, CR0.TS and CR0.AM. -/
theorem readsAlike_cfg {s : State} {c : Cfg} (hts : c.cr0Ts = s.cfg.cr0Ts) (ham : c.cr0Am = s.cfg.cr0Am) :
    ReadsAlike s { s with cfg := c } := by
  have halign : State.alignmentCheck { s with cfg := c } = s.alignmentCheck := by
    simp only [State.alignmentCheck, State.acFlag, ham]
  exact ⟨rfl, fun _ _ => rfl, rfl, rfl, rfl, hts, halign, rfl, rfl, rfl, rfl⟩

theorem writeGpr_with_cfg (s : State) (c : Cfg) (r : GprNum) (v : Word64) :
    State.writeGpr { s with cfg := c } r v = { s.writeGpr r v with cfg := c } := by
  unfold State.writeGpr
  split <;> rfl

/-- Another configuration that enables the class alike, with the same CR0.TS and CR0.AM, gives the same outcome. -/
theorem exec_with_cfg {s : State} {c : Cfg} {i : Instr} (hts : c.cr0Ts = s.cfg.cr0Ts) (ham : c.cr0Am = s.cfg.cr0Am)
    (hon : State.enables { s with cfg := c } i ↔ s.enables i) :
    exec i { s with cfg := c } = onNext (fun t => { t with cfg := c }) (exec i s) := by
  have hclass : classOn { s with cfg := c } i = classOn s i := by
    rw [Bool.eq_iff_iff, classOn_iff, classOn_iff, hon]
  refine ((readsAlike_cfg hts ham).exec hclass rfl).eq_onNext (g := fun t => { t with cfg := c }) (fun r v len => ?_)
    fun _ _ _ _ => rfl
  rw [writeGpr_with_cfg]
  rfl

/-- Settles O51: the enabling condition of each class is stated in the class's own bits. -/
theorem classesReadTheirOwnControlBits : Obligations.ClassesReadTheirOwnControlBits := by
  intro s c hts ham
  refine ⟨fun hem hfxsr hsse rex f i hi => ?_, fun hxsave hxcr havx f i hi => ?_,
    fun hxsave hxcr hxcr512 hf f i hi => ?_⟩
  · apply exec_with_cfg hts ham
    rcases hi with rfl | rfl | rfl <;> simp only [State.enables, hem, hfxsr, hsse]
  · apply exec_with_cfg hts ham
    rcases hi with rfl | rfl | rfl <;> simp only [State.enables, hxsave, hxcr, havx]
  · apply exec_with_cfg hts ham
    rcases hi with ⟨rfl, hbw⟩ | ⟨rfl | rfl, hdq⟩
    · simp only [State.enables, hxsave, hxcr, hxcr512, hf, hbw]
    · simp only [State.enables, hxsave, hxcr, hxcr512, hf, hdq]
    · simp only [State.enables, hxsave, hxcr, hxcr512, hf, hdq]

/-! ## Numbers and error codes -/

/-- The page fault's code is its five bits, appended one by one from bit 4 down (60_exceptions.md R194). -/
theorem pfCode_eq_concat (kind : Access) (present user reserved : Bool) : pfCode kind present user reserved =
    (((((0#27).concat (decide (kind = .fetch))).concat reserved).concat user).concat (decide (kind = .write))).concat
      present := rfl

/-- The bits of a page fault's code (60_exceptions.md R194). -/
theorem pfCode_toNat (kind : Access) (present user reserved : Bool) : (pfCode kind present user reserved).toNat =
    present.toNat + 2 * (decide (kind = .write)).toNat + 4 * user.toNat + 8 * reserved.toNat +
      16 * (decide (kind = .fetch)).toNat := by
  simp only [pfCode_eq_concat, BitVec.toNat_concat, BitVec.toNat_ofNat, Nat.zero_mod]
  omega

/-- Settles O37: the table of R194, and the page fault's code bit by bit. -/
theorem vectorsAndErrorCodes : Obligations.VectorsAndErrorCodes :=
  ⟨rfl, rfl, fun _ _ => ⟨rfl, rfl⟩, pfCode_toNat⟩

end Sys2Proof.Machine
end
